-- ==== Sys2Proof/Word.lean ====
section
/-! DEFINITION. The widths of RFX32: a register, the pc and an address are 32 bits (R21, R27, R50,
decision D1), a register field is 5 bits (R20), a byte is 8 bits (R50). -/

namespace Sys2Proof

/-- A register value, the pc or an address: 32 bits (R4, R21). -/
abbrev Word := BitVec 32

/-- One byte of memory (R50). -/
abbrev Byte := BitVec 8

/-- A 5-bit register field: it names one of the general registers 0 to 31 (R20). -/
abbrev RegNum := BitVec 5

/-- The interrupt level, 0 to 7 (R30). -/
abbrev Level := BitVec 3

end Sys2Proof
end

