-- ==== Sys2Proof/Config.lean ====
section
/-! DEFINITION. The open parameters of the machine (`00_scope.md` R9). The spec says a model takes
them as arguments; they are plain data that `State` carries and no step writes, so that a statement
about every state is a statement about every value of them (log entry 3). -/

namespace Sys2Proof

/-- The four kinds of trap with the values they carry (R330). -/
inductive TrapKind where
  | brk                                  -- the BRK instruction
  | sys (num : BitVec 9)                 -- the SYS instruction
  | irq (num : BitVec 9) (lvl : Level)   -- the IRQ instruction
  | ext (num : BitVec 9) (lvl : Level)   -- an external interrupt request
  deriving DecidableEq, Repr

/-- What the environment offers at one step: a request of a number and a level (R336). -/
structure ExtReq where
  num : BitVec 9
  lvl : Level
  deriving DecidableEq, Repr

/-- A range of byte addresses that exist: `base .. base + size - 1`. -/
structure Region where
  base : Nat
  size : Nat
  deriving DecidableEq, Repr

/-- The open parameters of R9. Any set of 32-bit addresses is a list of regions, and any function on
the finitely many trap kinds is a table, so no instantiation of the spec is left out. -/
structure Params where
  /-- R0_ZERO: register 0 reads as zero and ignores writes (R22, D2). -/
  r0Zero : Bool
  /-- SP_REG: the register RTD adds to (R23, D3). -/
  spReg : RegNum
  /-- MEM: the byte addresses that exist (R57, D10). -/
  mem : List Region
  /-- VEC on the kinds it lists: the first entry for a kind counts (R334, D24). -/
  vec : List (TrapKind × Word)
  /-- VEC on every kind `vec` does not list. -/
  vecOther : Word
  /-- ES_DEPTH: the capacity of the exception stack, at least 2 (R341, D26). -/
  esDepth : Nat
  /-- RESET_PC: the pc after reset (R371, D30). -/
  resetPc : Word
  /-- END_PC: a state with the pc there is final (R374, D33). -/
  endPc : Word
  deriving DecidableEq, Repr

/-- DESIGN CHOICE (log entries 4 to 10; unsafe): the values that `State.reset` gives the open
parameters. Register 0 is ordinary, the SP is register 31 and ES_DEPTH is 4 as in the spec's vectors,
every 32-bit address exists, every handler is at 0, the first fetch is at 0, and END_PC is
0xFFFFFFFF, an address at which no instruction fits (R29). -/
def Config.launch : Params where
  r0Zero := false
  spReg := 31
  mem := [⟨0, 4294967296⟩]
  vec := []
  vecOther := 0
  esDepth := 4
  resetPc := 0
  endPc := 0xFFFFFFFF

end Sys2Proof
end

