-- ==== Sys2Proof/Syntax.lean ====
section
/-! DEFINITION. The instructions of RFX32: one constructor per instruction of `spec/opcode_table.json`.
CALL and RTD, which have one table row for each of Lr = 1, 2, 3, are one constructor each with an Lr
field. SLT stands at functions 13 and 26 of the {R2} map (conflict C4) and has two constructors.
A constructor's arguments are the fields of its format (R82 to R91), target or stored register first,
then the sources in the order Ra, Rb, then the immediate. -/

namespace Sys2Proof

/-- The instruction set (R92, R93, R94). -/
inductive Instr where
  -- Format RI (R82): target, base, 16-bit immediate; APCIS has no base
  | addi  (rt ra : RegNum) (imm : BitVec 16)
  | addis (rt ra : RegNum) (imm : BitVec 16)
  | andi  (rt ra : RegNum) (imm : BitVec 16)
  | andis (rt ra : RegNum) (imm : BitVec 16)
  | apcis (rt : RegNum) (imm : BitVec 16)
  | jal   (rt ra : RegNum) (imm : BitVec 16)
  | cmpi  (rt ra : RegNum) (imm : BitVec 16)
  | muli  (rt ra : RegNum) (imm : BitVec 16)
  | divi  (rt ra : RegNum) (imm : BitVec 16)
  | ori   (rt ra : RegNum) (imm : BitVec 16)
  | eori  (rt ra : RegNum) (imm : BitVec 16)
  | subfi (rt ra : RegNum) (imm : BitVec 16)
  | slti  (rt ra : RegNum) (imm : BitVec 16)
  | mului (rt ra : RegNum) (imm : BitVec 16)
  | divui (rt ra : RegNum) (imm : BitVec 16)
  | oris  (rt ra : RegNum) (imm : BitVec 16)
  | eoris (rt ra : RegNum) (imm : BitVec 16)
  -- Format R2 (R83)
  | add   (rt ra rb : RegNum)
  | cmp   (rt ra rb : RegNum)
  | and   (rt ra rb : RegNum)
  | or    (rt ra rb : RegNum)
  | mul   (rt ra rb : RegNum)
  | div   (rt ra rb : RegNum)
  | eor   (rt ra rb : RegNum)
  | andn  (rt ra rb : RegNum)
  | sub   (rt ra rb : RegNum)
  | slt13 (rt ra rb : RegNum)   -- SLT at function 13
  | mulu  (rt ra rb : RegNum)
  | divu  (rt ra rb : RegNum)
  | nand  (rt ra rb : RegNum)
  | nor   (rt ra rb : RegNum)
  | enor  (rt ra rb : RegNum)
  | orn   (rt ra rb : RegNum)
  | mulh  (rt ra rb : RegNum)
  | mod   (rt ra rb : RegNum)
  | seq   (rt ra rb : RegNum)
  | sne   (rt ra rb : RegNum)
  | slt   (rt ra rb : RegNum)   -- SLT at function 26
  | sle   (rt ra rb : RegNum)
  | sltu  (rt ra rb : RegNum)
  | sleu  (rt ra rb : RegNum)
  | muluh (rt ra rb : RegNum)
  | modu  (rt ra rb : RegNum)
  -- named and refused, {R2} functions 1 and 2 (R163, R162): `rest` is bits 25 to 6
  | r1    (rest : BitVec 20)
  | addpc (rest : BitVec 20)
  -- Format SH (R84): `f` is the fill bit
  | asl   (rt ra rb : RegNum) (f : Bool)
  | asli  (rt ra : RegNum) (count : BitVec 5) (f : Bool)
  | lsr   (rt ra rb : RegNum)
  | lsri  (rt ra : RegNum) (count : BitVec 5)
  | rol   (rt ra rb : RegNum)
  | roli  (rt ra : RegNum) (count : BitVec 5)
  | ror   (rt ra rb : RegNum)
  | rori  (rt ra : RegNum) (count : BitVec 5)
  | asr   (rt ra rb : RegNum)
  | asri  (rt ra : RegNum) (count : BitVec 5)
  -- Format BR (R85)
  | beq   (ra rb : RegNum) (disp : BitVec 16)
  | bne   (ra rb : RegNum) (disp : BitVec 16)
  | blt   (ra rb : RegNum) (disp : BitVec 16)
  | ble   (ra rb : RegNum) (disp : BitVec 16)
  | bltu  (ra rb : RegNum) (disp : BitVec 16)
  | bleu  (ra rb : RegNum) (disp : BitVec 16)
  -- named and refused, opcodes 30 and 31 (R86, R230, R231)
  | bccr  (ra rb rc : RegNum) (cond : BitVec 3) (disp : BitVec 8)
  | bbs   (rest : BitVec 26)
  -- Formats J and RTD (R87, R88): `lr` is the 2-bit link register field
  | bra   (disp : BitVec 24)
  | call  (lr : BitVec 2) (disp : BitVec 24)
  | rtd   (lr : BitVec 2) (offs : BitVec 8) (imm : BitVec 16)
  -- named and refused, opcode 16 (R306)
  | eret  (rest : BitVec 26)
  -- the {SYS} group (R89)
  | brk
  | irq    (lvl : Level) (num : BitVec 9)
  | sys    (num : BitVec 9)
  | rts    (offs : BitVec 8)
  | rts2up (offs : BitVec 8)
  | rti    (offs : BitVec 8)
  -- Format M8 (R90), 24 bits: register, base, 8-bit displacement
  | ldb   (rt ra : RegNum) (disp : BitVec 8)
  | ldbu  (rt ra : RegNum) (disp : BitVec 8)
  | ldw   (rt ra : RegNum) (disp : BitVec 8)
  | ldwu  (rt ra : RegNum) (disp : BitVec 8)
  | ldt   (rt ra : RegNum) (disp : BitVec 8)
  -- named and refused, opcodes 38 and 39 (R276, R278): `rest` is bits 23 to 6
  | lda   (rest : BitVec 18)
  | cache (rest : BitVec 18)
  -- Format MX (R91), 24 bits: register, base, index, scale
  | ldbx  (rt ra rb : RegNum) (sc : BitVec 2)
  | ldbux (rt ra rb : RegNum) (sc : BitVec 2)
  | ldwx  (rt ra rb : RegNum) (sc : BitVec 2)
  | ldwux (rt ra rb : RegNum) (sc : BitVec 2)
  | ldtx  (rt ra rb : RegNum) (sc : BitVec 2)
  -- named and refused, opcodes 46 and 47 (R277, R279)
  | ldax   (rest : BitVec 18)
  | cachex (rest : BitVec 18)
  -- stores: `rs` is the register stored
  | stb   (rs ra : RegNum) (disp : BitVec 8)
  | stw   (rs ra : RegNum) (disp : BitVec 8)
  | stt   (rs ra : RegNum) (disp : BitVec 8)
  | stbx  (rs ra rb : RegNum) (sc : BitVec 2)
  | stwx  (rs ra rb : RegNum) (sc : BitVec 2)
  | sttx  (rs ra rb : RegNum) (sc : BitVec 2)
  deriving DecidableEq, Repr

end Sys2Proof
end

