-- ==== Sys2Proof/WellFormed.lean ====
section
/-! DEFINITION. Which terms of `Instr` are instructions. Every field has exactly the width of its format,
so the only checks are the two on the link register field: a CALL or an RTD names link register 1, 2 or
3 (R87: Lr = 0 is BRA; R98, R224: RTD with Lr = 0 is reserved). -/

namespace Sys2Proof

/-- The checks on an instruction, every constructor named. -/
def Instr.wellFormed : Instr → Bool
  | .call lr _ => lr != 0
  | .rtd lr _ _ => lr != 0
  | .addi _ _ _ | .addis _ _ _ | .andi _ _ _ | .andis _ _ _ | .apcis _ _ | .jal _ _ _
  | .cmpi _ _ _ | .muli _ _ _ | .divi _ _ _ | .ori _ _ _ | .eori _ _ _ | .subfi _ _ _
  | .slti _ _ _ | .mului _ _ _ | .divui _ _ _ | .oris _ _ _ | .eoris _ _ _ | .add _ _ _
  | .cmp _ _ _ | .and _ _ _ | .or _ _ _ | .mul _ _ _ | .div _ _ _ | .eor _ _ _ | .andn _ _ _
  | .sub _ _ _ | .slt13 _ _ _ | .mulu _ _ _ | .divu _ _ _ | .nand _ _ _ | .nor _ _ _
  | .enor _ _ _ | .orn _ _ _ | .mulh _ _ _ | .mod _ _ _ | .seq _ _ _ | .sne _ _ _ | .slt _ _ _
  | .sle _ _ _ | .sltu _ _ _ | .sleu _ _ _ | .muluh _ _ _ | .modu _ _ _ | .r1 _ | .addpc _
  | .asl _ _ _ _ | .asli _ _ _ _ | .lsr _ _ _ | .lsri _ _ _ | .rol _ _ _ | .roli _ _ _
  | .ror _ _ _ | .rori _ _ _ | .asr _ _ _ | .asri _ _ _ | .beq _ _ _ | .bne _ _ _ | .blt _ _ _
  | .ble _ _ _ | .bltu _ _ _ | .bleu _ _ _ | .bccr _ _ _ _ _ | .bbs _ | .bra _ | .eret _ | .brk
  | .irq _ _ | .sys _ | .rts _ | .rts2up _ | .rti _ | .ldb _ _ _ | .ldbu _ _ _ | .ldw _ _ _
  | .ldwu _ _ _ | .ldt _ _ _ | .lda _ | .cache _ | .ldbx _ _ _ _ | .ldbux _ _ _ _ | .ldwx _ _ _ _
  | .ldwux _ _ _ _ | .ldtx _ _ _ _ | .ldax _ | .cachex _ | .stb _ _ _ | .stw _ _ _ | .stt _ _ _
  | .stbx _ _ _ _ | .stwx _ _ _ _ | .sttx _ _ _ _ => true

end Sys2Proof
end

