-- ==== Sys2Proof/Decode.lean ====
section
/-! DEFINITION. Decoding and encoding (`30_encoding.md`). The fields of a word are taken out here and
nowhere else. `decode` is total on any bytes and rejects by name; `encode` writes the bytes of an
instruction from the same formats. -/

namespace Sys2Proof

/-- Why bytes are no instruction: the reserved encodings of R98, by the bullet they fall under. -/
inductive DecodeError where
  /-- Fewer bytes than the instruction's length. -/
  | truncated
  /-- A major opcode that the map of R92 leaves blank. -/
  | blankMajor (op : BitVec 6)
  /-- A {SYS} function that the map of R93 leaves blank or does not show. -/
  | blankSysFunction (func : BitVec 6)
  /-- An {R2} function that the map of R94 leaves blank. -/
  | blankR2Function (func : BitVec 6)
  /-- A one in a field that R97 says must be zero (drawn `~`). -/
  | unusedFieldSet
  /-- RTS with Dep 0 or 3. -/
  | reservedDepth
  /-- RTI with bits 7..6 not 0. -/
  | reservedRtiField
  /-- A shift with function 33 to 36 and F = 1 (D16). -/
  | reservedFill
  /-- RTD with Lr = 0 (D19). -/
  | noLinkRegister
  deriving DecidableEq, Repr

/-! ## Fields of a word -/

/-- `field w lo n` is `w[lo+n-1 : lo]` (R3). -/
def field {k : Nat} (w : BitVec k) (lo n : Nat) : BitVec n := w.extractLsb' lo n

/-- The accepting answer when the fields that must be zero are zero, else the named rejection. -/
def acceptIf (ok : Bool) (e : DecodeError) (i : Instr) : Except DecodeError Instr :=
  if ok then .ok i else .error e

/-! ## Lengths (R81) -/

/-- The length in bytes of an instruction with major opcode `op`. -/
def ilen (op : BitVec 6) : Nat := if 32 ≤ op.toNat ∧ op.toNat ≤ 55 then 3 else 4

/-- The major opcode: bits 5..0 of the first byte. -/
def opcodeOf (b0 : Byte) : BitVec 6 := field b0 0 6

/-! ## 32-bit words -/

/-- The {SYS} group, major opcode 0 (R89, R93). -/
def decodeSys (w : BitVec 32) : Except DecodeError Instr :=
  match field w 26 6 with
  | 0 => acceptIf (field w 6 20 == 0) .unusedFieldSet .brk
  | 1 => acceptIf (field w 25 1 == 0 && field w 9 7 == 0) .unusedFieldSet
           (.irq (field w 6 3) (field w 16 9))
  | 2 => acceptIf (field w 25 1 == 0 && field w 6 10 == 0) .unusedFieldSet
           (.sys (field w 16 9))
  | 3 =>
    match field w 6 2 with
    | 1 => acceptIf (field w 16 10 == 0) .unusedFieldSet (.rts (field w 8 8))
    | 2 => acceptIf (field w 16 10 == 0) .unusedFieldSet (.rts2up (field w 8 8))
    | _ => .error .reservedDepth
  | 4 =>
    if field w 6 2 == 0 then acceptIf (field w 16 10 == 0) .unusedFieldSet (.rti (field w 8 8))
    else .error .reservedRtiField
  | f => .error (.blankSysFunction f)

/-- Format R2 (R83): bits 25..21 zero. -/
def decodeR2Form (w : BitVec 32) (mk : RegNum → RegNum → RegNum → Instr) :
    Except DecodeError Instr :=
  acceptIf (field w 21 5 == 0) .unusedFieldSet (mk (field w 6 5) (field w 11 5) (field w 16 5))

/-- Format SH (R84) without a fill bit (functions 33 to 36): F and bits 23..21 zero; bit 24 selects the
register form or the immediate form. -/
def decodeShift (w : BitVec 32) (reg : RegNum → RegNum → RegNum → Instr)
    (immf : RegNum → RegNum → BitVec 5 → Instr) : Except DecodeError Instr :=
  if field w 25 1 == 0 then
    acceptIf (field w 21 3 == 0) .unusedFieldSet
      (if field w 24 1 == 0 then reg (field w 6 5) (field w 11 5) (field w 16 5)
       else immf (field w 6 5) (field w 11 5) (field w 16 5))
  else .error .reservedFill

/-- ASL and ASLI (R84, R200, R201): F is bit 25, bits 23..21 zero. -/
def decodeAsl (w : BitVec 32) : Except DecodeError Instr :=
  acceptIf (field w 21 3 == 0) .unusedFieldSet
    (if field w 24 1 == 0 then .asl (field w 6 5) (field w 11 5) (field w 16 5) (field w 25 1 == 1)
     else .asli (field w 6 5) (field w 11 5) (field w 16 5) (field w 25 1 == 1))

/-- The {R2} map, major opcode 2 (R94). -/
def decodeR2 (w : BitVec 32) : Except DecodeError Instr :=
  match field w 26 6 with
  | 1 => .ok (.r1 (field w 6 20))
  | 2 => .ok (.addpc (field w 6 20))
  | 4 => decodeR2Form w .add
  | 5 => decodeR2Form w .cmp
  | 6 => decodeR2Form w .mul
  | 7 => decodeR2Form w .div
  | 8 => decodeR2Form w .and
  | 9 => decodeR2Form w .or
  | 10 => decodeR2Form w .eor
  | 11 => decodeR2Form w .andn
  | 12 => decodeR2Form w .sub
  | 13 => decodeR2Form w .slt13
  | 14 => decodeR2Form w .mulu
  | 15 => decodeR2Form w .divu
  | 16 => decodeR2Form w .nand
  | 17 => decodeR2Form w .nor
  | 18 => decodeR2Form w .enor
  | 19 => decodeR2Form w .orn
  | 22 => decodeR2Form w .mulh
  | 23 => decodeR2Form w .mod
  | 24 => decodeR2Form w .seq
  | 25 => decodeR2Form w .sne
  | 26 => decodeR2Form w .slt
  | 27 => decodeR2Form w .sle
  | 28 => decodeR2Form w .sltu
  | 29 => decodeR2Form w .sleu
  | 30 => decodeR2Form w .muluh
  | 31 => decodeR2Form w .modu
  | 32 => decodeAsl w
  | 33 => decodeShift w .lsr .lsri
  | 34 => decodeShift w .rol .roli
  | 35 => decodeShift w .ror .rori
  | 36 => decodeShift w .asr .asri
  | f => .error (.blankR2Function f)

/-- Format RI (R82). -/
def decodeRI (w : BitVec 32) (mk : RegNum → RegNum → BitVec 16 → Instr) :
    Except DecodeError Instr :=
  .ok (mk (field w 6 5) (field w 11 5) (field w 16 16))

/-- Format BR (R85): Ra in bits 10..6, Rb in bits 15..11. -/
def decodeBR (w : BitVec 32) (mk : RegNum → RegNum → BitVec 16 → Instr) :
    Except DecodeError Instr :=
  .ok (mk (field w 6 5) (field w 11 5) (field w 16 16))

/-- The major opcodes of 32-bit instructions (R92). -/
def decode32 (w : BitVec 32) : Except DecodeError Instr :=
  match field w 0 6 with
  | 0 => decodeSys w
  | 1 => acceptIf (field w 11 5 == 0) .unusedFieldSet (.apcis (field w 6 5) (field w 16 16))
  | 2 => decodeR2 w
  | 3 => decodeRI w .addis
  | 4 => decodeRI w .addi
  | 5 => decodeRI w .cmpi
  | 6 => decodeRI w .muli
  | 7 => decodeRI w .divi
  | 8 => decodeRI w .andi
  | 9 => decodeRI w .ori
  | 10 => decodeRI w .eori
  | 11 => decodeRI w .andis
  | 12 => decodeRI w .subfi
  | 13 => decodeRI w .slti
  | 14 => decodeRI w .mului
  | 15 => decodeRI w .divui
  | 16 => .ok (.eret (field w 6 26))
  | 17 => if field w 6 2 == 0 then .error .noLinkRegister
          else .ok (.rtd (field w 6 2) (field w 8 8) (field w 16 16))
  | 18 => .ok (if field w 6 2 == 0 then .bra (field w 8 24)
               else .call (field w 6 2) (field w 8 24))
  | 19 => decodeRI w .jal
  | 20 => decodeRI w .oris
  | 21 => decodeRI w .eoris
  | 24 => decodeBR w .beq
  | 25 => decodeBR w .bne
  | 26 => decodeBR w .blt
  | 27 => decodeBR w .ble
  | 28 => decodeBR w .bltu
  | 29 => decodeBR w .bleu
  | 30 => .ok (.bccr (field w 6 5) (field w 11 5) (field w 16 5) (field w 21 3) (field w 24 8))
  | 31 => .ok (.bbs (field w 6 26))
  | op => .error (.blankMajor op)

/-! ## 24-bit words -/

/-- Format M8 (R90). -/
def decodeM8 (w : BitVec 24) (mk : RegNum → RegNum → BitVec 8 → Instr) :
    Except DecodeError Instr :=
  .ok (mk (field w 6 5) (field w 11 5) (field w 16 8))

/-- Format MX (R91): bit 23 zero. -/
def decodeMX (w : BitVec 24) (mk : RegNum → RegNum → RegNum → BitVec 2 → Instr) :
    Except DecodeError Instr :=
  acceptIf (field w 23 1 == 0) .unusedFieldSet
    (mk (field w 6 5) (field w 11 5) (field w 16 5) (field w 21 2))

/-- The major opcodes of 24-bit instructions (R92). -/
def decode24 (w : BitVec 24) : Except DecodeError Instr :=
  match field w 0 6 with
  | 32 => decodeM8 w .ldb
  | 33 => decodeM8 w .ldbu
  | 34 => decodeM8 w .ldw
  | 35 => decodeM8 w .ldwu
  | 36 => decodeM8 w .ldt
  | 38 => .ok (.lda (field w 6 18))
  | 39 => .ok (.cache (field w 6 18))
  | 40 => decodeMX w .ldbx
  | 41 => decodeMX w .ldbux
  | 42 => decodeMX w .ldwx
  | 43 => decodeMX w .ldwux
  | 44 => decodeMX w .ldtx
  | 46 => .ok (.ldax (field w 6 18))
  | 47 => .ok (.cachex (field w 6 18))
  | 48 => decodeM8 w .stb
  | 49 => decodeM8 w .stw
  | 50 => decodeM8 w .stt
  | 52 => decodeMX w .stbx
  | 53 => decodeMX w .stwx
  | 54 => decodeMX w .sttx
  | op => .error (.blankMajor op)

/-! ## Bytes -/

/-- The instruction at the head of the bytes and the bytes after it (R101: the length comes from the
first byte, the word is assembled little-endian). -/
def decode : List Byte → Except DecodeError (Instr × List Byte)
  | [] => .error .truncated
  | b0 :: rest =>
    if ilen (opcodeOf b0) = 3 then
      match rest with
      | b1 :: b2 :: more => (decode24 (b2 ++ b1 ++ b0)).map fun i => (i, more)
      | _ => .error .truncated
    else
      match rest with
      | b1 :: b2 :: b3 :: more => (decode32 (b3 ++ b2 ++ b1 ++ b0)).map fun i => (i, more)
      | _ => .error .truncated

/-! ## Encoding: the formats of R82 to R91, most significant field first -/

/-- Format RI (R82). -/
def wordRI (imm : BitVec 16) (ra rt : RegNum) (op : BitVec 6) : BitVec 32 := imm ++ ra ++ rt ++ op

/-- Format R2 (R83). -/
def wordR2 (func : BitVec 6) (rb ra rt : RegNum) : BitVec 32 :=
  func ++ 0#5 ++ rb ++ ra ++ rt ++ 2#6

/-- Format SH (R84): `sel` is the I bit, `n` is Rb or Imm5. -/
def wordSH (func : BitVec 6) (f : Bool) (sel : BitVec 1) (n : BitVec 5) (ra rt : RegNum) :
    BitVec 32 :=
  func ++ BitVec.ofBool f ++ sel ++ 0#3 ++ n ++ ra ++ rt ++ 2#6

/-- Format BR (R85). -/
def wordBR (disp : BitVec 16) (rb ra : RegNum) (op : BitVec 6) : BitVec 32 :=
  disp ++ rb ++ ra ++ op

/-- Format J (R87). -/
def wordJ (disp : BitVec 24) (lr : BitVec 2) : BitVec 32 := disp ++ lr ++ 18#6

/-- Format RTD (R88). -/
def wordRTD (imm : BitVec 16) (offs : BitVec 8) (lr : BitVec 2) : BitVec 32 :=
  imm ++ offs ++ lr ++ 17#6

/-- RTS and RTI (R89): `dep` is bits 7..6. -/
def wordRet (func : BitVec 6) (offs : BitVec 8) (dep : BitVec 2) : BitVec 32 :=
  func ++ 0#10 ++ offs ++ dep ++ 0#6

/-- Format M8 (R90). -/
def wordM8 (disp : BitVec 8) (ra rt : RegNum) (op : BitVec 6) : BitVec 24 := disp ++ ra ++ rt ++ op

/-- Format MX (R91). -/
def wordMX (sc : BitVec 2) (rb ra rt : RegNum) (op : BitVec 6) : BitVec 24 :=
  0#1 ++ sc ++ rb ++ ra ++ rt ++ op

/-- Format BRR (R86), which only the refused BccR uses. -/
def wordBRR (disp : BitVec 8) (cond : BitVec 3) (rc rb ra : RegNum) : BitVec 32 :=
  disp ++ cond ++ rc ++ rb ++ ra ++ 30#6

/-- IRQ (R89). -/
def wordIRQ (num : BitVec 9) (lvl : Level) : BitVec 32 := 1#6 ++ 0#1 ++ num ++ 0#7 ++ lvl ++ 0#6

/-- SYS (R89). -/
def wordSYS (num : BitVec 9) : BitVec 32 := 2#6 ++ 0#1 ++ num ++ 0#10 ++ 0#6

/-- A refused {R2} function, its other bits as they are. -/
def wordFunc (func : BitVec 6) (rest : BitVec 20) : BitVec 32 := func ++ rest ++ 2#6

/-- A refused 32-bit opcode, its other bits as they are. -/
def wordOp32 (rest : BitVec 26) (op : BitVec 6) : BitVec 32 := rest ++ op

/-- A refused 24-bit opcode, its other bits as they are. -/
def wordOp24 (rest : BitVec 18) (op : BitVec 6) : BitVec 24 := rest ++ op

/-- The four bytes of a 32-bit word, lowest address first (R51). -/
def bytes32 (w : BitVec 32) : List Byte := [field w 0 8, field w 8 8, field w 16 8, field w 24 8]

/-- The three bytes of a 24-bit word, lowest address first. -/
def bytes24 (w : BitVec 24) : List Byte := [field w 0 8, field w 8 8, field w 16 8]

/-- The bytes of an instruction, lowest address first. -/
def encode : Instr → List Byte
  | .addi rt ra imm => bytes32 (wordRI imm ra rt 4)
  | .addis rt ra imm => bytes32 (wordRI imm ra rt 3)
  | .andi rt ra imm => bytes32 (wordRI imm ra rt 8)
  | .andis rt ra imm => bytes32 (wordRI imm ra rt 11)
  | .apcis rt imm => bytes32 (wordRI imm 0 rt 1)
  | .jal rt ra imm => bytes32 (wordRI imm ra rt 19)
  | .cmpi rt ra imm => bytes32 (wordRI imm ra rt 5)
  | .muli rt ra imm => bytes32 (wordRI imm ra rt 6)
  | .divi rt ra imm => bytes32 (wordRI imm ra rt 7)
  | .ori rt ra imm => bytes32 (wordRI imm ra rt 9)
  | .eori rt ra imm => bytes32 (wordRI imm ra rt 10)
  | .subfi rt ra imm => bytes32 (wordRI imm ra rt 12)
  | .slti rt ra imm => bytes32 (wordRI imm ra rt 13)
  | .mului rt ra imm => bytes32 (wordRI imm ra rt 14)
  | .divui rt ra imm => bytes32 (wordRI imm ra rt 15)
  | .oris rt ra imm => bytes32 (wordRI imm ra rt 20)
  | .eoris rt ra imm => bytes32 (wordRI imm ra rt 21)
  | .add rt ra rb => bytes32 (wordR2 4 rb ra rt)
  | .cmp rt ra rb => bytes32 (wordR2 5 rb ra rt)
  | .and rt ra rb => bytes32 (wordR2 8 rb ra rt)
  | .or rt ra rb => bytes32 (wordR2 9 rb ra rt)
  | .mul rt ra rb => bytes32 (wordR2 6 rb ra rt)
  | .div rt ra rb => bytes32 (wordR2 7 rb ra rt)
  | .eor rt ra rb => bytes32 (wordR2 10 rb ra rt)
  | .andn rt ra rb => bytes32 (wordR2 11 rb ra rt)
  | .sub rt ra rb => bytes32 (wordR2 12 rb ra rt)
  | .slt13 rt ra rb => bytes32 (wordR2 13 rb ra rt)
  | .mulu rt ra rb => bytes32 (wordR2 14 rb ra rt)
  | .divu rt ra rb => bytes32 (wordR2 15 rb ra rt)
  | .nand rt ra rb => bytes32 (wordR2 16 rb ra rt)
  | .nor rt ra rb => bytes32 (wordR2 17 rb ra rt)
  | .enor rt ra rb => bytes32 (wordR2 18 rb ra rt)
  | .orn rt ra rb => bytes32 (wordR2 19 rb ra rt)
  | .mulh rt ra rb => bytes32 (wordR2 22 rb ra rt)
  | .mod rt ra rb => bytes32 (wordR2 23 rb ra rt)
  | .seq rt ra rb => bytes32 (wordR2 24 rb ra rt)
  | .sne rt ra rb => bytes32 (wordR2 25 rb ra rt)
  | .slt rt ra rb => bytes32 (wordR2 26 rb ra rt)
  | .sle rt ra rb => bytes32 (wordR2 27 rb ra rt)
  | .sltu rt ra rb => bytes32 (wordR2 28 rb ra rt)
  | .sleu rt ra rb => bytes32 (wordR2 29 rb ra rt)
  | .muluh rt ra rb => bytes32 (wordR2 30 rb ra rt)
  | .modu rt ra rb => bytes32 (wordR2 31 rb ra rt)
  | .r1 rest => bytes32 (wordFunc 1 rest)
  | .addpc rest => bytes32 (wordFunc 2 rest)
  | .asl rt ra rb f => bytes32 (wordSH 32 f 0 rb ra rt)
  | .asli rt ra count f => bytes32 (wordSH 32 f 1 count ra rt)
  | .lsr rt ra rb => bytes32 (wordSH 33 false 0 rb ra rt)
  | .lsri rt ra count => bytes32 (wordSH 33 false 1 count ra rt)
  | .rol rt ra rb => bytes32 (wordSH 34 false 0 rb ra rt)
  | .roli rt ra count => bytes32 (wordSH 34 false 1 count ra rt)
  | .ror rt ra rb => bytes32 (wordSH 35 false 0 rb ra rt)
  | .rori rt ra count => bytes32 (wordSH 35 false 1 count ra rt)
  | .asr rt ra rb => bytes32 (wordSH 36 false 0 rb ra rt)
  | .asri rt ra count => bytes32 (wordSH 36 false 1 count ra rt)
  | .beq ra rb disp => bytes32 (wordBR disp rb ra 24)
  | .bne ra rb disp => bytes32 (wordBR disp rb ra 25)
  | .blt ra rb disp => bytes32 (wordBR disp rb ra 26)
  | .ble ra rb disp => bytes32 (wordBR disp rb ra 27)
  | .bltu ra rb disp => bytes32 (wordBR disp rb ra 28)
  | .bleu ra rb disp => bytes32 (wordBR disp rb ra 29)
  | .bccr ra rb rc cond disp => bytes32 (wordBRR disp cond rc rb ra)
  | .bbs rest => bytes32 (wordOp32 rest 31)
  | .bra disp => bytes32 (wordJ disp 0)
  | .call lr disp => bytes32 (wordJ disp lr)
  | .rtd lr offs imm => bytes32 (wordRTD imm offs lr)
  | .eret rest => bytes32 (wordOp32 rest 16)
  | .brk => bytes32 0
  | .irq lvl num => bytes32 (wordIRQ num lvl)
  | .sys num => bytes32 (wordSYS num)
  | .rts offs => bytes32 (wordRet 3 offs 1)
  | .rts2up offs => bytes32 (wordRet 3 offs 2)
  | .rti offs => bytes32 (wordRet 4 offs 0)
  | .ldb rt ra disp => bytes24 (wordM8 disp ra rt 32)
  | .ldbu rt ra disp => bytes24 (wordM8 disp ra rt 33)
  | .ldw rt ra disp => bytes24 (wordM8 disp ra rt 34)
  | .ldwu rt ra disp => bytes24 (wordM8 disp ra rt 35)
  | .ldt rt ra disp => bytes24 (wordM8 disp ra rt 36)
  | .lda rest => bytes24 (wordOp24 rest 38)
  | .cache rest => bytes24 (wordOp24 rest 39)
  | .ldbx rt ra rb sc => bytes24 (wordMX sc rb ra rt 40)
  | .ldbux rt ra rb sc => bytes24 (wordMX sc rb ra rt 41)
  | .ldwx rt ra rb sc => bytes24 (wordMX sc rb ra rt 42)
  | .ldwux rt ra rb sc => bytes24 (wordMX sc rb ra rt 43)
  | .ldtx rt ra rb sc => bytes24 (wordMX sc rb ra rt 44)
  | .ldax rest => bytes24 (wordOp24 rest 46)
  | .cachex rest => bytes24 (wordOp24 rest 47)
  | .stb rs ra disp => bytes24 (wordM8 disp ra rs 48)
  | .stw rs ra disp => bytes24 (wordM8 disp ra rs 49)
  | .stt rs ra disp => bytes24 (wordM8 disp ra rs 50)
  | .stbx rs ra rb sc => bytes24 (wordMX sc rb ra rs 52)
  | .stwx rs ra rb sc => bytes24 (wordMX sc rb ra rs 53)
  | .sttx rs ra rb sc => bytes24 (wordMX sc rb ra rs 54)

/-! ## The opcode table's words -/

/-- The bytes of an instruction whose bits are `w`, as the table numbers them: `nbits` of them, and zeros
up to the longest instruction, lowest address first. -/
def tableBytes (nbits w : Nat) : List Byte := bytes32 (BitVec.ofNat 32 (w % 2 ^ nbits))

/-- The instruction that `decode` reads from a row's word. -/
def decodeTableWord (nbits w : Nat) : Option Instr :=
  match decode (tableBytes nbits w) with
  | .ok (i, _) => some i
  | .error _ => none

end Sys2Proof
end

