-- ==== Sys2Proof/Machine/State.lean ====
section
/-! DEFINITION. The whole state of the machine (the table that opens `10_state.md`), the reasons a step
stops, and the state after reset (R370). State is plain data. -/

namespace Sys2Proof.Machine

/-- One entry of the internal exception stack (R31): the address of the instruction that trapped or was
interrupted, and the interrupt level before the trap. -/
structure EsEntry where
  pc : Word
  il : Level
  deriving DecidableEq, Repr

/-- The bytes of memory (R34). Canonical form: addresses strictly rising, each a 32-bit address, and no
entry equal to what an unlisted address reads as (`Memory.wf` in `Machine/Ops.lean`). Which addresses
exist is the parameter MEM, not this list. -/
structure Memory where
  cells : List Host.Cell
  deriving DecidableEq, Repr

/-- The state of RFX32. -/
structure State where
  /-- The general registers x[0] .. x[31] (R20, R21). Read and written only by `readReg`, `writeReg`. -/
  x : Vector Word 32
  /-- Link register 1 (R25). -/
  lr1 : Word
  /-- Link register 2 (R25). -/
  lr2 : Word
  /-- Link register 3 (R25). -/
  lr3 : Word
  /-- The address of the instruction being executed (R27). -/
  pc : Word
  /-- IL, the interrupt level (R30). -/
  il : Level
  /-- ES, the internal exception stack, newest entry first (R31). -/
  es : List EsEntry
  /-- Memory (R34). -/
  mem : Memory
  /-- The addresses stored to since launch (R35), strictly rising. -/
  dirty : List Nat
  /-- The open parameters of R9, which no step writes (log entry 3). -/
  params : Params
  /-- EXT_IRQ: what the environment offers at this step and the ones after it; past the end of the list
  it offers nothing (R336, log entry 11). -/
  extIrq : List (Option ExtReq)
  deriving DecidableEq, Repr

/-- Why the machine stops by itself. -/
inductive Fault where
  /-- The pc is at END_PC: the state is final and the core does not fetch there (R374). Raised by `step`.
  Safe: hardware would go on fetching, so nothing is claimed of it past this point. -/
  | endOfRun
  deriving DecidableEq, Repr

/-- Why the model has no step: the spec's `refuse` (R5), each reason under its own name. Every one is
safe: nothing can be proved of an execution that reaches it. -/
inductive Refusal where
  /-- An instruction that has no meaning yet. Raised by an arm of `exec` only. Safe. -/
  | notModelled (mnemonic : String)
  /-- The bytes at the pc are a reserved encoding (R98). Raised by the fetch. Safe. -/
  | reservedEncoding (e : DecodeError)
  /-- A 2-byte access at an odd address or a 4-byte access not at a multiple of 4 (R52). Raised by
  loads and stores. Safe. -/
  | misaligned
  /-- The bytes of an access or of an instruction would pass 0xFFFFFFFF (R66). Raised by the fetch,
  loads and stores. Safe. -/
  | pastEndOfSpace
  /-- An address outside MEM (R57). Raised by the fetch, loads and stores. Safe. -/
  | outsideMem
  /-- The fetch of a byte that a store has written (R64). Raised by the fetch. Safe. -/
  | fetchOfStoredByte
  /-- Division or remainder by zero (R141 to R144, D22). Raised by DIV, DIVU, MOD, MODU, DIVI, DIVUI.
  Safe. -/
  | divisionByZero
  /-- 0x80000000 divided by -1, signed (R141, R143, R153, D22). Raised by DIV, MOD, DIVI. Safe. -/
  | divisionOverflow
  /-- A return offset or RTD constant with its top bit set (R224, R339, D19). Raised by RTD, RTS, RTS2UP,
  RTI. Safe. -/
  | offsetSignUnknown
  /-- RTD with Lr = 0 (R224); no word decodes to one (R98). Raised by RTD. Safe. -/
  | noLinkRegister
  /-- An IRQ instruction whose level is not above IL (R301, D25). Raised by IRQ. Safe. -/
  | irqNotAboveLevel
  /-- A trap when ES holds ES_DEPTH entries (R333, R341). Raised by BRK, SYS, IRQ and an external
  interrupt. Safe. -/
  | exceptionStackFull
  /-- A return when ES holds too few entries (R339, R341). Raised by RTS, RTS2UP, RTI. Safe. -/
  | exceptionStackUnderflow
  /-- {R1}: D0 has no table for it (R163). Raised by R1. Safe. -/
  | r1GroupUnknown
  /-- ADDPC: operands and target not described (R162). Raised by ADDPC. Safe. -/
  | addpcUndescribed
  /-- BccR: the target is not settled (R230). Raised by BccR. Safe. -/
  | bccrTargetUnknown
  /-- BBS: no format and no description (R231). Raised by BBS. Safe. -/
  | bbsUndescribed
  /-- ERET: no format and no description (R306). Raised by ERET. Safe. -/
  | eretUndescribed
  /-- LDA: no format and no description (R276). Raised by LDA. Safe. -/
  | ldaUndescribed
  /-- LDAX: as LDA (R277). Raised by LDAX. Safe. -/
  | ldaxUndescribed
  /-- CACHE: no command list and no effect described (R278). Raised by CACHE. Safe. -/
  | cacheCommandUnknown
  /-- CACHEX: as CACHE (R279). Raised by CACHEX. Safe. -/
  | cachexCommandUnknown
  deriving DecidableEq, Repr

/-- What one instruction answers. -/
abbrev Answer := Host.Outcome State Fault Refusal

/-- The state after reset under given open parameters (R370): pc at RESET_PC, IL 0, ES empty, dirty
empty, memory with nothing listed. DESIGN CHOICE (log entries 1, 2, 12; unsafe): the spec leaves the
general and link registers and the launch memory unspecified, and the model gives them 0. -/
def State.resetWith (p : Params) : State where
  x := Vector.replicate 32 0
  lr1 := 0
  lr2 := 0
  lr3 := 0
  pc := p.resetPc
  il := 0
  es := []
  mem := ⟨[]⟩
  dirty := []
  params := p
  extIrq := []

/-- The machine right after reset, with the parameter values of log entries 4 to 11. -/
def State.reset : State := State.resetWith Config.launch

end Sys2Proof.Machine
end

