-- ==== Sys2Proof/Machine/Operands.lean ====
section
/-! DEFINITION. Operand forms: register access, the extensions of immediates (R5, R96), the shift count
(R210) and the addressing modes (R280). -/

namespace Sys2Proof.Machine

/-! ## Registers -/

/-- Whether register `i` is hard-wired to zero: it is register 0 and R0_ZERO holds (R22). -/
def hardZero (p : Params) (i : RegNum) : Bool := p.r0Zero && i == 0

/-- `x[i]` (R5, R22). -/
def readReg (s : State) (i : RegNum) : Word :=
  if hardZero s.params i then 0 else s.x[i.toNat]'i.isLt

/-- `x[i] <- v` (R5, R22). -/
def writeReg (i : RegNum) (v : Word) (s : State) : State :=
  if hardZero s.params i then s else { s with x := s.x.set i.toNat v i.isLt }

/-- `lr[k]` for k = 1, 2, 3; field value 0 names no link register (R25). -/
def readLink (s : State) (k : BitVec 2) : Option Word :=
  match k with
  | 1 => some s.lr1
  | 2 => some s.lr2
  | 3 => some s.lr3
  | _ => none

/-- `lr[k] <- v`; field value 0 names no link register (R25). -/
def writeLink (k : BitVec 2) (v : Word) (s : State) : State :=
  match k with
  | 1 => { s with lr1 := v }
  | 2 => { s with lr2 := v }
  | 3 => { s with lr3 := v }
  | _ => s

/-- `pc <- v`. -/
def setPc (v : Word) (s : State) : State := { s with pc := v }

/-! ## Immediates -/

/-- `sext_n`. -/
def sext {n : Nat} (v : BitVec n) : Word := v.signExtend 32

/-- `zext_n`. -/
def zext {n : Nat} (v : BitVec n) : Word := v.setWidth 32

/-- `oext_16`: padded with ones on the left (ANDI, R124). -/
def oext16 (v : BitVec 16) : Word := 0xFFFF0000#32 ||| zext v

/-- A 16-bit immediate shifted left by 16 (ADDIS, APCIS, ORIS, EORIS, R96). -/
def upper16 (v : BitVec 16) : Word := zext v <<< 16

/-- A 16-bit immediate shifted left by 16 and padded with ones on the right (ANDIS, R125). -/
def upperOnes16 (v : BitVec 16) : Word := upper16 v ||| 0x0000FFFF#32

/-! ## Shift counts and effective addresses -/

/-- The shift count of a register form: the low five bits of the register (R210). -/
def shiftCount (v : Word) : BitVec 5 := field v 0 5

/-- Displacement mode (R280). -/
def eaDisp (s : State) (ra : RegNum) (disp : BitVec 8) : Word := readReg s ra + sext disp

/-- Indexed mode (R280). -/
def eaIndexed (s : State) (ra rb : RegNum) (sc : BitVec 2) : Word :=
  readReg s ra + (readReg s rb <<< sc.toNat)

end Sys2Proof.Machine
end

