-- ==== Sys2Proof/Machine/Flags.lean ====
section
/-! DEFINITION. RFX32 has no flags register and no instruction writes a status bit as a side effect
(R32). What takes the place of flags are values written to a general register: the relation bits of CMP
(R128) and the 1 or 0 of the set instructions (R145 to R150, R157). -/

namespace Sys2Proof.Machine

/-- The fourteen relations of CMP's table, bit 0 first: EQ NE LT LE GE GT BC BS LTZ GTZ LO LS HS HI. The
bit tests look at bit `b[4:0]` of `a` (R128). -/
def cmpRelations (a b : Word) : List Bool :=
  [ a == b, a != b,
    decide (a.toInt < b.toInt), decide (a.toInt ≤ b.toInt),
    decide (a.toInt ≥ b.toInt), decide (a.toInt > b.toInt),
    !a.getLsbD (shiftCount b).toNat, a.getLsbD (shiftCount b).toNat,
    decide (a.toInt < 0), decide (a.toInt > 0),
    decide (a.toNat < b.toNat), decide (a.toNat ≤ b.toNat),
    decide (a.toNat ≥ b.toNat), decide (a.toNat > b.toNat) ]

/-- The word CMP writes: the relations in bits 0 to 13, zero above (R128). -/
def cmpBits (a b : Word) : Word := zext (BitVec.ofBoolListLE (cmpRelations a b))

/-- The value a set instruction writes: 1 when the relation holds, else 0 (R145). -/
def truth (c : Bool) : Word := if c then 1 else 0

end Sys2Proof.Machine
end

