-- ==== Sys2Proof/Machine/Ops.lean ====
section
/-! DEFINITION. The shared operations: bytes of memory, MemRead and MemWrite (R55, R56), the fetch of an
instruction (R101), taking a trap and returning from one (R333, R339), and the shapes of instruction
that many meanings share. -/

namespace Sys2Proof.Machine

/-! ## Memory as canonical data -/

/-- What an unlisted address reads as. DESIGN CHOICE (log entry 12; unsafe): the spec says memory holds
whatever the launch supplies (R370). -/
def blankByte : Byte := 0

/-- The byte the cells give address `a`. -/
def cellAt : List Host.Cell → Nat → Byte
  | [], _ => blankByte
  | (a', b) :: rest, a => if a = a' then b else cellAt rest a

/-- The cells with the byte at `a` made `b`; writing the byte an unlisted address reads as removes the
entry. -/
def setCell : List Host.Cell → Nat → Byte → List Host.Cell
  | [], a, b => if b = blankByte then [] else [(a, b)]
  | (a', b') :: rest, a, b =>
    if a < a' then (if b = blankByte then (a', b') :: rest else (a, b) :: (a', b') :: rest)
    else if a = a' then (if b = blankByte then rest else (a, b) :: rest)
    else (a', b') :: setCell rest a b

/-- `mem[a]`. -/
def Memory.byteAt (m : Memory) (a : Nat) : Byte := cellAt m.cells a

/-- `mem[a] <- b`. -/
def Memory.setByte (m : Memory) (a : Nat) (b : Byte) : Memory := ⟨setCell m.cells a b⟩

/-- Cells in canonical form, all addresses at least `lo`. -/
def cellsFrom : Nat → List Host.Cell → Bool
  | _, [] => true
  | lo, (a, b) :: rest =>
    decide (lo ≤ a) && decide (a < 4294967296) && b != blankByte && cellsFrom (a + 1) rest

/-- The canonical form: addresses strictly rising and below 2^32, no entry that reads as an unlisted
address does. -/
def Memory.wf (m : Memory) : Bool := cellsFrom 0 m.cells

/-- The set of addresses with `a` added, strictly rising. -/
def insertAddr : List Nat → Nat → List Nat
  | [], a => [a]
  | a' :: rest, a =>
    if a < a' then a :: a' :: rest else if a = a' then a' :: rest else a' :: insertAddr rest a

/-- Addresses strictly rising, all at least `lo` and below 2^32. -/
def addrsFrom : Nat → List Nat → Bool
  | _, [] => true
  | lo, a :: rest => decide (lo ≤ a) && decide (a < 4294967296) && addrsFrom (a + 1) rest

/-! ## MEM, alignment and the end of the space -/

/-- Whether address `a` exists: it is in MEM, a set of 32-bit addresses (R57). -/
def inMem (p : Params) (a : Nat) : Bool :=
  decide (a < 4294967296) && p.mem.any fun r => decide (r.base ≤ a) && decide (a < r.base + r.size)

/-- Whether every one of the `n` addresses from `a` on satisfies `f`. -/
def allFrom (f : Nat → Bool) : Nat → Nat → Bool
  | _, 0 => true
  | a, n + 1 => f a && allFrom f (a + 1) n

/-- The refusals that MemRead and MemWrite share, in the order of R55; `none` admits the access. -/
def accessRefusal (s : State) (a : Word) (n : Nat) : Option Refusal :=
  if a.toNat % n ≠ 0 then some .misaligned
  else if a.toNat + n > 4294967296 then some .pastEndOfSpace
  else if allFrom (inMem s.params) a.toNat n then none
  else some .outsideMem

/-! ## MemRead and MemWrite -/

/-- The little-endian value of bytes, lowest address first (R51): the byte at `a` is bits 7..0. -/
def joinBytes : List Byte → Word
  | [] => 0
  | b :: rest => (joinBytes rest <<< 8) ||| zext b

/-- The `n` bytes from address `a` on, lowest address first. -/
def bytesFrom (m : Memory) : Nat → Nat → List Byte
  | _, 0 => []
  | a, n + 1 => m.byteAt a :: bytesFrom m (a + 1) n

/-- `MemRead(a, n)`: the unsigned 8n-bit value, zero-extended to a word (R55). -/
def memRead (s : State) (a : Word) (n : Nat) : Except Refusal Word :=
  match accessRefusal s a n with
  | some r => .error r
  | none => .ok (joinBytes (bytesFrom s.mem a.toNat n))

/-- The low `n` bytes of `v`, lowest first: byte i is bits 8i+7 .. 8i (R56). -/
def bytesOf (v : Word) : Nat → List Byte
  | 0 => []
  | n + 1 => field v 0 8 :: bytesOf (v >>> 8) n

/-- Store bytes from address `a` on and mark each address dirty. -/
def storeBytes : List Byte → Nat → State → State
  | [], _, s => s
  | b :: rest, a, s =>
    storeBytes rest (a + 1) { s with mem := s.mem.setByte a b, dirty := insertAddr s.dirty a }

/-- `MemWrite(a, n, v)` (R56): the low 8n bits of `v`, little-endian. -/
def memWrite (a : Word) (n : Nat) (v : Word) (s : State) : Except Refusal State :=
  match accessRefusal s a n with
  | some r => .error r
  | none => .ok (storeBytes (bytesOf v n) a.toNat s)

/-! ## Fetch (R101) -/

/-- Why the fetch of `n` bytes at the pc is refused, in the order of R101; `none` admits it. -/
def fetchRefusal (s : State) (n : Nat) : Option Refusal :=
  if s.pc.toNat + n > 4294967296 then some .pastEndOfSpace
  else if !allFrom (inMem s.params) s.pc.toNat n then some .outsideMem
  else if allFrom (fun a => !s.dirty.contains a) s.pc.toNat n then none
  else some .fetchOfStoredByte

/-- The instruction at the pc: the first byte gives the length, then all its bytes are fetched and
decoded (R101). -/
def fetchInstr (s : State) : Except Refusal Instr :=
  match fetchRefusal s 1 with
  | some r => .error r
  | none =>
    let n := ilen (opcodeOf (s.mem.byteAt s.pc.toNat))
    match fetchRefusal s n with
    | some r => .error r
    | none =>
      match decode (bytesFrom s.mem s.pc.toNat n) with
      | .ok (i, _) => .ok i
      | .error e => .error (.reservedEncoding e)

/-! ## Taking a trap and returning from one -/

/-- VEC: the handler address of a trap kind (R334). -/
def handler (p : Params) (k : TrapKind) : Word :=
  match p.vec.find? fun e => e.1 == k with
  | some e => e.2
  | none => p.vecOther

/-- `TrapEnter(kind, newIL)` (R333): push the pc and IL, set IL, go to the handler. Refused when ES holds
ES_DEPTH entries (R341); nothing else changes. -/
def trapEnter (k : TrapKind) (newIl : Level) (s : State) : Answer :=
  if s.es.length < s.params.esDepth then
    .next { s with es := ⟨s.pc, s.il⟩ :: s.es, il := newIl, pc := handler s.params k }
  else .refused .exceptionStackFull

/-- Leave through the entry on top of `es`, with `off` added to its pc. -/
def popThrough (es : List EsEntry) (off : Word) (s : State) : Answer :=
  match es with
  | e :: rest => .next { s with es := rest, il := e.il, pc := e.pc + off }
  | [] => .refused .exceptionStackUnderflow

/-- `TrapReturn(depth, off)` (R339): all but the last of `depth` entries are popped and discarded, the
last is returned through. Refused when ES holds fewer than `depth` entries (R341). -/
def trapReturn (depth : Nat) (off : BitVec 8) (s : State) : Answer :=
  if off.toNat ≥ 0x80 then .refused .offsetSignUnknown
  else popThrough (s.es.drop (depth - 1)) (zext off) s

/-- The external interrupt of R336: the answer if the environment offers a request above IL at this step.
The pc pushed is that of the instruction not executed. -/
def externalTrap (s : State) : Option Answer :=
  match s.extIrq with
  | some q :: rest =>
    if s.il.toNat < q.lvl.toNat then
      some (trapEnter (.ext q.num q.lvl) q.lvl { s with extIrq := rest })
    else none
  | _ => none

/-- This step's offer is gone once the step has looked at it (R336: a request is an input of one step). -/
def dropOffer (s : State) : State := { s with extIrq := s.extIrq.tail }

/-! ## Placing an instruction at the pc -/

/-- Bytes put into memory from address `a` on, addresses past the end of the space left out. -/
def placeBytes : List Byte → Nat → Memory → Memory
  | [], _, m => m
  | b :: rest, a, m => placeBytes rest (a + 1) (if a < 4294967296 then m.setByte a b else m)

/-- Parameters under which `n` bytes at `pc` can be fetched: the addresses exist and END_PC is elsewhere. -/
def admitFetch (pc : Word) (n : Nat) (p : Params) : Params :=
  { p with
    mem := if allFrom (inMem p) pc.toNat n then p.mem else ⟨pc.toNat, n⟩ :: p.mem
    endPc := if p.endPc = pc then pc - 1 else p.endPc }

/-- The bytes at the pc, with the changes their fetch needs (log entry 13). -/
def placeAtPc (bs : List Byte) (s : State) : State :=
  { s with
    mem := placeBytes bs s.pc.toNat s.mem
    dirty := s.dirty.filter fun a => decide (a < s.pc.toNat) || decide (s.pc.toNat + bs.length ≤ a)
    params := admitFetch s.pc bs.length s.params
    extIrq := if (externalTrap s).isSome then s.extIrq.tail else s.extIrq }

/-! ## Shapes of instruction -/

/-- Go on to the next instruction, `n` bytes further (R28). -/
def advance (n : Word) (s : State) : State := setPc (s.pc + n) s

/-- Write a result and go on: the end of every 4-byte instruction with a target register. -/
def writeBack (rt : RegNum) (v : Word) (s : State) : Answer := .next (advance 4 (writeReg rt v s))

/-- Two register sources, one target. -/
def opRR (f : Word → Word → Word) (rt ra rb : RegNum) (s : State) : Answer :=
  writeBack rt (f (readReg s ra) (readReg s rb)) s

/-- A register and an extended immediate, one target. -/
def opRI (f : Word → Word → Word) (rt ra : RegNum) (b : Word) (s : State) : Answer :=
  writeBack rt (f (readReg s ra) b) s

/-- A division or remainder: refused where `bad` names a reason (D22). -/
def opDiv (bad : Word → Word → Option Refusal) (f : Word → Word → Word) (rt : RegNum) (a b : Word)
    (s : State) : Answer :=
  match bad a b with
  | some r => .refused r
  | none => writeBack rt (f a b) s

/-- A shift or rotate of Ra by a count. -/
def opShift (f : Word → Nat → Word) (rt ra : RegNum) (n : BitVec 5) (s : State) : Answer :=
  writeBack rt (f (readReg s ra) n.toNat) s

/-- A conditional branch: `disp` bytes from the branch itself when taken, else 4 (R233). -/
def branchIf (c : Word → Word → Bool) (ra rb : RegNum) (disp : BitVec 16) (s : State) : Answer :=
  if c (readReg s ra) (readReg s rb) then .next (setPc (s.pc + sext disp) s) else .next (advance 4 s)

/-- A load: read `n` bytes at `ea`, extend by `f`, write the target, go on 3 bytes. -/
def load (n : Nat) (f : Word → Word) (rt : RegNum) (ea : Word) (s : State) : Answer :=
  match memRead s ea n with
  | .error r => .refused r
  | .ok v => .next (advance 3 (writeReg rt (f v) s))

/-- A store: write the low `n` bytes of the register at `ea`, go on 3 bytes. -/
def store (n : Nat) (rs : RegNum) (ea : Word) (s : State) : Answer :=
  match memWrite ea n (readReg s rs) s with
  | .error r => .refused r
  | .ok s' => .next (advance 3 s')

end Sys2Proof.Machine
end

