-- ==== Sys2Proof/Machine/ArithLogic.lean ====
section
/-! DEFINITION. Arithmetic, logic and compare instructions (`40_arithmetic_logic.md`). Sources are read
before the target is written (R6); no flag is written and no exception raised (R129, R349). -/

namespace Sys2Proof.Machine

/-! ## The functions -/

/-- Why a signed division or remainder is refused (R141, R143, D22). -/
def sdivRefusal (a b : Word) : Option Refusal :=
  if b = 0 then some .divisionByZero
  else if a = 0x80000000 ∧ b = 0xFFFFFFFF then some .divisionOverflow
  else none

/-- Why an unsigned division or remainder is refused (R142, R144, D22). -/
def udivRefusal (_ b : Word) : Option Refusal := if b = 0 then some .divisionByZero else none

/-- The signed quotient rounded toward zero (R141). -/
def sdivide (a b : Word) : Word := BitVec.ofInt 32 (a.toInt.tdiv b.toInt)

/-- The signed remainder, with the sign of the dividend (R143). -/
def sremainder (a b : Word) : Word :=
  BitVec.ofInt 32 (a.toInt - a.toInt.tdiv b.toInt * b.toInt)

/-- The unsigned quotient (R142). -/
def udivide (a b : Word) : Word := BitVec.ofNat 32 (a.toNat / b.toNat)

/-- The unsigned remainder (R144). -/
def uremainder (a b : Word) : Word := BitVec.ofNat 32 (a.toNat % b.toNat)

/-- Bits 63..32 of the exact signed product (R139). -/
def smulHigh (a b : Word) : Word := BitVec.ofInt 32 (a.toInt * b.toInt / 4294967296)

/-- Bits 63..32 of the exact unsigned product (R140). -/
def umulHigh (a b : Word) : Word := BitVec.ofNat 32 (a.toNat * b.toNat / 4294967296)

/-- Bits 31..0 of the signed product (R137). -/
def smulLow (a b : Word) : Word := BitVec.ofInt 32 (a.toInt * b.toInt)

/-- Bits 31..0 of the unsigned product (R138). -/
def umulLow (a b : Word) : Word := BitVec.ofNat 32 (a.toNat * b.toNat)

/-! ## Format R2 -/

/-- ADD (R120). -/
def execAdd (rt ra rb : RegNum) (s : State) : Answer := opRR (fun a b => a + b) rt ra rb s

/-- CMP (R128). -/
def execCmp (rt ra rb : RegNum) (s : State) : Answer := opRR cmpBits rt ra rb s

/-- AND (R123). -/
def execAnd (rt ra rb : RegNum) (s : State) : Answer := opRR (fun a b => a &&& b) rt ra rb s

/-- OR (R127). -/
def execOr (rt ra rb : RegNum) (s : State) : Answer := opRR (fun a b => a ||| b) rt ra rb s

/-- SUB (R130). -/
def execSub (rt ra rb : RegNum) (s : State) : Answer := opRR (fun a b => a - b) rt ra rb s

/-- EOR (R131). -/
def execEor (rt ra rb : RegNum) (s : State) : Answer := opRR (fun a b => a ^^^ b) rt ra rb s

/-- ANDN (R132). -/
def execAndn (rt ra rb : RegNum) (s : State) : Answer := opRR (fun a b => a &&& ~~~b) rt ra rb s

/-- NAND (R133). -/
def execNand (rt ra rb : RegNum) (s : State) : Answer := opRR (fun a b => ~~~(a &&& b)) rt ra rb s

/-- NOR (R134). -/
def execNor (rt ra rb : RegNum) (s : State) : Answer := opRR (fun a b => ~~~(a ||| b)) rt ra rb s

/-- ENOR (R135). -/
def execEnor (rt ra rb : RegNum) (s : State) : Answer := opRR (fun a b => ~~~(a ^^^ b)) rt ra rb s

/-- ORN (R136). -/
def execOrn (rt ra rb : RegNum) (s : State) : Answer := opRR (fun a b => a ||| ~~~b) rt ra rb s

/-- MUL (R137). -/
def execMul (rt ra rb : RegNum) (s : State) : Answer := opRR smulLow rt ra rb s

/-- MULU (R138). -/
def execMulu (rt ra rb : RegNum) (s : State) : Answer := opRR umulLow rt ra rb s

/-- MULH (R139). -/
def execMulh (rt ra rb : RegNum) (s : State) : Answer := opRR smulHigh rt ra rb s

/-- MULUH (R140). -/
def execMuluh (rt ra rb : RegNum) (s : State) : Answer := opRR umulHigh rt ra rb s

/-- DIV (R141). -/
def execDiv (rt ra rb : RegNum) (s : State) : Answer :=
  opDiv sdivRefusal sdivide rt (readReg s ra) (readReg s rb) s

/-- DIVU (R142). -/
def execDivu (rt ra rb : RegNum) (s : State) : Answer :=
  opDiv udivRefusal udivide rt (readReg s ra) (readReg s rb) s

/-- MOD (R143). -/
def execMod (rt ra rb : RegNum) (s : State) : Answer :=
  opDiv sdivRefusal sremainder rt (readReg s ra) (readReg s rb) s

/-- MODU (R144). -/
def execModu (rt ra rb : RegNum) (s : State) : Answer :=
  opDiv udivRefusal uremainder rt (readReg s ra) (readReg s rb) s

/-- SLT at function 13 (R145, C4). -/
def execSlt13 (rt ra rb : RegNum) (s : State) : Answer :=
  opRR (fun a b => truth (decide (a.toInt < b.toInt))) rt ra rb s

/-- SLT at function 26 (R145, C4). -/
def execSlt (rt ra rb : RegNum) (s : State) : Answer :=
  opRR (fun a b => truth (decide (a.toInt < b.toInt))) rt ra rb s

/-- SEQ (R146). -/
def execSeq (rt ra rb : RegNum) (s : State) : Answer := opRR (fun a b => truth (a == b)) rt ra rb s

/-- SNE (R147). -/
def execSne (rt ra rb : RegNum) (s : State) : Answer := opRR (fun a b => truth (a != b)) rt ra rb s

/-- SLE (R148). -/
def execSle (rt ra rb : RegNum) (s : State) : Answer :=
  opRR (fun a b => truth (decide (a.toInt ≤ b.toInt))) rt ra rb s

/-- SLTU (R149). -/
def execSltu (rt ra rb : RegNum) (s : State) : Answer :=
  opRR (fun a b => truth (decide (a.toNat < b.toNat))) rt ra rb s

/-- SLEU (R150). -/
def execSleu (rt ra rb : RegNum) (s : State) : Answer :=
  opRR (fun a b => truth (decide (a.toNat ≤ b.toNat))) rt ra rb s

/-- {R1}: D0 has no table for the group, so no operation is known (R163). -/
def execR1 (_ : BitVec 20) (_ : State) : Answer := .refused .r1GroupUnknown

/-- ADDPC: neither its operands nor where the result goes is known (R162). -/
def execAddpc (_ : BitVec 20) (_ : State) : Answer := .refused .addpcUndescribed

/-! ## Format RI -/

/-- ADDI (R121). -/
def execAddi (rt ra : RegNum) (imm : BitVec 16) (s : State) : Answer :=
  opRI (fun a b => a + b) rt ra (sext imm) s

/-- ADDIS (R122). -/
def execAddis (rt ra : RegNum) (imm : BitVec 16) (s : State) : Answer :=
  opRI (fun a b => a + b) rt ra (upper16 imm) s

/-- ANDI (R124). -/
def execAndi (rt ra : RegNum) (imm : BitVec 16) (s : State) : Answer :=
  opRI (fun a b => a &&& b) rt ra (oext16 imm) s

/-- ANDIS (R125). -/
def execAndis (rt ra : RegNum) (imm : BitVec 16) (s : State) : Answer :=
  opRI (fun a b => a &&& b) rt ra (upperOnes16 imm) s

/-- APCIS: the pc added to is the instruction's own address (R126). -/
def execApcis (rt : RegNum) (imm : BitVec 16) (s : State) : Answer :=
  writeBack rt (s.pc + upper16 imm) s

/-- CMPI (R151). -/
def execCmpi (rt ra : RegNum) (imm : BitVec 16) (s : State) : Answer :=
  opRI cmpBits rt ra (sext imm) s

/-- MULI (R152). -/
def execMuli (rt ra : RegNum) (imm : BitVec 16) (s : State) : Answer :=
  opRI smulLow rt ra (sext imm) s

/-- DIVI (R153). -/
def execDivi (rt ra : RegNum) (imm : BitVec 16) (s : State) : Answer :=
  opDiv sdivRefusal sdivide rt (readReg s ra) (sext imm) s

/-- ORI (R154). -/
def execOri (rt ra : RegNum) (imm : BitVec 16) (s : State) : Answer :=
  opRI (fun a b => a ||| b) rt ra (zext imm) s

/-- EORI (R155). -/
def execEori (rt ra : RegNum) (imm : BitVec 16) (s : State) : Answer :=
  opRI (fun a b => a ^^^ b) rt ra (zext imm) s

/-- SUBFI: the immediate minus the register (R156). -/
def execSubfi (rt ra : RegNum) (imm : BitVec 16) (s : State) : Answer :=
  opRI (fun a b => b - a) rt ra (sext imm) s

/-- SLTI (R157). -/
def execSlti (rt ra : RegNum) (imm : BitVec 16) (s : State) : Answer :=
  opRI (fun a b => truth (decide (a.toInt < b.toInt))) rt ra (sext imm) s

/-- MULUI (R158). -/
def execMului (rt ra : RegNum) (imm : BitVec 16) (s : State) : Answer :=
  opRI umulLow rt ra (zext imm) s

/-- DIVUI (R159). -/
def execDivui (rt ra : RegNum) (imm : BitVec 16) (s : State) : Answer :=
  opDiv udivRefusal udivide rt (readReg s ra) (zext imm) s

/-- ORIS (R160). -/
def execOris (rt ra : RegNum) (imm : BitVec 16) (s : State) : Answer :=
  opRI (fun a b => a ||| b) rt ra (upper16 imm) s

/-- EORIS (R161). -/
def execEoris (rt ra : RegNum) (imm : BitVec 16) (s : State) : Answer :=
  opRI (fun a b => a ^^^ b) rt ra (upper16 imm) s

end Sys2Proof.Machine
end

