-- ==== Sys2Proof/Machine/Control.lean ====
section
/-! DEFINITION. Branch, call, jump and return instructions (`42_control_transfer.md`). Every pc used is the
instruction's own address (R27, R233); there is no delay slot (R235). -/

namespace Sys2Proof.Machine

/-- BEQ (R220). -/
def execBeq (ra rb : RegNum) (disp : BitVec 16) (s : State) : Answer :=
  branchIf (fun a b => a == b) ra rb disp s

/-- BNE (R225). -/
def execBne (ra rb : RegNum) (disp : BitVec 16) (s : State) : Answer :=
  branchIf (fun a b => a != b) ra rb disp s

/-- BLT (R226). -/
def execBlt (ra rb : RegNum) (disp : BitVec 16) (s : State) : Answer :=
  branchIf (fun a b => decide (a.toInt < b.toInt)) ra rb disp s

/-- BLE (R227). -/
def execBle (ra rb : RegNum) (disp : BitVec 16) (s : State) : Answer :=
  branchIf (fun a b => decide (a.toInt ≤ b.toInt)) ra rb disp s

/-- BLTU (R228). -/
def execBltu (ra rb : RegNum) (disp : BitVec 16) (s : State) : Answer :=
  branchIf (fun a b => decide (a.toNat < b.toNat)) ra rb disp s

/-- BLEU (R229). -/
def execBleu (ra rb : RegNum) (disp : BitVec 16) (s : State) : Answer :=
  branchIf (fun a b => decide (a.toNat ≤ b.toNat)) ra rb disp s

/-- BccR: the role of Rc and so the target is not settled (R230). -/
def execBccr (_ _ _ : RegNum) (_ : BitVec 3) (_ : BitVec 8) (_ : State) : Answer :=
  .refused .bccrTargetUnknown

/-- BBS: no format and no description (R231). -/
def execBbs (_ : BitVec 26) (_ : State) : Answer := .refused .bbsUndescribed

/-- BRA (R221). -/
def execBra (disp : BitVec 24) (s : State) : Answer := .next (setPc (s.pc + sext disp) s)

/-- CALL: the link register gets the address of the CALL itself (R222). A term with Lr = 0 is not
well-formed (it would be BRA) and writes no link register (log entry 24). -/
def execCall (lr : BitVec 2) (disp : BitVec 24) (s : State) : Answer :=
  .next (setPc (s.pc + sext disp) (writeLink lr s.pc s))

/-- JAL: the target comes from the old value of Ra, the target register gets the JAL's own address
(R223). -/
def execJal (rt ra : RegNum) (imm : BitVec 16) (s : State) : Answer :=
  .next (setPc (readReg s ra + sext imm) (writeReg rt s.pc s))

/-- RTD: return through link register Lr and add Imm16 to the SP (R224); the admitted offsets and
constants have their top bit clear (D19). -/
def execRtd (lr : BitVec 2) (offs : BitVec 8) (imm : BitVec 16) (s : State) : Answer :=
  match readLink s lr with
  | none => .refused .noLinkRegister
  | some v =>
    if offs.toNat ≥ 0x80 ∨ imm.toNat ≥ 0x8000 then .refused .offsetSignUnknown
    else
      .next (setPc (v + zext offs)
        (writeReg s.params.spReg (readReg s s.params.spReg + zext imm) s))

/-- ERET: no format and no description (R306). -/
def execEret (_ : BitVec 26) (_ : State) : Answer := .refused .eretUndescribed

end Sys2Proof.Machine
end

