-- ==== Sys2Proof/Machine/LoadStore.lean ====
section
/-! DEFINITION. Load, store and cache instructions (`43_load_store.md`), all 3 bytes long. An access that
the memory rules do not admit is refused (R52, R57, R66). -/

namespace Sys2Proof.Machine

/-! ## The extensions of R281 -/

/-- A loaded byte, sign-extended. -/
def sextByte (v : Word) : Word := sext (field v 0 8)

/-- A loaded byte, zero-extended. -/
def zextByte (v : Word) : Word := zext (field v 0 8)

/-- Loaded 16 bits, sign-extended. -/
def sextHalf (v : Word) : Word := sext (field v 0 16)

/-- Loaded 16 bits, zero-extended. -/
def zextHalf (v : Word) : Word := zext (field v 0 16)

/-! ## Loads, displacement mode -/

/-- LDB (R260). -/
def execLdb (rt ra : RegNum) (disp : BitVec 8) (s : State) : Answer :=
  load 1 sextByte rt (eaDisp s ra disp) s

/-- LDBU (R262). -/
def execLdbu (rt ra : RegNum) (disp : BitVec 8) (s : State) : Answer :=
  load 1 zextByte rt (eaDisp s ra disp) s

/-- LDW (R263). -/
def execLdw (rt ra : RegNum) (disp : BitVec 8) (s : State) : Answer :=
  load 2 sextHalf rt (eaDisp s ra disp) s

/-- LDWU (R264). -/
def execLdwu (rt ra : RegNum) (disp : BitVec 8) (s : State) : Answer :=
  load 2 zextHalf rt (eaDisp s ra disp) s

/-- LDT (R265). -/
def execLdt (rt ra : RegNum) (disp : BitVec 8) (s : State) : Answer :=
  load 4 id rt (eaDisp s ra disp) s

/-- LDA: no format and no description (R276). -/
def execLda (_ : BitVec 18) (_ : State) : Answer := .refused .ldaUndescribed

/-- CACHE: no command list and no effect described (R278). -/
def execCache (_ : BitVec 18) (_ : State) : Answer := .refused .cacheCommandUnknown

/-! ## Loads, indexed mode -/

/-- LDBX (R261). -/
def execLdbx (rt ra rb : RegNum) (sc : BitVec 2) (s : State) : Answer :=
  load 1 sextByte rt (eaIndexed s ra rb sc) s

/-- LDBUX (R266). -/
def execLdbux (rt ra rb : RegNum) (sc : BitVec 2) (s : State) : Answer :=
  load 1 zextByte rt (eaIndexed s ra rb sc) s

/-- LDWX (R267). -/
def execLdwx (rt ra rb : RegNum) (sc : BitVec 2) (s : State) : Answer :=
  load 2 sextHalf rt (eaIndexed s ra rb sc) s

/-- LDWUX (R268). -/
def execLdwux (rt ra rb : RegNum) (sc : BitVec 2) (s : State) : Answer :=
  load 2 zextHalf rt (eaIndexed s ra rb sc) s

/-- LDTX (R269). -/
def execLdtx (rt ra rb : RegNum) (sc : BitVec 2) (s : State) : Answer :=
  load 4 id rt (eaIndexed s ra rb sc) s

/-- LDAX: as LDA (R277). -/
def execLdax (_ : BitVec 18) (_ : State) : Answer := .refused .ldaxUndescribed

/-- CACHEX: as CACHE (R279). -/
def execCachex (_ : BitVec 18) (_ : State) : Answer := .refused .cachexCommandUnknown

/-! ## Stores -/

/-- STB (R270). -/
def execStb (rs ra : RegNum) (disp : BitVec 8) (s : State) : Answer :=
  store 1 rs (eaDisp s ra disp) s

/-- STW (R271). -/
def execStw (rs ra : RegNum) (disp : BitVec 8) (s : State) : Answer :=
  store 2 rs (eaDisp s ra disp) s

/-- STT (R272). -/
def execStt (rs ra : RegNum) (disp : BitVec 8) (s : State) : Answer :=
  store 4 rs (eaDisp s ra disp) s

/-- STBX (R273). -/
def execStbx (rs ra rb : RegNum) (sc : BitVec 2) (s : State) : Answer :=
  store 1 rs (eaIndexed s ra rb sc) s

/-- STWX (R274). -/
def execStwx (rs ra rb : RegNum) (sc : BitVec 2) (s : State) : Answer :=
  store 2 rs (eaIndexed s ra rb sc) s

/-- STTX (R275). -/
def execSttx (rs ra rb : RegNum) (sc : BitVec 2) (s : State) : Answer :=
  store 4 rs (eaIndexed s ra rb sc) s

end Sys2Proof.Machine
end

