-- ==== Sys2Proof/Machine/Shift.lean ====
section
/-! DEFINITION. Shift and rotate instructions (`41_shift.md`). A count is always 0 to 31 (R210). -/

namespace Sys2Proof.Machine

/-! ## The functions -/

/-- Left shift by `n`, the vacated low bits filled with copies of `f` (R200, C7). -/
def shiftLeftFill (f : Bool) (a : Word) (n : Nat) : Word :=
  (a <<< n) ||| (if f then BitVec.ofNat 32 (2 ^ n - 1) else 0)

/-- Logical right shift (R202). -/
def shiftRight (a : Word) (n : Nat) : Word := a >>> n

/-- Rotate left (R204). -/
def rotLeft (a : Word) (n : Nat) : Word := if n = 0 then a else (a <<< n) ||| (a >>> (32 - n))

/-- Rotate right (R206). -/
def rotRight (a : Word) (n : Nat) : Word := if n = 0 then a else (a >>> n) ||| (a <<< (32 - n))

/-- Arithmetic right shift: the floor of `signed(a) / 2^n` (R208). -/
def shiftRightArith (a : Word) (n : Nat) : Word := BitVec.ofInt 32 (a.toInt / 2 ^ n)

/-! ## The instructions -/

/-- ASL (R200). -/
def execAsl (rt ra rb : RegNum) (f : Bool) (s : State) : Answer :=
  opShift (shiftLeftFill f) rt ra (shiftCount (readReg s rb)) s

/-- ASLI (R201). -/
def execAsli (rt ra : RegNum) (count : BitVec 5) (f : Bool) (s : State) : Answer :=
  opShift (shiftLeftFill f) rt ra count s

/-- LSR (R202). -/
def execLsr (rt ra rb : RegNum) (s : State) : Answer :=
  opShift shiftRight rt ra (shiftCount (readReg s rb)) s

/-- LSRI (R203). -/
def execLsri (rt ra : RegNum) (count : BitVec 5) (s : State) : Answer :=
  opShift shiftRight rt ra count s

/-- ROL (R204). -/
def execRol (rt ra rb : RegNum) (s : State) : Answer :=
  opShift rotLeft rt ra (shiftCount (readReg s rb)) s

/-- ROLI (R205). -/
def execRoli (rt ra : RegNum) (count : BitVec 5) (s : State) : Answer :=
  opShift rotLeft rt ra count s

/-- ROR (R206). -/
def execRor (rt ra rb : RegNum) (s : State) : Answer :=
  opShift rotRight rt ra (shiftCount (readReg s rb)) s

/-- RORI (R207). -/
def execRori (rt ra : RegNum) (count : BitVec 5) (s : State) : Answer :=
  opShift rotRight rt ra count s

/-- ASR (R208). -/
def execAsr (rt ra rb : RegNum) (s : State) : Answer :=
  opShift shiftRightArith rt ra (shiftCount (readReg s rb)) s

/-- ASRI (R209). -/
def execAsri (rt ra : RegNum) (count : BitVec 5) (s : State) : Answer :=
  opShift shiftRightArith rt ra count s

end Sys2Proof.Machine
end

