-- ==== Sys2Proof/Machine/System.lean ====
section
/-! DEFINITION. System instructions (`44_system.md`) over the trap mechanism of `60_exceptions.md`. -/

namespace Sys2Proof.Machine

/-- BRK (R300): taken whatever IL is, IL kept. -/
def execBrk (s : State) : Answer := trapEnter .brk s.il s

/-- IRQ (R301): taken at once when its level is above IL, which becomes that level; otherwise refused
(D25). -/
def execIrq (lvl : Level) (num : BitVec 9) (s : State) : Answer :=
  if s.il.toNat < lvl.toNat then trapEnter (.irq num lvl) lvl s else .refused .irqNotAboveLevel

/-- SYS (R302): taken whatever IL is, IL kept. -/
def execSys (num : BitVec 9) (s : State) : Answer := trapEnter (.sys num) s.il s

/-- RTS (R303): one entry. -/
def execRts (offs : BitVec 8) (s : State) : Answer := trapReturn 1 offs s

/-- RTS2UP (R304): two entries, the newest discarded. -/
def execRts2up (offs : BitVec 8) (s : State) : Answer := trapReturn 2 offs s

/-- RTI (R305): one entry, as RTS (D27). -/
def execRti (offs : BitVec 8) (s : State) : Answer := trapReturn 1 offs s

end Sys2Proof.Machine
end

