-- ==== Sys2Proof/Machine/Dispatch.lean ====
section
/-! DEFINITION. From an instruction to its meaning: one arm per constructor. -/

namespace Sys2Proof.Machine

def exec (i : Instr) (s : State) : Host.Outcome State Fault Refusal :=
  match i with
  | .addi rt ra imm => Sys2Proof.Machine.execAddi rt ra imm s
  | .addis rt ra imm => Sys2Proof.Machine.execAddis rt ra imm s
  | .andi rt ra imm => Sys2Proof.Machine.execAndi rt ra imm s
  | .andis rt ra imm => Sys2Proof.Machine.execAndis rt ra imm s
  | .apcis rt imm => Sys2Proof.Machine.execApcis rt imm s
  | .jal rt ra imm => Sys2Proof.Machine.execJal rt ra imm s
  | .cmpi rt ra imm => Sys2Proof.Machine.execCmpi rt ra imm s
  | .muli rt ra imm => Sys2Proof.Machine.execMuli rt ra imm s
  | .divi rt ra imm => Sys2Proof.Machine.execDivi rt ra imm s
  | .ori rt ra imm => Sys2Proof.Machine.execOri rt ra imm s
  | .eori rt ra imm => Sys2Proof.Machine.execEori rt ra imm s
  | .subfi rt ra imm => Sys2Proof.Machine.execSubfi rt ra imm s
  | .slti rt ra imm => Sys2Proof.Machine.execSlti rt ra imm s
  | .mului rt ra imm => Sys2Proof.Machine.execMului rt ra imm s
  | .divui rt ra imm => Sys2Proof.Machine.execDivui rt ra imm s
  | .oris rt ra imm => Sys2Proof.Machine.execOris rt ra imm s
  | .eoris rt ra imm => Sys2Proof.Machine.execEoris rt ra imm s
  | .add rt ra rb => Sys2Proof.Machine.execAdd rt ra rb s
  | .cmp rt ra rb => Sys2Proof.Machine.execCmp rt ra rb s
  | .and rt ra rb => Sys2Proof.Machine.execAnd rt ra rb s
  | .or rt ra rb => Sys2Proof.Machine.execOr rt ra rb s
  | .mul rt ra rb => Sys2Proof.Machine.execMul rt ra rb s
  | .div rt ra rb => Sys2Proof.Machine.execDiv rt ra rb s
  | .eor rt ra rb => Sys2Proof.Machine.execEor rt ra rb s
  | .andn rt ra rb => Sys2Proof.Machine.execAndn rt ra rb s
  | .sub rt ra rb => Sys2Proof.Machine.execSub rt ra rb s
  | .slt13 rt ra rb => Sys2Proof.Machine.execSlt13 rt ra rb s
  | .mulu rt ra rb => Sys2Proof.Machine.execMulu rt ra rb s
  | .divu rt ra rb => Sys2Proof.Machine.execDivu rt ra rb s
  | .nand rt ra rb => Sys2Proof.Machine.execNand rt ra rb s
  | .nor rt ra rb => Sys2Proof.Machine.execNor rt ra rb s
  | .enor rt ra rb => Sys2Proof.Machine.execEnor rt ra rb s
  | .orn rt ra rb => Sys2Proof.Machine.execOrn rt ra rb s
  | .mulh rt ra rb => Sys2Proof.Machine.execMulh rt ra rb s
  | .mod rt ra rb => Sys2Proof.Machine.execMod rt ra rb s
  | .seq rt ra rb => Sys2Proof.Machine.execSeq rt ra rb s
  | .sne rt ra rb => Sys2Proof.Machine.execSne rt ra rb s
  | .slt rt ra rb => Sys2Proof.Machine.execSlt rt ra rb s
  | .sle rt ra rb => Sys2Proof.Machine.execSle rt ra rb s
  | .sltu rt ra rb => Sys2Proof.Machine.execSltu rt ra rb s
  | .sleu rt ra rb => Sys2Proof.Machine.execSleu rt ra rb s
  | .muluh rt ra rb => Sys2Proof.Machine.execMuluh rt ra rb s
  | .modu rt ra rb => Sys2Proof.Machine.execModu rt ra rb s
  | .r1 rest => Sys2Proof.Machine.execR1 rest s
  | .addpc rest => Sys2Proof.Machine.execAddpc rest s
  | .asl rt ra rb f => Sys2Proof.Machine.execAsl rt ra rb f s
  | .asli rt ra count f => Sys2Proof.Machine.execAsli rt ra count f s
  | .lsr rt ra rb => Sys2Proof.Machine.execLsr rt ra rb s
  | .lsri rt ra count => Sys2Proof.Machine.execLsri rt ra count s
  | .rol rt ra rb => Sys2Proof.Machine.execRol rt ra rb s
  | .roli rt ra count => Sys2Proof.Machine.execRoli rt ra count s
  | .ror rt ra rb => Sys2Proof.Machine.execRor rt ra rb s
  | .rori rt ra count => Sys2Proof.Machine.execRori rt ra count s
  | .asr rt ra rb => Sys2Proof.Machine.execAsr rt ra rb s
  | .asri rt ra count => Sys2Proof.Machine.execAsri rt ra count s
  | .beq ra rb disp => Sys2Proof.Machine.execBeq ra rb disp s
  | .bne ra rb disp => Sys2Proof.Machine.execBne ra rb disp s
  | .blt ra rb disp => Sys2Proof.Machine.execBlt ra rb disp s
  | .ble ra rb disp => Sys2Proof.Machine.execBle ra rb disp s
  | .bltu ra rb disp => Sys2Proof.Machine.execBltu ra rb disp s
  | .bleu ra rb disp => Sys2Proof.Machine.execBleu ra rb disp s
  | .bccr ra rb rc cond disp => Sys2Proof.Machine.execBccr ra rb rc cond disp s
  | .bbs rest => Sys2Proof.Machine.execBbs rest s
  | .bra disp => Sys2Proof.Machine.execBra disp s
  | .call lr disp => Sys2Proof.Machine.execCall lr disp s
  | .rtd lr offs imm => Sys2Proof.Machine.execRtd lr offs imm s
  | .eret rest => Sys2Proof.Machine.execEret rest s
  | .brk => Sys2Proof.Machine.execBrk s
  | .irq lvl num => Sys2Proof.Machine.execIrq lvl num s
  | .sys num => Sys2Proof.Machine.execSys num s
  | .rts offs => Sys2Proof.Machine.execRts offs s
  | .rts2up offs => Sys2Proof.Machine.execRts2up offs s
  | .rti offs => Sys2Proof.Machine.execRti offs s
  | .ldb rt ra disp => Sys2Proof.Machine.execLdb rt ra disp s
  | .ldbu rt ra disp => Sys2Proof.Machine.execLdbu rt ra disp s
  | .ldw rt ra disp => Sys2Proof.Machine.execLdw rt ra disp s
  | .ldwu rt ra disp => Sys2Proof.Machine.execLdwu rt ra disp s
  | .ldt rt ra disp => Sys2Proof.Machine.execLdt rt ra disp s
  | .lda rest => Sys2Proof.Machine.execLda rest s
  | .cache rest => Sys2Proof.Machine.execCache rest s
  | .ldbx rt ra rb sc => Sys2Proof.Machine.execLdbx rt ra rb sc s
  | .ldbux rt ra rb sc => Sys2Proof.Machine.execLdbux rt ra rb sc s
  | .ldwx rt ra rb sc => Sys2Proof.Machine.execLdwx rt ra rb sc s
  | .ldwux rt ra rb sc => Sys2Proof.Machine.execLdwux rt ra rb sc s
  | .ldtx rt ra rb sc => Sys2Proof.Machine.execLdtx rt ra rb sc s
  | .ldax rest => Sys2Proof.Machine.execLdax rest s
  | .cachex rest => Sys2Proof.Machine.execCachex rest s
  | .stb rs ra disp => Sys2Proof.Machine.execStb rs ra disp s
  | .stw rs ra disp => Sys2Proof.Machine.execStw rs ra disp s
  | .stt rs ra disp => Sys2Proof.Machine.execStt rs ra disp s
  | .stbx rs ra rb sc => Sys2Proof.Machine.execStbx rs ra rb sc s
  | .stwx rs ra rb sc => Sys2Proof.Machine.execStwx rs ra rb sc s
  | .sttx rs ra rb sc => Sys2Proof.Machine.execSttx rs ra rb sc s

end Sys2Proof.Machine
end

