-- ==== Sys2Proof/Machine/Step.lean ====
section
/-! DEFINITION. One step of the machine, and placing an instruction where the next step fetches it. -/

namespace Sys2Proof.Machine

/-- One step: a state at END_PC is final (R374); an external request above IL is taken in place of the
instruction at the pc (R336, R337); otherwise the instruction at the pc is fetched, decoded (R101) and
executed. -/
def step (s : State) : Host.Outcome State Fault Refusal :=
  if s.pc = s.params.endPc then .fault .endOfRun
  else
    match externalTrap s with
    | some answer => answer
    | none =>
      match fetchInstr s with
      | .error r => .refused r
      | .ok i => exec i (dropOffer s)

/-- `s` with the instruction whose bits are `w` stored at the pc. Beside the bytes it changes only what
would keep the next step from fetching them: the addresses are put into MEM and taken out of dirty, an
END_PC at the pc is moved, and an offer that would be taken is withdrawn (log entry 13). -/
def State.withFetchWord (s : State) (nbits w : Nat) : State :=
  placeAtPc (tableBytes nbits w) s

end Sys2Proof.Machine
end

