-- ==== Sys2Proof/Safety.lean ====
section
/-! DEFINITION. The terms in which statements about the machine are made: what stays the same from one
state to another, the usual outcomes of an instruction, and the invariant of the machine. -/

namespace Sys2Proof.Machine

/-! ## What stays the same -/

/-- Every general register reads as before. -/
def sameRegs (s t : State) : Prop := ∀ r, readReg t r = readReg s r

/-- The link registers are as before. -/
def sameLinks (s t : State) : Prop := t.lr1 = s.lr1 ∧ t.lr2 = s.lr2 ∧ t.lr3 = s.lr3

/-- IL and ES are as before. -/
def sameTraps (s t : State) : Prop := t.il = s.il ∧ t.es = s.es

/-- Every byte of memory reads as before, and no address has become dirty. -/
def sameMemory (s t : State) : Prop :=
  (∀ a, t.mem.byteAt a = s.mem.byteAt a) ∧ t.dirty = s.dirty

/-- The parameters and the environment's offers are as before. -/
def sameInputs (s t : State) : Prop := t.params = s.params ∧ t.extIrq = s.extIrq

/-- Register `rt` holds `v`, or still reads as zero where R0_ZERO hard-wires it, and every other register
is as before (R22). -/
def regHolds (s t : State) (rt : RegNum) (v : Word) : Prop :=
  ∀ r, readReg t r =
    if r = rt ∧ ¬(s.params.r0Zero = true ∧ rt = 0) then v else readReg s r

/-! ## Outcomes of an instruction -/

/-- `exec i s` answers a next state in which register `rt` holds `v`, the pc has moved on by `n` bytes and
nothing else has changed. -/
def writesResult (i : Instr) (s : State) (rt : RegNum) (v : Word) (n : Word) : Prop :=
  ∃ t, exec i s = .next t ∧ regHolds s t rt v ∧ t.pc = s.pc + n ∧
    sameLinks s t ∧ sameTraps s t ∧ sameMemory s t ∧ sameInputs s t

/-- `exec i s` answers a next state in which the pc is `target` and nothing else has changed. -/
def transfersTo (i : Instr) (s : State) (target : Word) : Prop :=
  ∃ t, exec i s = .next t ∧ t.pc = target ∧
    sameRegs s t ∧ sameLinks s t ∧ sameTraps s t ∧ sameMemory s t ∧ sameInputs s t

/-- `exec i s` answers a next state in which the `n` bytes at `ea` hold the low 8n bits of `v`, lowest byte
first, and are dirty, the pc has moved on by 3 bytes, and nothing else has changed: every byte of memory
outside the `n` bytes at `ea` reads as before. -/
def storesAt (i : Instr) (s : State) (ea : Word) (n : Nat) (v : Word) : Prop :=
  ∃ t, exec i s = .next t ∧
    (∀ k, k < n → t.mem.byteAt (ea.toNat + k) = BitVec.ofNat 8 (v.toNat / 2 ^ (8 * k))) ∧
    (∀ a, a < ea.toNat ∨ ea.toNat + n ≤ a → t.mem.byteAt a = s.mem.byteAt a) ∧
    (∀ a, a ∈ t.dirty ↔ (ea.toNat ≤ a ∧ a < ea.toNat + n) ∨ a ∈ s.dirty) ∧
    t.pc = s.pc + 3 ∧ sameRegs s t ∧ sameLinks s t ∧ sameTraps s t ∧ sameInputs s t

/-- `exec i s` answers a next state that differs from `s` in pc, IL and ES only, and these are as given. -/
def trapsTo (i : Instr) (s : State) (pc : Word) (il : Level) (es : List EsEntry) : Prop :=
  ∃ t, exec i s = .next t ∧ t.pc = pc ∧ t.il = il ∧ t.es = es ∧
    sameRegs s t ∧ sameLinks s t ∧ sameMemory s t ∧ sameInputs s t

/-! ## Conditions -/

/-- The memory rules admit an access of `n` bytes at `ea`: aligned, and every byte in MEM (R52, R57). -/
def admitted (s : State) (ea : Word) (n : Nat) : Prop :=
  ea.toNat % n = 0 ∧ ∀ k, k < n → inMem s.params (ea.toNat + k) = true

/-- The environment offers no request above IL at this step (R336). -/
def noInterrupt (s : State) : Prop :=
  ∀ q rest, s.extIrq = some q :: rest → q.lvl.toNat ≤ s.il.toNat

/-- The width and the effective address of a load or a store (R54, R280). -/
def dataAccess (s : State) : Instr → Option (Nat × Word)
  | .ldb _ ra d | .ldbu _ ra d | .stb _ ra d => some (1, eaDisp s ra d)
  | .ldw _ ra d | .ldwu _ ra d | .stw _ ra d => some (2, eaDisp s ra d)
  | .ldt _ ra d | .stt _ ra d => some (4, eaDisp s ra d)
  | .ldbx _ ra rb sc | .ldbux _ ra rb sc | .stbx _ ra rb sc => some (1, eaIndexed s ra rb sc)
  | .ldwx _ ra rb sc | .ldwux _ ra rb sc | .stwx _ ra rb sc => some (2, eaIndexed s ra rb sc)
  | .ldtx _ ra rb sc | .sttx _ ra rb sc => some (4, eaIndexed s ra rb sc)
  | _ => none

/-- The stores. -/
def isStore : Instr → Bool
  | .stb .. | .stw .. | .stt .. | .stbx .. | .stwx .. | .sttx .. => true
  | _ => false

/-- The instructions that enter or return from a trap. -/
def isTrap : Instr → Bool
  | .brk | .irq .. | .sys .. | .rts .. | .rts2up .. | .rti .. => true
  | _ => false

/-- The instructions that transfer control, or may. -/
def isTransfer : Instr → Bool
  | .beq .. | .bne .. | .blt .. | .ble .. | .bltu .. | .bleu ..
  | .bra .. | .call .. | .jal .. | .rtd .. => true
  | i => isTrap i

/-- The general register an instruction may write, if any (R24): its Rt, and SP_REG for RTD. -/
def targetReg (p : Params) : Instr → Option RegNum
  | .beq .. | .bne .. | .blt .. | .ble .. | .bltu .. | .bleu .. | .bra .. | .call .. => none
  | .brk | .irq .. | .sys .. | .rts .. | .rts2up .. | .rti .. => none
  | .stb .. | .stw .. | .stt .. | .stbx .. | .stwx .. | .sttx .. => none
  | .r1 .. | .addpc .. | .bccr .. | .bbs .. | .eret .. => none
  | .lda .. | .cache .. | .ldax .. | .cachex .. => none
  | .rtd .. => some p.spReg
  | .apcis rt _ => some rt
  | .addi rt _ _ | .addis rt _ _ | .andi rt _ _ | .andis rt _ _ | .jal rt _ _ | .cmpi rt _ _
  | .muli rt _ _ | .divi rt _ _ | .ori rt _ _ | .eori rt _ _ | .subfi rt _ _ | .slti rt _ _
  | .mului rt _ _ | .divui rt _ _ | .oris rt _ _ | .eoris rt _ _ => some rt
  | .add rt _ _ | .cmp rt _ _ | .and rt _ _ | .or rt _ _ | .mul rt _ _ | .div rt _ _
  | .eor rt _ _ | .andn rt _ _ | .sub rt _ _ | .slt13 rt _ _ | .mulu rt _ _ | .divu rt _ _
  | .nand rt _ _ | .nor rt _ _ | .enor rt _ _ | .orn rt _ _ | .mulh rt _ _ | .mod rt _ _
  | .seq rt _ _ | .sne rt _ _ | .slt rt _ _ | .sle rt _ _ | .sltu rt _ _ | .sleu rt _ _
  | .muluh rt _ _ | .modu rt _ _ => some rt
  | .asl rt _ _ _ | .asli rt _ _ _ | .lsr rt _ _ | .lsri rt _ _ | .rol rt _ _ | .roli rt _ _
  | .ror rt _ _ | .rori rt _ _ | .asr rt _ _ | .asri rt _ _ => some rt
  | .ldb rt _ _ | .ldbu rt _ _ | .ldw rt _ _ | .ldwu rt _ _ | .ldt rt _ _ => some rt
  | .ldbx rt _ _ _ | .ldbux rt _ _ _ | .ldwx rt _ _ _ | .ldwux rt _ _ _
  | .ldtx rt _ _ _ => some rt

/-! ## The invariant -/

/-- Memory and `dirty` are in canonical form, every dirty address exists, and ES holds at most ES_DEPTH
entries, which is at least 2 (R31, R35, R341). -/
def State.Inv (s : State) : Prop :=
  s.mem.wf = true ∧ addrsFrom 0 s.dirty = true ∧
    (∀ a, a ∈ s.dirty → inMem s.params a = true) ∧
    2 ≤ s.params.esDepth ∧ s.es.length ≤ s.params.esDepth

end Sys2Proof.Machine
end

