-- ==== Sys2Proof/Certificates/Slice0/Obligations.lean ====
section
/-! DEFINITION. The statements for the provers. `readReg s ra` is written out where a rule says `a`, and
`readReg s rb` where it says `b`. Each docstring names the rule, and the spec's own decision (`D<n>` of
`92_eei_decisions.md`) where the rule rests on one. -/

open Sys2Proof Sys2Proof.Machine

/-! ## Arithmetic, logic and compare -/

/-- R123, R124, R125, R127: AND, ANDI, ANDIS and OR, their words and their results bit by bit. OR's word is
the spec's own resolution of conflict C2 (`90_conflicts.md`), so the whole is derived. -/
def Obligations.BitwiseAndOr : Prop :=
  ∀ (rt ra rb : RegNum) (imm : BitVec 16) (s : State),
    (decode (bytes32 (0x20000002#32 ||| zext rb <<< 16 ||| zext ra <<< 11 ||| zext rt <<< 6)) =
        .ok (.and rt ra rb, []) ∧
      ∃ v, writesResult (.and rt ra rb) s rt v 4 ∧
        ∀ j, v.getLsbD j = ((readReg s ra).getLsbD j && (readReg s rb).getLsbD j)) ∧
    (decode (bytes32 (0x24000002#32 ||| zext rb <<< 16 ||| zext ra <<< 11 ||| zext rt <<< 6)) =
        .ok (.or rt ra rb, []) ∧
      ∃ v, writesResult (.or rt ra rb) s rt v 4 ∧
        ∀ j, v.getLsbD j = ((readReg s ra).getLsbD j || (readReg s rb).getLsbD j)) ∧
    (decode (bytes32 (zext imm <<< 16 ||| zext ra <<< 11 ||| zext rt <<< 6 ||| 8#32)) =
        .ok (.andi rt ra imm, []) ∧
      ∃ v, writesResult (.andi rt ra imm) s rt v 4 ∧
        ∀ j, v.getLsbD j = ((readReg s ra).getLsbD j && (decide (16 ≤ j) || imm.getLsbD j))) ∧
    (decode (bytes32 (zext imm <<< 16 ||| zext ra <<< 11 ||| zext rt <<< 6 ||| 11#32)) =
        .ok (.andis rt ra imm, []) ∧
      ∃ v, writesResult (.andis rt ra imm) s rt v 4 ∧
        ∀ j, v.getLsbD j =
          ((readReg s ra).getLsbD j && (decide (j < 16) || imm.getLsbD (j - 16))))

/-- R120, R121, R122, R130, R156: sums and differences wrap modulo 2^32 (decisions D15, D20, D21). -/
def Obligations.AddSubtractWrap : Prop :=
  ∀ (rt ra rb : RegNum) (imm : BitVec 16) (s : State),
    writesResult (.add rt ra rb) s rt
      (BitVec.ofInt 32 ((readReg s ra).toInt + (readReg s rb).toInt)) 4 ∧
    writesResult (.addi rt ra imm) s rt (BitVec.ofInt 32 ((readReg s ra).toInt + imm.toInt)) 4 ∧
    writesResult (.addis rt ra imm) s rt
      (BitVec.ofNat 32 ((readReg s ra).toNat + imm.toNat * 65536)) 4 ∧
    writesResult (.sub rt ra rb) s rt
      (BitVec.ofInt 32 ((readReg s ra).toInt - (readReg s rb).toInt)) 4 ∧
    writesResult (.subfi rt ra imm) s rt (BitVec.ofInt 32 (imm.toInt - (readReg s ra).toInt)) 4

/-- R131 to R136, R154, R155, R160, R161: the other bitwise instructions, bit by bit (the spec's reading
of the mnemonics, D20, D21). -/
def Obligations.OtherBitwise : Prop :=
  ∀ (rt ra rb : RegNum) (imm : BitVec 16) (s : State),
    (∃ v, writesResult (.eor rt ra rb) s rt v 4 ∧
      ∀ j, v.getLsbD j = ((readReg s ra).getLsbD j ^^ (readReg s rb).getLsbD j)) ∧
    (∃ v, writesResult (.andn rt ra rb) s rt v 4 ∧
      ∀ j, v.getLsbD j = ((readReg s ra).getLsbD j && !(readReg s rb).getLsbD j)) ∧
    (∃ v, writesResult (.nand rt ra rb) s rt v 4 ∧
      ∀ j, j < 32 → v.getLsbD j = !((readReg s ra).getLsbD j && (readReg s rb).getLsbD j)) ∧
    (∃ v, writesResult (.nor rt ra rb) s rt v 4 ∧
      ∀ j, j < 32 → v.getLsbD j = !((readReg s ra).getLsbD j || (readReg s rb).getLsbD j)) ∧
    (∃ v, writesResult (.enor rt ra rb) s rt v 4 ∧
      ∀ j, j < 32 → v.getLsbD j = ((readReg s ra).getLsbD j == (readReg s rb).getLsbD j)) ∧
    (∃ v, writesResult (.orn rt ra rb) s rt v 4 ∧
      ∀ j, j < 32 → v.getLsbD j = ((readReg s ra).getLsbD j || !(readReg s rb).getLsbD j)) ∧
    (∃ v, writesResult (.ori rt ra imm) s rt v 4 ∧
      ∀ j, v.getLsbD j = ((readReg s ra).getLsbD j || imm.getLsbD j)) ∧
    (∃ v, writesResult (.eori rt ra imm) s rt v 4 ∧
      ∀ j, v.getLsbD j = ((readReg s ra).getLsbD j ^^ imm.getLsbD j)) ∧
    (∃ v, writesResult (.oris rt ra imm) s rt v 4 ∧
      ∀ j, v.getLsbD j =
        ((readReg s ra).getLsbD j || (decide (16 ≤ j) && imm.getLsbD (j - 16)))) ∧
    (∃ v, writesResult (.eoris rt ra imm) s rt v 4 ∧
      ∀ j, v.getLsbD j =
        ((readReg s ra).getLsbD j ^^ (decide (16 ≤ j) && imm.getLsbD (j - 16))))

/-- R126: APCIS adds the shifted immediate to its own address, modulo 2^32 (D14, D15). -/
def Obligations.PcRelativeAdd : Prop :=
  ∀ (rt : RegNum) (imm : BitVec 16) (s : State),
    writesResult (.apcis rt imm) s rt (BitVec.ofNat 32 (s.pc.toNat + imm.toNat * 65536)) 4

/-- R137, R138, R152, R158: the low half of a product is the same for both readings of the operands; the
immediate forms differ in the extension only (D15, D20, D21). -/
def Obligations.MultiplyLowHalf : Prop :=
  ∀ (rt ra rb : RegNum) (imm : BitVec 16) (s : State),
    (∃ v, writesResult (.mul rt ra rb) s rt v 4 ∧ writesResult (.mulu rt ra rb) s rt v 4 ∧
      v.toNat = (readReg s ra).toNat * (readReg s rb).toNat % 2 ^ 32) ∧
    (∃ v, writesResult (.muli rt ra imm) s rt v 4 ∧
      v = BitVec.ofInt 32 ((readReg s ra).toNat * imm.toInt)) ∧
    (∃ v, writesResult (.mului rt ra imm) s rt v 4 ∧
      v.toNat = (readReg s ra).toNat * imm.toNat % 2 ^ 32)

/-- R137 to R140: the high and low halves together are the exact 64-bit product, signed and unsigned (D20,
D21). -/
def Obligations.MultiplyExactProduct : Prop :=
  ∀ (rt ra rb : RegNum) (s : State),
    (∃ hi lo, writesResult (.mulh rt ra rb) s rt hi 4 ∧ writesResult (.mul rt ra rb) s rt lo 4 ∧
      (readReg s ra).toInt * (readReg s rb).toInt = hi.toInt * 2 ^ 32 + lo.toNat) ∧
    (∃ hi lo, writesResult (.muluh rt ra rb) s rt hi 4 ∧ writesResult (.mulu rt ra rb) s rt lo 4 ∧
      (readReg s ra).toNat * (readReg s rb).toNat = hi.toNat * 2 ^ 32 + lo.toNat)

/-- R141, R143, R153: away from the two corners DIV and MOD give the quotient and remainder of
`a = q*b + r` with the quotient rounded toward zero and the remainder of the dividend's sign; DIVI is DIV
by the sign-extended immediate (D20 to D22). -/
def Obligations.SignedDivision : Prop :=
  ∀ (rt ra rb : RegNum) (imm : BitVec 16) (s : State),
    (readReg s rb ≠ 0 → ¬(readReg s ra = 0x80000000 ∧ readReg s rb = 0xFFFFFFFF) →
      ∃ q r, writesResult (.div rt ra rb) s rt q 4 ∧ writesResult (.mod rt ra rb) s rt r 4 ∧
        (readReg s ra).toInt = q.toInt * (readReg s rb).toInt + r.toInt ∧
        r.toInt.natAbs < (readReg s rb).toInt.natAbs ∧
        (r = 0 ∨ (r.toInt < 0 ↔ (readReg s ra).toInt < 0))) ∧
    (imm ≠ 0 → ¬(readReg s ra = 0x80000000 ∧ imm = 0xFFFF) →
      ∃ q, writesResult (.divi rt ra imm) s rt q 4 ∧
        q.toInt = (readReg s ra).toInt.tdiv imm.toInt)

/-- R142, R144, R159: unsigned quotient and remainder for a divisor that is not zero (D20 to D22). -/
def Obligations.UnsignedDivision : Prop :=
  ∀ (rt ra rb : RegNum) (imm : BitVec 16) (s : State),
    (readReg s rb ≠ 0 →
      ∃ q r, writesResult (.divu rt ra rb) s rt q 4 ∧ writesResult (.modu rt ra rb) s rt r 4 ∧
        (readReg s ra).toNat = q.toNat * (readReg s rb).toNat + r.toNat ∧
        r.toNat < (readReg s rb).toNat) ∧
    (imm ≠ 0 →
      ∃ q, writesResult (.divui rt ra imm) s rt q 4 ∧
        q.toNat = (readReg s ra).toNat / imm.toNat)

/-- R141 to R144, R153, R159: division by zero is refused in all six instructions, 0x80000000 / -1 in the
three signed ones (decision D22; log entry 15). -/
def Obligations.DivisionCornersRefused : Prop :=
  ∀ (rt ra rb : RegNum) (s : State),
    (readReg s rb = 0 →
      exec (.div rt ra rb) s = .refused .divisionByZero ∧
      exec (.mod rt ra rb) s = .refused .divisionByZero ∧
      exec (.divu rt ra rb) s = .refused .divisionByZero ∧
      exec (.modu rt ra rb) s = .refused .divisionByZero) ∧
    exec (.divi rt ra 0) s = .refused .divisionByZero ∧
    exec (.divui rt ra 0) s = .refused .divisionByZero ∧
    (readReg s ra = 0x80000000 →
      exec (.divi rt ra 0xFFFF) s = .refused .divisionOverflow ∧
      (readReg s rb = 0xFFFFFFFF →
        exec (.div rt ra rb) s = .refused .divisionOverflow ∧
        exec (.mod rt ra rb) s = .refused .divisionOverflow))

/-- R145 to R150, R157: the set instructions write 1 when their relation holds and 0 when it does not, SLT
at both of its functions (C4; D20, D21). -/
def Obligations.SetOnRelation : Prop :=
  ∀ (rt ra rb : RegNum) (imm : BitVec 16) (s : State),
    writesResult (.slt rt ra rb) s rt
      (if (readReg s ra).toInt < (readReg s rb).toInt then 1 else 0) 4 ∧
    writesResult (.slt13 rt ra rb) s rt
      (if (readReg s ra).toInt < (readReg s rb).toInt then 1 else 0) 4 ∧
    writesResult (.seq rt ra rb) s rt (if readReg s ra = readReg s rb then 1 else 0) 4 ∧
    writesResult (.sne rt ra rb) s rt (if readReg s ra = readReg s rb then 0 else 1) 4 ∧
    writesResult (.sle rt ra rb) s rt
      (if (readReg s rb).toInt < (readReg s ra).toInt then 0 else 1) 4 ∧
    writesResult (.sltu rt ra rb) s rt
      (if (readReg s ra).toNat < (readReg s rb).toNat then 1 else 0) 4 ∧
    writesResult (.sleu rt ra rb) s rt
      (if (readReg s rb).toNat < (readReg s ra).toNat then 0 else 1) 4 ∧
    writesResult (.slti rt ra imm) s rt (if (readReg s ra).toInt < imm.toInt then 1 else 0) 4

/-- R128: which bits of `v` CMP's table sets for `a` and `b`; bits 14 to 31 are zero (D17). -/
def compareBits (a b v : Word) : Prop :=
  (v.getLsbD 0 = true ↔ a = b) ∧ (v.getLsbD 1 = true ↔ a ≠ b) ∧
  (v.getLsbD 2 = true ↔ a.toInt < b.toInt) ∧ (v.getLsbD 3 = true ↔ a.toInt ≤ b.toInt) ∧
  (v.getLsbD 4 = true ↔ b.toInt ≤ a.toInt) ∧ (v.getLsbD 5 = true ↔ b.toInt < a.toInt) ∧
  (v.getLsbD 6 = true ↔ a.getLsbD (b.toNat % 32) = false) ∧
  (v.getLsbD 7 = true ↔ a.getLsbD (b.toNat % 32) = true) ∧
  (v.getLsbD 8 = true ↔ a.toInt < 0) ∧ (v.getLsbD 9 = true ↔ 0 < a.toInt) ∧
  (v.getLsbD 10 = true ↔ a.toNat < b.toNat) ∧ (v.getLsbD 11 = true ↔ a.toNat ≤ b.toNat) ∧
  (v.getLsbD 12 = true ↔ b.toNat ≤ a.toNat) ∧ (v.getLsbD 13 = true ↔ b.toNat < a.toNat) ∧
  ∀ j, 14 ≤ j → v.getLsbD j = false

/-- R128, R151: CMP and CMPI write the relation bits (D17; CMPI D20, D21). -/
def Obligations.CompareRelationBits : Prop :=
  ∀ (rt ra rb : RegNum) (imm : BitVec 16) (s : State),
    (∃ v, writesResult (.cmp rt ra rb) s rt v 4 ∧
      compareBits (readReg s ra) (readReg s rb) v) ∧
    (∃ v, writesResult (.cmpi rt ra imm) s rt v 4 ∧
      compareBits (readReg s ra) (BitVec.ofInt 32 imm.toInt) v)

/-! ## Shifts -/

/-- R200, R201, R210: ASL and ASLI move bits up and fill the vacated low bits with F (D16). -/
def Obligations.ShiftLeftWithFill : Prop :=
  ∀ (rt ra rb : RegNum) (count : BitVec 5) (f : Bool) (s : State),
    (∃ v, writesResult (.asl rt ra rb f) s rt v 4 ∧
      ∀ j, j < 32 → v.getLsbD j =
        if j < (readReg s rb).toNat % 32 then f
        else (readReg s ra).getLsbD (j - (readReg s rb).toNat % 32)) ∧
    (∃ v, writesResult (.asli rt ra count f) s rt v 4 ∧
      ∀ j, j < 32 → v.getLsbD j =
        if j < count.toNat then f else (readReg s ra).getLsbD (j - count.toNat))

/-- R202, R203, R208, R209, R210: LSR divides the unsigned value by 2^n and ASR the signed value, both
rounding down (D16, D20, D21). -/
def Obligations.RightShiftsDivide : Prop :=
  ∀ (rt ra rb : RegNum) (count : BitVec 5) (s : State),
    (∃ v, writesResult (.lsr rt ra rb) s rt v 4 ∧
      v.toNat = (readReg s ra).toNat / 2 ^ ((readReg s rb).toNat % 32)) ∧
    (∃ v, writesResult (.lsri rt ra count) s rt v 4 ∧
      v.toNat = (readReg s ra).toNat / 2 ^ count.toNat) ∧
    (∃ v, writesResult (.asr rt ra rb) s rt v 4 ∧
      v.toInt = (readReg s ra).toInt / 2 ^ ((readReg s rb).toNat % 32)) ∧
    (∃ v, writesResult (.asri rt ra count) s rt v 4 ∧
      v.toInt = (readReg s ra).toInt / 2 ^ count.toNat)

/-- R204 to R207, R210: a rotate moves bit j to bit j + n (left) or j - n (right), modulo 32 (D16, D20,
D21). -/
def Obligations.RotatesMoveBits : Prop :=
  ∀ (rt ra rb : RegNum) (count : BitVec 5) (s : State),
    (∃ v, writesResult (.rol rt ra rb) s rt v 4 ∧
      ∀ j, j < 32 → v.getLsbD ((j + (readReg s rb).toNat % 32) % 32) = (readReg s ra).getLsbD j) ∧
    (∃ v, writesResult (.roli rt ra count) s rt v 4 ∧
      ∀ j, j < 32 → v.getLsbD ((j + count.toNat) % 32) = (readReg s ra).getLsbD j) ∧
    (∃ v, writesResult (.ror rt ra rb) s rt v 4 ∧
      ∀ j, j < 32 → v.getLsbD j = (readReg s ra).getLsbD ((j + (readReg s rb).toNat % 32) % 32)) ∧
    (∃ v, writesResult (.rori rt ra count) s rt v 4 ∧
      ∀ j, j < 32 → v.getLsbD j = (readReg s ra).getLsbD ((j + count.toNat) % 32))

/-! ## Control transfer -/

/-- R220, R225 to R229, R233: a branch goes to its own address plus the signed displacement in bytes when
its relation holds, and otherwise 4 bytes on; nothing else changes (D14, D20, D21). -/
def Obligations.ConditionalBranches : Prop :=
  ∀ (ra rb : RegNum) (disp : BitVec 16) (s : State),
    transfersTo (.beq ra rb disp) s
      (if readReg s ra = readReg s rb then BitVec.ofInt 32 (s.pc.toNat + disp.toInt)
       else s.pc + 4) ∧
    transfersTo (.bne ra rb disp) s
      (if readReg s ra = readReg s rb then s.pc + 4
       else BitVec.ofInt 32 (s.pc.toNat + disp.toInt)) ∧
    transfersTo (.blt ra rb disp) s
      (if (readReg s ra).toInt < (readReg s rb).toInt then
        BitVec.ofInt 32 (s.pc.toNat + disp.toInt) else s.pc + 4) ∧
    transfersTo (.ble ra rb disp) s
      (if (readReg s rb).toInt < (readReg s ra).toInt then s.pc + 4
       else BitVec.ofInt 32 (s.pc.toNat + disp.toInt)) ∧
    transfersTo (.bltu ra rb disp) s
      (if (readReg s ra).toNat < (readReg s rb).toNat then
        BitVec.ofInt 32 (s.pc.toNat + disp.toInt) else s.pc + 4) ∧
    transfersTo (.bleu ra rb disp) s
      (if (readReg s rb).toNat < (readReg s ra).toNat then s.pc + 4
       else BitVec.ofInt 32 (s.pc.toNat + disp.toInt))

/-- R221, R222: BRA transfers and changes nothing else; CALL puts its own address in the link register its
field names, keeps the other two, and transfers (D4, D14). -/
def Obligations.BranchAndCall : Prop :=
  ∀ (lr : BitVec 2) (disp : BitVec 24) (s : State),
    transfersTo (.bra disp) s (BitVec.ofInt 32 (s.pc.toNat + disp.toInt)) ∧
    (lr ≠ 0 → ∃ t, exec (.call lr disp) s = .next t ∧
      t.pc = BitVec.ofInt 32 (s.pc.toNat + disp.toInt) ∧
      t.lr1 = (if lr = 1 then s.pc else s.lr1) ∧
      t.lr2 = (if lr = 2 then s.pc else s.lr2) ∧
      t.lr3 = (if lr = 3 then s.pc else s.lr3) ∧
      sameRegs s t ∧ sameTraps s t ∧ sameMemory s t ∧ sameInputs s t)

/-- R223: JAL jumps to the old value of Ra plus the sign-extended immediate and puts its own address in
Rt, also when Rt is Ra (D18). -/
def Obligations.JumpAndLink : Prop :=
  ∀ (rt ra : RegNum) (imm : BitVec 16) (s : State),
    ∃ t, exec (.jal rt ra imm) s = .next t ∧
      t.pc = BitVec.ofInt 32 ((readReg s ra).toInt + imm.toInt) ∧ regHolds s t rt s.pc ∧
      sameLinks s t ∧ sameTraps s t ∧ sameMemory s t ∧ sameInputs s t

/-- R224: with a link register and admitted fields RTD adds the constant to register SP_REG and goes to
the link register plus the offset (D3, D4, D19). -/
def Obligations.ReturnAndDeallocate : Prop :=
  ∀ (lr : BitVec 2) (offs : BitVec 8) (imm : BitVec 16) (s : State),
    lr ≠ 0 → offs.toNat < 0x80 → imm.toNat < 0x8000 →
    ∃ t, exec (.rtd lr offs imm) s = .next t ∧
      t.pc = BitVec.ofNat 32
        ((if lr = 1 then s.lr1 else if lr = 2 then s.lr2 else s.lr3).toNat + offs.toNat) ∧
      regHolds s t s.params.spReg
        (BitVec.ofNat 32 ((readReg s s.params.spReg).toNat + imm.toNat)) ∧
      sameLinks s t ∧ sameTraps s t ∧ sameMemory s t ∧ sameInputs s t

/-- R224, R303 to R305, R339: an offset or constant whose sign D0 leaves open is refused, and so is RTD
without a link register (decision D19; log entry 15). -/
def Obligations.UnknownSignRefused : Prop :=
  ∀ (lr : BitVec 2) (offs : BitVec 8) (imm : BitVec 16) (s : State),
    exec (.rtd 0 offs imm) s = .refused .noLinkRegister ∧
    (lr ≠ 0 → 0x80 ≤ offs.toNat ∨ 0x8000 ≤ imm.toNat →
      exec (.rtd lr offs imm) s = .refused .offsetSignUnknown) ∧
    (0x80 ≤ offs.toNat →
      exec (.rts offs) s = .refused .offsetSignUnknown ∧
      exec (.rts2up offs) s = .refused .offsetSignUnknown ∧
      exec (.rti offs) s = .refused .offsetSignUnknown)

/-- R27, R222 to R224: CALL and then RTD with the same link register and offset 4, or JAL and then JAL with
offset 4 through the register it linked, come to the instruction after the call (D14, D18). -/
def Obligations.CallThenReturn : Prop :=
  ∀ (lr : BitVec 2) (disp : BitVec 24) (rt ra rz : RegNum) (imm : BitVec 16) (s : State),
    (lr ≠ 0 → ∃ t u, exec (.call lr disp) s = .next t ∧ exec (.rtd lr 4 0) t = .next u ∧
      u.pc = s.pc + 4) ∧
    (¬(s.params.r0Zero = true ∧ rt = 0) →
      ∃ t u, exec (.jal rt ra imm) s = .next t ∧ exec (.jal rz rt 4) t = .next u ∧
        u.pc = s.pc + 4)

/-! ## Loads and stores -/

/-- R280: displacement mode adds the sign-extended displacement, indexed mode the index register times
2^Sc, both modulo 2^32 (D13, D34). -/
def Obligations.EffectiveAddresses : Prop :=
  ∀ (ra rb : RegNum) (disp : BitVec 8) (sc : BitVec 2) (s : State),
    eaDisp s ra disp = BitVec.ofInt 32 ((readReg s ra).toNat + disp.toInt) ∧
    eaIndexed s ra rb sc =
      BitVec.ofNat 32 ((readReg s ra).toNat + (readReg s rb).toNat * 2 ^ sc.toNat)

/-- R260, R262 to R265, R281: an admitted load in displacement mode writes the little-endian value at the
effective address, extended as its mnemonic says (D5, D9, D20, D21, D34). -/
def Obligations.DisplacementLoads : Prop :=
  ∀ (rt ra : RegNum) (disp : BitVec 8) (s : State) (ea : Word), ea = eaDisp s ra disp →
    (admitted s ea 1 →
      writesResult (.ldb rt ra disp) s rt (BitVec.ofInt 32 (s.mem.byteAt ea.toNat).toInt) 3 ∧
      writesResult (.ldbu rt ra disp) s rt (BitVec.ofNat 32 (s.mem.byteAt ea.toNat).toNat) 3) ∧
    (admitted s ea 2 →
      writesResult (.ldw rt ra disp) s rt
        (BitVec.ofInt 32 (s.mem.byteAt (ea.toNat + 1) ++ s.mem.byteAt ea.toNat).toInt) 3 ∧
      writesResult (.ldwu rt ra disp) s rt
        (BitVec.ofNat 32 (s.mem.byteAt (ea.toNat + 1) ++ s.mem.byteAt ea.toNat).toNat) 3) ∧
    (admitted s ea 4 →
      writesResult (.ldt rt ra disp) s rt
        (s.mem.byteAt (ea.toNat + 3) ++ s.mem.byteAt (ea.toNat + 2) ++
          s.mem.byteAt (ea.toNat + 1) ++ s.mem.byteAt ea.toNat) 3)

/-- R261, R266 to R269, R281: the same in indexed mode (D5, D9, D20, D21, D34). -/
def Obligations.IndexedLoads : Prop :=
  ∀ (rt ra rb : RegNum) (sc : BitVec 2) (s : State) (ea : Word), ea = eaIndexed s ra rb sc →
    (admitted s ea 1 →
      writesResult (.ldbx rt ra rb sc) s rt (BitVec.ofInt 32 (s.mem.byteAt ea.toNat).toInt) 3 ∧
      writesResult (.ldbux rt ra rb sc) s rt (BitVec.ofNat 32 (s.mem.byteAt ea.toNat).toNat) 3) ∧
    (admitted s ea 2 →
      writesResult (.ldwx rt ra rb sc) s rt
        (BitVec.ofInt 32 (s.mem.byteAt (ea.toNat + 1) ++ s.mem.byteAt ea.toNat).toInt) 3 ∧
      writesResult (.ldwux rt ra rb sc) s rt
        (BitVec.ofNat 32 (s.mem.byteAt (ea.toNat + 1) ++ s.mem.byteAt ea.toNat).toNat) 3) ∧
    (admitted s ea 4 →
      writesResult (.ldtx rt ra rb sc) s rt
        (s.mem.byteAt (ea.toNat + 3) ++ s.mem.byteAt (ea.toNat + 2) ++
          s.mem.byteAt (ea.toNat + 1) ++ s.mem.byteAt ea.toNat) 3)

/-- R270 to R272, R281: an admitted store in displacement mode stores the low bytes of Rs at the effective
address, makes them dirty, and changes nothing else but the pc (D5, D9, D20, D21, D34). -/
def Obligations.DisplacementStores : Prop :=
  ∀ (rs ra : RegNum) (disp : BitVec 8) (s : State), s.Inv →
    (admitted s (eaDisp s ra disp) 1 →
      storesAt (.stb rs ra disp) s (eaDisp s ra disp) 1 (readReg s rs)) ∧
    (admitted s (eaDisp s ra disp) 2 →
      storesAt (.stw rs ra disp) s (eaDisp s ra disp) 2 (readReg s rs)) ∧
    (admitted s (eaDisp s ra disp) 4 →
      storesAt (.stt rs ra disp) s (eaDisp s ra disp) 4 (readReg s rs))

/-- R273 to R275, R281: the same in indexed mode (D5, D9, D20, D21, D34). -/
def Obligations.IndexedStores : Prop :=
  ∀ (rs ra rb : RegNum) (sc : BitVec 2) (s : State), s.Inv →
    (admitted s (eaIndexed s ra rb sc) 1 →
      storesAt (.stbx rs ra rb sc) s (eaIndexed s ra rb sc) 1 (readReg s rs)) ∧
    (admitted s (eaIndexed s ra rb sc) 2 →
      storesAt (.stwx rs ra rb sc) s (eaIndexed s ra rb sc) 2 (readReg s rs)) ∧
    (admitted s (eaIndexed s ra rb sc) 4 →
      storesAt (.sttx rs ra rb sc) s (eaIndexed s ra rb sc) 4 (readReg s rs))

/-- R52, R55 to R57: a load or store at a misaligned address is refused, and an aligned one that touches
an address outside MEM is refused (decisions D9, D10). -/
def Obligations.UnadmittedAccessRefused : Prop :=
  ∀ (i : Instr) (s : State) (n : Nat) (ea : Word), dataAccess s i = some (n, ea) →
    (ea.toNat % n ≠ 0 → exec i s = .refused .misaligned) ∧
    (ea.toNat % n = 0 → ∀ k, k < n → inMem s.params (ea.toNat + k) = false →
      exec i s = .refused .outsideMem)

/-- R66: with the alignment rule only the fetch can run past the end of the space, so no load or store is
refused for that (D9, D13). -/
def Obligations.DataAccessNeverPastEnd : Prop :=
  ∀ (i : Instr) (s : State), dataAccess s i ≠ none → exec i s ≠ .refused .pastEndOfSpace

/-- R51, R61, R262, R264, R265, R270 to R272, R280, R281: STT, STW and STB and then LDT, LDWU and LDBU at the
same admitted address (R52, R57) give back the stored register or its low 16 or 8 bits, whatever memory held.
All six are named-only: formats, widths and extension are D20, D21 (log entry 17), the address D34, byte order
D5, admission D9, D10, order of accesses D11. The signed and the indexed forms are in `DisplacementLoads`,
`IndexedLoads`, `DisplacementStores` and `IndexedStores`. -/
def Obligations.StoreThenLoad : Prop :=
  ∀ (rs ra rt : RegNum) (disp : BitVec 8) (s : State), s.Inv →
    (admitted s (eaDisp s ra disp) 4 →
      ∃ t u, exec (.stt rs ra disp) s = .next t ∧ exec (.ldt rt ra disp) t = .next u ∧
        regHolds s u rt (readReg s rs)) ∧
    (admitted s (eaDisp s ra disp) 2 →
      ∃ t u, exec (.stw rs ra disp) s = .next t ∧ exec (.ldwu rt ra disp) t = .next u ∧
        regHolds s u rt (BitVec.ofNat 32 ((readReg s rs).toNat % 65536))) ∧
    (admitted s (eaDisp s ra disp) 1 →
      ∃ t u, exec (.stb rs ra disp) s = .next t ∧ exec (.ldbu rt ra disp) t = .next u ∧
        regHolds s u rt (BitVec.ofNat 32 ((readReg s rs).toNat % 256)))

/-! ## Traps -/

/-- R300, R302, R333: with room on ES, BRK and SYS push their own address and IL, keep IL, go to VEC of
their kind, and change nothing else (D24). -/
def Obligations.BreakAndSystemCall : Prop :=
  ∀ (num : BitVec 9) (s : State), s.es.length < s.params.esDepth →
    trapsTo .brk s (handler s.params .brk) s.il (⟨s.pc, s.il⟩ :: s.es) ∧
    trapsTo (.sys num) s (handler s.params (.sys num)) s.il (⟨s.pc, s.il⟩ :: s.es)

/-- R301, R333, R335: an IRQ instruction above IL, with room on ES, is taken at once and its level becomes
IL (D24, D25). -/
def Obligations.InterruptInstruction : Prop :=
  ∀ (lvl : Level) (num : BitVec 9) (s : State),
    s.il.toNat < lvl.toNat → s.es.length < s.params.esDepth →
    trapsTo (.irq lvl num) s (handler s.params (.irq num lvl)) lvl (⟨s.pc, s.il⟩ :: s.es)

/-- R301, R330, R333, R336, R341: an IRQ instruction not above IL is refused, level 0 always; with ES full
each of the four kinds of trap is refused: BRK, SYS and an IRQ above IL when they are executed, an external
interrupt above IL at the step that offers it (decisions D25, D26, D28; log entries 11, 15, and 14 for
END_PC). -/
def Obligations.UntakenTrapsRefused : Prop :=
  ∀ (lvl : Level) (num : BitVec 9) (s : State),
    (lvl.toNat ≤ s.il.toNat → exec (.irq lvl num) s = .refused .irqNotAboveLevel) ∧
    exec (.irq 0 num) s = .refused .irqNotAboveLevel ∧
    (s.es.length = s.params.esDepth →
      exec .brk s = .refused .exceptionStackFull ∧
      exec (.sys num) s = .refused .exceptionStackFull ∧
      (s.il.toNat < lvl.toNat → exec (.irq lvl num) s = .refused .exceptionStackFull) ∧
      ∀ (q : ExtReq) (offers : List (Option ExtReq)), s.extIrq = some q :: offers →
        s.il.toNat < q.lvl.toNat → s.pc ≠ s.params.endPc →
        step s = .refused .exceptionStackFull)

/-- R303 to R305, R339: RTS and RTI go through the newest entry of ES, RTS2UP drops it and goes through the
one below; IL is the entry's, the pc its pc plus the offset, and nothing else changes (D19, D27). -/
def Obligations.TrapReturns : Prop :=
  ∀ (offs : BitVec 8) (s : State) (e f : EsEntry) (rest : List EsEntry), offs.toNat < 0x80 →
    (s.es = e :: rest →
      trapsTo (.rts offs) s (BitVec.ofNat 32 (e.pc.toNat + offs.toNat)) e.il rest ∧
      trapsTo (.rti offs) s (BitVec.ofNat 32 (e.pc.toNat + offs.toNat)) e.il rest) ∧
    (s.es = f :: e :: rest →
      trapsTo (.rts2up offs) s (BitVec.ofNat 32 (e.pc.toNat + offs.toNat)) e.il rest)

/-- R339, R341: a return through more entries than ES holds is refused (decision D26; log entry 15). -/
def Obligations.ReturnUnderflowRefused : Prop :=
  ∀ (offs : BitVec 8) (s : State), offs.toNat < 0x80 →
    (s.es.length < 1 →
      exec (.rts offs) s = .refused .exceptionStackUnderflow ∧
      exec (.rti offs) s = .refused .exceptionStackUnderflow) ∧
    (s.es.length < 2 → exec (.rts2up offs) s = .refused .exceptionStackUnderflow)

/-- R340: traps nest. With room for two, an IRQ and a SYS inside its handler, then RTS2UP 4, come to the
instruction after the IRQ with IL and ES as before it; and a BRK then RTI 0 come back to the BRK (D24 to
D27). -/
def Obligations.NestedTrapsUnwind : Prop :=
  ∀ (lvl : Level) (num call : BitVec 9) (s : State),
    (s.il.toNat < lvl.toNat → s.es.length + 2 ≤ s.params.esDepth →
      ∃ t u v, exec (.irq lvl num) s = .next t ∧ exec (.sys call) t = .next u ∧
        exec (.rts2up 4) u = .next v ∧ v.pc = s.pc + 4 ∧ sameTraps s v) ∧
    (s.es.length + 1 ≤ s.params.esDepth →
      ∃ t u, exec .brk s = .next t ∧ exec (.rti 0) t = .next u ∧ u.pc = s.pc ∧ sameTraps s u)

/-- R162, R163, R230, R231, R276 to R279, R306: the nine instructions that D0 only names and for which no
reading is safe are refused, each by name (decision D23; log entry 16). -/
def Obligations.NamedOnlyRefused : Prop :=
  ∀ (r20 : BitVec 20) (r26 : BitVec 26) (r18 : BitVec 18) (ra rb rc : RegNum) (cond : BitVec 3)
    (disp : BitVec 8) (s : State),
    exec (.r1 r20) s = .refused .r1GroupUnknown ∧
    exec (.addpc r20) s = .refused .addpcUndescribed ∧
    exec (.bccr ra rb rc cond disp) s = .refused .bccrTargetUnknown ∧
    exec (.bbs r26) s = .refused .bbsUndescribed ∧
    exec (.eret r26) s = .refused .eretUndescribed ∧
    exec (.lda r18) s = .refused .ldaUndescribed ∧
    exec (.ldax r18) s = .refused .ldaxUndescribed ∧
    exec (.cache r18) s = .refused .cacheCommandUnknown ∧
    exec (.cachex r18) s = .refused .cachexCommandUnknown

/-! ## The step -/

/-- R336 to R338: an offered request above IL, with room on ES, is taken in place of the instruction at the
pc, whatever stands there: the pc pushed is that instruction's, and nothing else changes (D28, D31; the
offers are log entry 11's list). -/
def Obligations.ExternalInterruptTaken : Prop :=
  ∀ (q : ExtReq) (offers : List (Option ExtReq)) (s : State),
    s.extIrq = some q :: offers → s.il.toNat < q.lvl.toNat → s.es.length < s.params.esDepth →
    s.pc ≠ s.params.endPc →
    ∃ t, step s = .next t ∧ t.pc = handler s.params (.ext q.num q.lvl) ∧ t.il = q.lvl ∧
      t.es = ⟨s.pc, s.il⟩ :: s.es ∧ sameRegs s t ∧ sameLinks s t ∧ sameMemory s t ∧
      t.params = s.params ∧ t.extIrq = offers

/-- R336: an offered request that is not above IL has no effect at that step: the step is the one taken
when nothing is offered (D28). -/
def Obligations.MaskedOfferIgnored : Prop :=
  ∀ (q : ExtReq) (offers : List (Option ExtReq)) (s : State),
    s.extIrq = some q :: offers → q.lvl.toNat ≤ s.il.toNat →
    step s = step { s with extIrq := none :: offers }

/-- R374: a state with the pc at END_PC is final (D33); that not even an offered interrupt is taken there
is log entry 14's choice. -/
def Obligations.EndPcIsFinal : Prop :=
  ∀ s : State, s.pc = s.params.endPc → step s = .fault .endOfRun

/-- R101, R336: when the core is not at END_PC, no interrupt is taken, and the `n` bytes at the pc exist,
are not dirty and decode to `i` with none left over, the step is `exec i`, with this step's offer used
up (log entry 11). -/
def Obligations.StepRunsDecodedInstruction : Prop :=
  ∀ (i : Instr) (n : Nat) (s : State), i.wellFormed = true → s.pc ≠ s.params.endPc →
    noInterrupt s → s.pc.toNat + n ≤ 2 ^ 32 →
    (∀ k, k < n → inMem s.params (s.pc.toNat + k) = true ∧ s.pc.toNat + k ∉ s.dirty) →
    decode (bytesFrom s.mem s.pc.toNat n) = .ok (i, []) →
    step s = exec i { s with extIrq := s.extIrq.tail }

/-- R57, R64, R66, R98, R101: what refuses a fetch, in the order of R101: the first byte's existence, then
whether it is dirty, the end of the space, the existence of every byte, whether one is dirty, and a
reserved encoding (decisions D8, D10, D12, D13; log entry 23 for the order). -/
def Obligations.FetchRefusals : Prop :=
  ∀ (s : State) (n : Nat), s.pc ≠ s.params.endPc → noInterrupt s →
    n = ilen (opcodeOf (s.mem.byteAt s.pc.toNat)) →
    (inMem s.params s.pc.toNat = false → step s = .refused .outsideMem) ∧
    (inMem s.params s.pc.toNat = true → s.pc.toNat ∈ s.dirty →
      step s = .refused .fetchOfStoredByte) ∧
    (inMem s.params s.pc.toNat = true → s.pc.toNat ∉ s.dirty →
      (2 ^ 32 < s.pc.toNat + n → step s = .refused .pastEndOfSpace) ∧
      (s.pc.toNat + n ≤ 2 ^ 32 →
        ((∃ k, k < n ∧ inMem s.params (s.pc.toNat + k) = false) →
          step s = .refused .outsideMem) ∧
        ((∀ k, k < n → inMem s.params (s.pc.toNat + k) = true) →
          ((∃ k, k < n ∧ s.pc.toNat + k ∈ s.dirty) → step s = .refused .fetchOfStoredByte) ∧
          ((∀ k, k < n → s.pc.toNat + k ∉ s.dirty) →
            ∀ e, decode (bytesFrom s.mem s.pc.toNat n) = .error e →
              step s = .refused (.reservedEncoding e)))))

/-! ## Encoding -/

/-- R82 to R86, R92, R94: every word of the formats RI, R2, SH and BR decodes to the instruction that the
map names at its opcode or function, with every operand where the format draws it; so does every word of
the nine instructions that D0 only names (decision D20; conflicts C1 to C4; log entries 16, 17). The first
eight clauses are words of the spec's own examples (section 2.9 of `95_test_vectors.md` among them). -/
def Obligations.SampleWordsDecode : Prop :=
  decode [0xC2, 0x08, 0x02, 0x10] = .ok (.add 3 1 2, []) ∧
  decode [0xC4, 0x08, 0xFF, 0xFF] = .ok (.addi 3 1 0xFFFF, []) ∧
  decode [0xC2, 0x08, 0x04, 0x83] = .ok (.asli 3 1 4 true, []) ∧
  decode [0x58, 0x10, 0xF8, 0xFF] = .ok (.beq 1 2 0xFFF8, []) ∧
  decode [0x51, 0x04, 0x10, 0x00] = .ok (.rtd 1 4 16, []) ∧
  decode [0xC0, 0x00, 0x25, 0x04] = .ok (.irq 3 0x25, []) ∧
  decode [0xE0, 0x08, 0x05] = .ok (.ldb 3 1 5, []) ∧
  decode [0xF6, 0x08, 0x42] = .ok (.sttx 3 1 2 2, []) ∧
  ∀ (rt ra rb rc n : RegNum) (imm : BitVec 16) (f : Bool) (cond : BitVec 3) (disp : BitVec 8)
    (r20 : BitVec 20) (r26 : BitVec 26) (r18 : BitVec 18),
    (∀ row ∈ ([(3, .addis rt ra imm), (4, .addi rt ra imm), (5, .cmpi rt ra imm),
        (6, .muli rt ra imm), (7, .divi rt ra imm), (8, .andi rt ra imm), (9, .ori rt ra imm),
        (10, .eori rt ra imm), (11, .andis rt ra imm), (12, .subfi rt ra imm),
        (13, .slti rt ra imm), (14, .mului rt ra imm), (15, .divui rt ra imm),
        (19, .jal rt ra imm), (20, .oris rt ra imm), (21, .eoris rt ra imm)] :
        List (BitVec 6 × Instr)),
      decode (bytes32 (zext imm <<< 16 ||| zext ra <<< 11 ||| zext rt <<< 6 ||| zext row.1)) =
        .ok (row.2, [])) ∧
    decode (bytes32 (zext imm <<< 16 ||| zext rt <<< 6 ||| 1#32)) = .ok (.apcis rt imm, []) ∧
    (∀ row ∈ ([(4, .add rt ra rb), (5, .cmp rt ra rb), (6, .mul rt ra rb), (7, .div rt ra rb),
        (8, .and rt ra rb), (9, .or rt ra rb), (10, .eor rt ra rb), (11, .andn rt ra rb),
        (12, .sub rt ra rb), (13, .slt13 rt ra rb), (14, .mulu rt ra rb), (15, .divu rt ra rb),
        (16, .nand rt ra rb), (17, .nor rt ra rb), (18, .enor rt ra rb), (19, .orn rt ra rb),
        (22, .mulh rt ra rb), (23, .mod rt ra rb), (24, .seq rt ra rb), (25, .sne rt ra rb),
        (26, .slt rt ra rb), (27, .sle rt ra rb), (28, .sltu rt ra rb), (29, .sleu rt ra rb),
        (30, .muluh rt ra rb), (31, .modu rt ra rb)] : List (BitVec 6 × Instr)),
      decode (bytes32 (zext row.1 <<< 26 ||| zext rb <<< 16 ||| zext ra <<< 11 ||| zext rt <<< 6 |||
        2#32)) = .ok (row.2, [])) ∧
    (∀ row ∈ ([(32, f, .asl rt ra n f, .asli rt ra n f), (33, false, .lsr rt ra n, .lsri rt ra n),
        (34, false, .rol rt ra n, .roli rt ra n), (35, false, .ror rt ra n, .rori rt ra n),
        (36, false, .asr rt ra n, .asri rt ra n)] : List (BitVec 6 × Bool × Instr × Instr)),
      decode (bytes32 (zext row.1 <<< 26 ||| zext (BitVec.ofBool row.2.1) <<< 25 ||| zext n <<< 16 |||
        zext ra <<< 11 ||| zext rt <<< 6 ||| 2#32)) = .ok (row.2.2.1, []) ∧
      decode (bytes32 (zext row.1 <<< 26 ||| zext (BitVec.ofBool row.2.1) <<< 25 ||| 1#32 <<< 24 |||
        zext n <<< 16 ||| zext ra <<< 11 ||| zext rt <<< 6 ||| 2#32)) = .ok (row.2.2.2, [])) ∧
    (∀ row ∈ ([(24, .beq ra rb imm), (25, .bne ra rb imm), (26, .blt ra rb imm),
        (27, .ble ra rb imm), (28, .bltu ra rb imm), (29, .bleu ra rb imm)] :
        List (BitVec 6 × Instr)),
      decode (bytes32 (zext imm <<< 16 ||| zext rb <<< 11 ||| zext ra <<< 6 ||| zext row.1)) =
        .ok (row.2, [])) ∧
    decode (bytes32 (1#32 <<< 26 ||| zext r20 <<< 6 ||| 2#32)) = .ok (.r1 r20, []) ∧
    decode (bytes32 (2#32 <<< 26 ||| zext r20 <<< 6 ||| 2#32)) = .ok (.addpc r20, []) ∧
    decode (bytes32 (zext disp <<< 24 ||| zext cond <<< 21 ||| zext rc <<< 16 ||| zext rb <<< 11 |||
      zext ra <<< 6 ||| 30#32)) = .ok (.bccr ra rb rc cond disp, []) ∧
    decode (bytes32 (zext r26 <<< 6 ||| 31#32)) = .ok (.bbs r26, []) ∧
    decode (bytes32 (zext r26 <<< 6 ||| 16#32)) = .ok (.eret r26, []) ∧
    decode (bytes24 (r18.setWidth 24 <<< 6 ||| 38#24)) = .ok (.lda r18, []) ∧
    decode (bytes24 (r18.setWidth 24 <<< 6 ||| 39#24)) = .ok (.cache r18, []) ∧
    decode (bytes24 (r18.setWidth 24 <<< 6 ||| 46#24)) = .ok (.ldax r18, []) ∧
    decode (bytes24 (r18.setWidth 24 <<< 6 ||| 47#24)) = .ok (.cachex r18, [])

/-- R87, R88: opcode 18 is BRA where the Lr field is 0 and CALL with that link register where it is 1, 2 or
3; RTD has its three fields where R88 draws them. -/
def Obligations.LinkFormatsDecode : Prop :=
  ∀ (lr : BitVec 2) (disp : BitVec 24) (offs : BitVec 8) (imm : BitVec 16),
    decode (bytes32 (zext disp <<< 8 ||| 18#32)) = .ok (.bra disp, []) ∧
    (lr ≠ 0 →
      decode (bytes32 (zext disp <<< 8 ||| zext lr <<< 6 ||| 18#32)) = .ok (.call lr disp, []) ∧
      decode (bytes32 (zext imm <<< 16 ||| zext offs <<< 8 ||| zext lr <<< 6 ||| 17#32)) =
        .ok (.rtd lr offs imm, []))

/-- R89: the formats of BRK, IRQ, SYS, RTS with its Dep field, and RTI, their unused fields zero. -/
def Obligations.SystemFormatsDecode : Prop :=
  ∀ (num : BitVec 9) (lvl : Level) (offs : BitVec 8),
    decode (bytes32 0) = .ok (.brk, []) ∧
    decode (bytes32 (0x04000000#32 ||| zext num <<< 16 ||| zext lvl <<< 6)) =
      .ok (.irq lvl num, []) ∧
    decode (bytes32 (0x08000000#32 ||| zext num <<< 16)) = .ok (.sys num, []) ∧
    decode (bytes32 (0x0C000040#32 ||| zext offs <<< 8)) = .ok (.rts offs, []) ∧
    decode (bytes32 (0x0C000080#32 ||| zext offs <<< 8)) = .ok (.rts2up offs, []) ∧
    decode (bytes32 (0x10000000#32 ||| zext offs <<< 8)) = .ok (.rti offs, [])

/-- R81, R90, R91: the formats of the 24-bit instructions: loads and stores in displacement mode and in
indexed mode, for every opcode the map gives one (D6, D20, D34). -/
def Obligations.MemoryFormatsDecode : Prop :=
  ∀ (r ra rb : RegNum) (disp : BitVec 8) (sc : BitVec 2) (m8 mx : BitVec 6) (i j : Instr),
    (m8, i) ∈ [(32, Instr.ldb r ra disp), (33, .ldbu r ra disp), (34, .ldw r ra disp),
      (35, .ldwu r ra disp), (36, .ldt r ra disp), (48, .stb r ra disp), (49, .stw r ra disp),
      (50, .stt r ra disp)] →
    (mx, j) ∈ [(40, Instr.ldbx r ra rb sc), (41, .ldbux r ra rb sc), (42, .ldwx r ra rb sc),
      (43, .ldwux r ra rb sc), (44, .ldtx r ra rb sc), (52, .stbx r ra rb sc),
      (53, .stwx r ra rb sc), (54, .sttx r ra rb sc)] →
    decode (bytes24 (disp.setWidth 24 <<< 16 ||| ra.setWidth 24 <<< 11 ||| r.setWidth 24 <<< 6 |||
      m8.setWidth 24)) = .ok (i, []) ∧
    decode (bytes24 (sc.setWidth 24 <<< 21 ||| rb.setWidth 24 <<< 16 ||| ra.setWidth 24 <<< 11 |||
      r.setWidth 24 <<< 6 ||| mx.setWidth 24)) = .ok (j, [])

/-- R98: the reserved 32-bit words do not decode: blank opcodes and functions, RTS and RTI with a reserved
Dep field, a shift 33 to 36 with F = 1, RTD with Lr = 0 (decisions D8, D16, D19). -/
def Obligations.ReservedWordsRejected : Prop :=
  ∀ (w : BitVec 32) (op func : Nat), op = w.toNat % 64 → func = w.toNat / 2 ^ 26 →
    (op ∈ [22, 23] ∨ 56 ≤ op ∨
      (op = 0 ∧ 5 ≤ func) ∨
      (op = 2 ∧ (func ∈ [0, 3, 20, 21] ∨ 37 ≤ func)) ∨
      (op = 0 ∧ func = 3 ∧ (w.toNat / 64 % 4 = 0 ∨ w.toNat / 64 % 4 = 3)) ∨
      (op = 0 ∧ func = 4 ∧ w.toNat / 64 % 4 ≠ 0) ∨
      (op = 2 ∧ 33 ≤ func ∧ func ≤ 36 ∧ w.toNat / 2 ^ 25 % 2 = 1) ∨
      (op = 17 ∧ w.toNat / 64 % 4 = 0)) →
    ∃ e, decode (bytes32 w) = .error e

/-- R97, R98: a one in a field that must be zero makes a word reserved: bits 15..11 of APCIS, bits 25..21
of format R2, bits 23..21 of format SH, the unused fields of the {SYS} group, bit 23 of format MX; and the
24-bit opcodes 37, 45, 51, 55 are blank (decisions D7, D8). -/
def Obligations.UnusedFieldsRejected : Prop :=
  (∀ (w : BitVec 32) (op func : Nat), op = w.toNat % 64 → func = w.toNat / 2 ^ 26 →
    ((op = 1 ∧ w.toNat / 2 ^ 11 % 2 ^ 5 ≠ 0) ∨
      (op = 2 ∧ 4 ≤ func ∧ func < 32 ∧ w.toNat / 2 ^ 21 % 2 ^ 5 ≠ 0) ∨
      (op = 2 ∧ 32 ≤ func ∧ func ≤ 36 ∧ w.toNat / 2 ^ 21 % 2 ^ 3 ≠ 0) ∨
      (op = 0 ∧ func = 0 ∧ w.toNat / 2 ^ 6 % 2 ^ 20 ≠ 0) ∨
      (op = 0 ∧ func = 1 ∧ (w.toNat / 2 ^ 25 % 2 ≠ 0 ∨ w.toNat / 2 ^ 9 % 2 ^ 7 ≠ 0)) ∨
      (op = 0 ∧ func = 2 ∧ (w.toNat / 2 ^ 25 % 2 ≠ 0 ∨ w.toNat / 2 ^ 6 % 2 ^ 10 ≠ 0)) ∨
      (op = 0 ∧ (func = 3 ∨ func = 4) ∧ w.toNat / 2 ^ 16 % 2 ^ 10 ≠ 0)) →
    ∃ e, decode (bytes32 w) = .error e) ∧
  ∀ (w : BitVec 24) (op : Nat), op = w.toNat % 64 →
    (op ∈ [37, 45, 51, 55] ∨
      (op ∈ [40, 41, 42, 43, 44, 52, 53, 54] ∧ w.toNat / 2 ^ 23 ≠ 0)) →
    ∃ e, decode (bytes24 w) = .error e

/-- R82 to R91, R101: decoding the bytes of any well-formed instruction gives it back and leaves the bytes
after it. -/
def Obligations.DecodeOfEncode : Prop :=
  ∀ (i : Instr) (rest : List Byte), i.wellFormed = true → decode (encode i ++ rest) = .ok (i, rest)

/-- R97, R101: whatever decodes is a well-formed instruction, and the bytes it was read from are its
encoding: no instruction has a second word, and no bit of a word is ignored. -/
def Obligations.EncodeOfDecode : Prop :=
  ∀ (bs : List Byte) (i : Instr) (rest : List Byte), decode bs = .ok (i, rest) →
    i.wellFormed = true ∧ bs = encode i ++ rest

/-! ## The whole machine -/

/-- The state after reset meets the invariant (R370; the parameter values and the register values there
are the model's choice, log entries 1 to 12). -/
def Obligations.InvariantAtReset : Prop := State.reset.Inv

/-- Every step from a state that meets the invariant leads to one that does: memory and dirty keep their
canonical forms, dirty stays inside MEM, ES never holds more than ES_DEPTH entries (R31, R35, R56, R341;
log entry 22). -/
def Obligations.StepKeepsInvariant : Prop :=
  ∀ s t : State, s.Inv → step s = .next t → t.Inv

/-- No step changes the open parameters, and each uses up exactly one offer of the environment (R9, R336;
log entries 3, 11). -/
def Obligations.StepKeepsParameters : Prop :=
  ∀ s t : State, step s = .next t → t.params = s.params ∧ t.extIrq = s.extIrq.tail

/-- R24, R56: an instruction that is no store changes no byte of memory and makes no address dirty. -/
def Obligations.OnlyStoresWriteMemory : Prop :=
  ∀ (i : Instr) (s t : State), exec i s = .next t → isStore i = false → sameMemory s t

/-- R26: only CALL writes a link register (D4). -/
def Obligations.OnlyCallWritesLinks : Prop :=
  ∀ (i : Instr) (s t : State), exec i s = .next t → ¬sameLinks s t → ∃ lr disp, i = .call lr disp

/-- R26: only RTD reads a link register: any other instruction does the same on two states that differ in
the link registers alone (D4). -/
def Obligations.OnlyRtdReadsLinks : Prop :=
  ∀ (i : Instr) (s s' : State) (v1 v2 v3 : Word), (∀ lr offs imm, i ≠ .rtd lr offs imm) →
    s' = { s with lr1 := v1, lr2 := v2, lr3 := v3 } →
    (∀ t, exec i s = .next t → ∃ t', exec i s' = .next t' ∧ t'.pc = t.pc ∧ sameRegs t t' ∧
      sameTraps t t' ∧ sameMemory t t' ∧ sameInputs t t') ∧
    (∀ r, exec i s = .refused r → exec i s' = .refused r)

/-- R24: an instruction writes no general register but its Rt, or SP_REG for RTD; branches, BRA, CALL,
stores and the {SYS} group write none (D3). -/
def Obligations.OnlyTargetWritten : Prop :=
  ∀ (i : Instr) (s t : State) (r : RegNum), exec i s = .next t → targetReg s.params i ≠ some r →
    readReg t r = readReg s r

/-- R30, R31, R349: no instruction but BRK, IRQ, SYS and the three returns changes IL or ES (D24, D25). What
a step that takes an external interrupt does to them is `ExternalInterruptTaken`. -/
def Obligations.OnlyTrapsChangeTrapState : Prop :=
  ∀ (i : Instr) (s t : State), exec i s = .next t → isTrap i = false → sameTraps s t

/-- R28, R81: an instruction that does not transfer control ends with the pc moved on by its own length in
bytes. -/
def Obligations.SequentialAdvance : Prop :=
  ∀ (i : Instr) (s t : State), exec i s = .next t → isTransfer i = false →
    t.pc = s.pc + BitVec.ofNat 32 (encode i).length

/-- R35, R61, R64, R376: over any run of any length, dirty only grows and every byte not in it at the end
reads as it did at the start, so that the bytes a fetch accepts are the launch's (D11, D12). -/
def Obligations.CleanBytesUnchangedOverRuns : Prop :=
  ∀ (k : Nat) (s t : State), s.Inv → Sys2Proof.core.run k s = .next t →
    t.Inv ∧ (∀ a, a ∈ s.dirty → a ∈ t.dirty) ∧
      ∀ a, a ∉ t.dirty → t.mem.byteAt a = s.mem.byteAt a

/-- R370, R371: after reset the pc is RESET_PC, IL is 0, ES and dirty are empty, for every value of the
parameters (D12, D30); that every register reads 0 and every byte reads 0 is the model's choice (log
entries 1, 2, 12). -/
def Obligations.ResetState : Prop :=
  ∀ p : Params,
    (State.resetWith p).pc = p.resetPc ∧ (State.resetWith p).il = 0 ∧
    (State.resetWith p).es = [] ∧ (State.resetWith p).dirty = [] ∧
    (State.resetWith p).params = p ∧ State.reset = State.resetWith Config.launch ∧
    (∀ r, readReg (State.resetWith p) r = 0) ∧
    (∀ k, k ≠ 0 → readLink (State.resetWith p) k = some 0) ∧
    ∀ a, (State.resetWith p).mem.byteAt a = 0

/-- R22: under R0_ZERO register 0 reads 0 in every state and a write to it is dropped; without R0_ZERO a
write to it is read back like any other register's (decision D2). -/
def Obligations.RegisterZero : Prop :=
  ∀ (ra : RegNum) (imm : BitVec 16) (s : State),
    (s.params.r0Zero = true → readReg s 0 = 0 ∧
      ∃ t, exec (.addi 0 ra imm) s = .next t ∧ sameRegs s t ∧ t.pc = s.pc + 4) ∧
    (s.params.r0Zero = false →
      ∃ t, exec (.addi 0 ra imm) s = .next t ∧
        readReg t 0 = BitVec.ofInt 32 ((readReg s ra).toInt + imm.toInt))
end

