-- ==== Sys2Proof/Laws/Decode.lean ====
section
/-! SUPPORT. Taking the fields of each format out of a word the encoder wrote, and decoding the bytes of a
word. -/

namespace Sys2Proof

/-! ## Bytes and words -/

/-- The value of a field of a word. -/
theorem field_toNat {k : Nat} (w : BitVec k) (lo n : Nat) :
    (field w lo n).toNat = w.toNat / 2 ^ lo % 2 ^ n := by
  simp [field, Nat.shiftRight_eq_div_pow]

/-- A bit of a field of a word. -/
theorem field_getLsbD {k : Nat} (w : BitVec k) (lo n j : Nat) :
    (field w lo n).getLsbD j = (decide (j < n) && w.getLsbD (lo + j)) := by
  simp [field]

theorem bytes32_join (w : BitVec 32) :
    (field w 24 8 ++ field w 16 8 ++ field w 8 8 ++ field w 0 8 : BitVec 32) = w := by
  apply BitVec.eq_of_getLsbD_eq
  intro i hi
  simp only [field, BitVec.getLsbD_append, BitVec.getLsbD_extractLsb']
  interval_cases i <;> simp

theorem bytes24_join (w : BitVec 24) :
    (field w 16 8 ++ field w 8 8 ++ field w 0 8 : BitVec 24) = w := by
  apply BitVec.eq_of_getLsbD_eq
  intro i hi
  simp only [field, BitVec.getLsbD_append, BitVec.getLsbD_extractLsb']
  interval_cases i <;> simp

theorem opcodeOf_low32 (w : BitVec 32) : opcodeOf (field w 0 8) = field w 0 6 := by
  apply BitVec.eq_of_getLsbD_eq
  intro i hi
  simp only [opcodeOf, field, BitVec.getLsbD_extractLsb']
  interval_cases i <;> simp

theorem opcodeOf_low24 (w : BitVec 24) : opcodeOf (field w 0 8) = field w 0 6 := by
  apply BitVec.eq_of_getLsbD_eq
  intro i hi
  simp only [opcodeOf, field, BitVec.getLsbD_extractLsb']
  interval_cases i <;> simp

/-- The bytes of a 32-bit word whose opcode is a 4-byte one decode as that word. -/
theorem decode_bytes32 (w : BitVec 32) (rest : List Byte) (h : ilen (field w 0 6) = 4) :
    decode (bytes32 w ++ rest) = (decode32 w).map fun i => (i, rest) := by
  simp only [bytes32, List.cons_append, List.nil_append, decode, opcodeOf_low32, h, bytes32_join]
  simp

/-- The bytes of a 24-bit word whose opcode is a 3-byte one decode as that word. -/
theorem decode_bytes24 (w : BitVec 24) (rest : List Byte) (h : ilen (field w 0 6) = 3) :
    decode (bytes24 w ++ rest) = (decode24 w).map fun i => (i, rest) := by
  simp only [bytes24, List.cons_append, List.nil_append, decode, opcodeOf_low24, h, bytes24_join]
  simp

/-! ## The fields of each format -/

theorem field_wordRI (imm : BitVec 16) (ra rt : RegNum) (op : BitVec 6) :
    field (wordRI imm ra rt op) 0 6 = op ∧ field (wordRI imm ra rt op) 6 5 = rt ∧
    field (wordRI imm ra rt op) 11 5 = ra ∧ field (wordRI imm ra rt op) 16 16 = imm := by
  refine ⟨?_, ?_, ?_, ?_⟩ <;>
  · apply BitVec.eq_of_getLsbD_eq
    intro i hi
    simp only [field, wordRI, BitVec.getLsbD_append, BitVec.getLsbD_extractLsb']
    interval_cases i <;> simp

theorem field_wordR2 (func : BitVec 6) (rb ra rt : RegNum) :
    field (wordR2 func rb ra rt) 0 6 = 2 ∧ field (wordR2 func rb ra rt) 6 5 = rt ∧
    field (wordR2 func rb ra rt) 11 5 = ra ∧ field (wordR2 func rb ra rt) 16 5 = rb ∧
    field (wordR2 func rb ra rt) 21 5 = 0 ∧ field (wordR2 func rb ra rt) 26 6 = func := by
  refine ⟨?_, ?_, ?_, ?_, ?_, ?_⟩ <;>
  · apply BitVec.eq_of_getLsbD_eq
    intro i hi
    simp only [field, wordR2, BitVec.getLsbD_append, BitVec.getLsbD_extractLsb']
    interval_cases i <;> simp

theorem field_wordSH (func : BitVec 6) (f : Bool) (sel : BitVec 1) (n ra rt : BitVec 5) :
    field (wordSH func f sel n ra rt) 0 6 = 2 ∧ field (wordSH func f sel n ra rt) 6 5 = rt ∧
    field (wordSH func f sel n ra rt) 11 5 = ra ∧ field (wordSH func f sel n ra rt) 16 5 = n ∧
    field (wordSH func f sel n ra rt) 21 3 = 0 ∧ field (wordSH func f sel n ra rt) 24 1 = sel ∧
    field (wordSH func f sel n ra rt) 25 1 = BitVec.ofBool f ∧
    field (wordSH func f sel n ra rt) 26 6 = func := by
  refine ⟨?_, ?_, ?_, ?_, ?_, ?_, ?_, ?_⟩ <;>
  · apply BitVec.eq_of_getLsbD_eq
    intro i hi
    simp only [field, wordSH, BitVec.getLsbD_append, BitVec.getLsbD_extractLsb']
    interval_cases i <;> simp

theorem field_wordBR (disp : BitVec 16) (rb ra : RegNum) (op : BitVec 6) :
    field (wordBR disp rb ra op) 0 6 = op ∧ field (wordBR disp rb ra op) 6 5 = ra ∧
    field (wordBR disp rb ra op) 11 5 = rb ∧ field (wordBR disp rb ra op) 16 16 = disp :=
  field_wordRI disp rb ra op

theorem field_wordJ (disp : BitVec 24) (lr : BitVec 2) :
    field (wordJ disp lr) 0 6 = 18 ∧ field (wordJ disp lr) 6 2 = lr ∧
    field (wordJ disp lr) 8 24 = disp := by
  refine ⟨?_, ?_, ?_⟩ <;>
  · apply BitVec.eq_of_getLsbD_eq
    intro i hi
    simp only [field, wordJ, BitVec.getLsbD_append, BitVec.getLsbD_extractLsb']
    interval_cases i <;> simp

theorem field_wordRTD (imm : BitVec 16) (offs : BitVec 8) (lr : BitVec 2) :
    field (wordRTD imm offs lr) 0 6 = 17 ∧ field (wordRTD imm offs lr) 6 2 = lr ∧
    field (wordRTD imm offs lr) 8 8 = offs ∧ field (wordRTD imm offs lr) 16 16 = imm := by
  refine ⟨?_, ?_, ?_, ?_⟩ <;>
  · apply BitVec.eq_of_getLsbD_eq
    intro i hi
    simp only [field, wordRTD, BitVec.getLsbD_append, BitVec.getLsbD_extractLsb']
    interval_cases i <;> simp

theorem field_wordRet (func : BitVec 6) (offs : BitVec 8) (dep : BitVec 2) :
    field (wordRet func offs dep) 0 6 = 0 ∧ field (wordRet func offs dep) 6 2 = dep ∧
    field (wordRet func offs dep) 8 8 = offs ∧ field (wordRet func offs dep) 16 10 = 0 ∧
    field (wordRet func offs dep) 26 6 = func := by
  refine ⟨?_, ?_, ?_, ?_, ?_⟩ <;>
  · apply BitVec.eq_of_getLsbD_eq
    intro i hi
    simp only [field, wordRet, BitVec.getLsbD_append, BitVec.getLsbD_extractLsb']
    interval_cases i <;> simp

theorem field_wordM8 (disp : BitVec 8) (ra rt : RegNum) (op : BitVec 6) :
    field (wordM8 disp ra rt op) 0 6 = op ∧ field (wordM8 disp ra rt op) 6 5 = rt ∧
    field (wordM8 disp ra rt op) 11 5 = ra ∧ field (wordM8 disp ra rt op) 16 8 = disp := by
  refine ⟨?_, ?_, ?_, ?_⟩ <;>
  · apply BitVec.eq_of_getLsbD_eq
    intro i hi
    simp only [field, wordM8, BitVec.getLsbD_append, BitVec.getLsbD_extractLsb']
    interval_cases i <;> simp

theorem field_wordMX (sc : BitVec 2) (rb ra rt : RegNum) (op : BitVec 6) :
    field (wordMX sc rb ra rt op) 0 6 = op ∧ field (wordMX sc rb ra rt op) 6 5 = rt ∧
    field (wordMX sc rb ra rt op) 11 5 = ra ∧ field (wordMX sc rb ra rt op) 16 5 = rb ∧
    field (wordMX sc rb ra rt op) 21 2 = sc ∧ field (wordMX sc rb ra rt op) 23 1 = 0 := by
  refine ⟨?_, ?_, ?_, ?_, ?_, ?_⟩ <;>
  · apply BitVec.eq_of_getLsbD_eq
    intro i hi
    simp only [field, wordMX, BitVec.getLsbD_append, BitVec.getLsbD_extractLsb']
    interval_cases i <;> simp

theorem field_wordBRR (disp : BitVec 8) (cond : BitVec 3) (rc rb ra : RegNum) :
    field (wordBRR disp cond rc rb ra) 0 6 = 30 ∧ field (wordBRR disp cond rc rb ra) 6 5 = ra ∧
    field (wordBRR disp cond rc rb ra) 11 5 = rb ∧ field (wordBRR disp cond rc rb ra) 16 5 = rc ∧
    field (wordBRR disp cond rc rb ra) 21 3 = cond ∧
    field (wordBRR disp cond rc rb ra) 24 8 = disp := by
  refine ⟨?_, ?_, ?_, ?_, ?_, ?_⟩ <;>
  · apply BitVec.eq_of_getLsbD_eq
    intro i hi
    simp only [field, wordBRR, BitVec.getLsbD_append, BitVec.getLsbD_extractLsb']
    interval_cases i <;> simp

theorem field_wordIRQ (num : BitVec 9) (lvl : Level) :
    field (wordIRQ num lvl) 0 6 = 0 ∧ field (wordIRQ num lvl) 6 3 = lvl ∧
    field (wordIRQ num lvl) 9 7 = 0 ∧ field (wordIRQ num lvl) 16 9 = num ∧
    field (wordIRQ num lvl) 25 1 = 0 ∧ field (wordIRQ num lvl) 26 6 = 1 := by
  refine ⟨?_, ?_, ?_, ?_, ?_, ?_⟩ <;>
  · apply BitVec.eq_of_getLsbD_eq
    intro i hi
    simp only [field, wordIRQ, BitVec.getLsbD_append, BitVec.getLsbD_extractLsb']
    interval_cases i <;> simp

theorem field_wordSYS (num : BitVec 9) :
    field (wordSYS num) 0 6 = 0 ∧ field (wordSYS num) 6 10 = 0 ∧
    field (wordSYS num) 16 9 = num ∧ field (wordSYS num) 25 1 = 0 ∧
    field (wordSYS num) 26 6 = 2 := by
  refine ⟨?_, ?_, ?_, ?_, ?_⟩ <;>
  · apply BitVec.eq_of_getLsbD_eq
    intro i hi
    simp only [field, wordSYS, BitVec.getLsbD_append, BitVec.getLsbD_extractLsb']
    interval_cases i <;> simp

theorem field_wordFunc (func : BitVec 6) (rest : BitVec 20) :
    field (wordFunc func rest) 0 6 = 2 ∧ field (wordFunc func rest) 6 20 = rest ∧
    field (wordFunc func rest) 26 6 = func := by
  refine ⟨?_, ?_, ?_⟩ <;>
  · apply BitVec.eq_of_getLsbD_eq
    intro i hi
    simp only [field, wordFunc, BitVec.getLsbD_append, BitVec.getLsbD_extractLsb']
    interval_cases i <;> simp

theorem field_wordOp32 (rest : BitVec 26) (op : BitVec 6) :
    field (wordOp32 rest op) 0 6 = op ∧ field (wordOp32 rest op) 6 26 = rest := by
  refine ⟨?_, ?_⟩ <;>
  · apply BitVec.eq_of_getLsbD_eq
    intro i hi
    simp only [field, wordOp32, BitVec.getLsbD_append, BitVec.getLsbD_extractLsb']
    interval_cases i <;> simp

theorem field_wordOp24 (rest : BitVec 18) (op : BitVec 6) :
    field (wordOp24 rest op) 0 6 = op ∧ field (wordOp24 rest op) 6 18 = rest := by
  refine ⟨?_, ?_⟩ <;>
  · apply BitVec.eq_of_getLsbD_eq
    intro i hi
    simp only [field, wordOp24, BitVec.getLsbD_append, BitVec.getLsbD_extractLsb']
    interval_cases i <;> simp

end Sys2Proof
end

