-- ==== Sys2Proof/Laws/State.lean ====
section
/-! SUPPORT. One lemma per field per update of the state, so that no later proof unfolds an update. -/

namespace Sys2Proof.Machine

/-! ## `setPc` -/

@[simp] theorem setPc_x (v : Word) (s : State) : (setPc v s).x = s.x := rfl
@[simp] theorem setPc_lr1 (v : Word) (s : State) : (setPc v s).lr1 = s.lr1 := rfl
@[simp] theorem setPc_lr2 (v : Word) (s : State) : (setPc v s).lr2 = s.lr2 := rfl
@[simp] theorem setPc_lr3 (v : Word) (s : State) : (setPc v s).lr3 = s.lr3 := rfl
@[simp] theorem setPc_pc (v : Word) (s : State) : (setPc v s).pc = v := rfl
@[simp] theorem setPc_il (v : Word) (s : State) : (setPc v s).il = s.il := rfl
@[simp] theorem setPc_es (v : Word) (s : State) : (setPc v s).es = s.es := rfl
@[simp] theorem setPc_mem (v : Word) (s : State) : (setPc v s).mem = s.mem := rfl
@[simp] theorem setPc_dirty (v : Word) (s : State) : (setPc v s).dirty = s.dirty := rfl
@[simp] theorem setPc_params (v : Word) (s : State) : (setPc v s).params = s.params := rfl
@[simp] theorem setPc_extIrq (v : Word) (s : State) : (setPc v s).extIrq = s.extIrq := rfl

/-! ## `advance` -/

@[simp] theorem advance_x (n : Word) (s : State) : (advance n s).x = s.x := rfl
@[simp] theorem advance_lr1 (n : Word) (s : State) : (advance n s).lr1 = s.lr1 := rfl
@[simp] theorem advance_lr2 (n : Word) (s : State) : (advance n s).lr2 = s.lr2 := rfl
@[simp] theorem advance_lr3 (n : Word) (s : State) : (advance n s).lr3 = s.lr3 := rfl
@[simp] theorem advance_pc (n : Word) (s : State) : (advance n s).pc = s.pc + n := rfl
@[simp] theorem advance_il (n : Word) (s : State) : (advance n s).il = s.il := rfl
@[simp] theorem advance_es (n : Word) (s : State) : (advance n s).es = s.es := rfl
@[simp] theorem advance_mem (n : Word) (s : State) : (advance n s).mem = s.mem := rfl
@[simp] theorem advance_dirty (n : Word) (s : State) : (advance n s).dirty = s.dirty := rfl
@[simp] theorem advance_params (n : Word) (s : State) : (advance n s).params = s.params := rfl
@[simp] theorem advance_extIrq (n : Word) (s : State) : (advance n s).extIrq = s.extIrq := rfl

/-! ## `dropOffer` -/

@[simp] theorem dropOffer_x (s : State) : (dropOffer s).x = s.x := rfl
@[simp] theorem dropOffer_lr1 (s : State) : (dropOffer s).lr1 = s.lr1 := rfl
@[simp] theorem dropOffer_lr2 (s : State) : (dropOffer s).lr2 = s.lr2 := rfl
@[simp] theorem dropOffer_lr3 (s : State) : (dropOffer s).lr3 = s.lr3 := rfl
@[simp] theorem dropOffer_pc (s : State) : (dropOffer s).pc = s.pc := rfl
@[simp] theorem dropOffer_il (s : State) : (dropOffer s).il = s.il := rfl
@[simp] theorem dropOffer_es (s : State) : (dropOffer s).es = s.es := rfl
@[simp] theorem dropOffer_mem (s : State) : (dropOffer s).mem = s.mem := rfl
@[simp] theorem dropOffer_dirty (s : State) : (dropOffer s).dirty = s.dirty := rfl
@[simp] theorem dropOffer_params (s : State) : (dropOffer s).params = s.params := rfl
@[simp] theorem dropOffer_extIrq (s : State) : (dropOffer s).extIrq = s.extIrq.tail := rfl

/-! ## `writeReg`: every field but `x` -/

@[simp] theorem writeReg_lr1 (i : RegNum) (v : Word) (s : State) :
    (writeReg i v s).lr1 = s.lr1 := by unfold writeReg; split <;> rfl
@[simp] theorem writeReg_lr2 (i : RegNum) (v : Word) (s : State) :
    (writeReg i v s).lr2 = s.lr2 := by unfold writeReg; split <;> rfl
@[simp] theorem writeReg_lr3 (i : RegNum) (v : Word) (s : State) :
    (writeReg i v s).lr3 = s.lr3 := by unfold writeReg; split <;> rfl
@[simp] theorem writeReg_pc (i : RegNum) (v : Word) (s : State) :
    (writeReg i v s).pc = s.pc := by unfold writeReg; split <;> rfl
@[simp] theorem writeReg_il (i : RegNum) (v : Word) (s : State) :
    (writeReg i v s).il = s.il := by unfold writeReg; split <;> rfl
@[simp] theorem writeReg_es (i : RegNum) (v : Word) (s : State) :
    (writeReg i v s).es = s.es := by unfold writeReg; split <;> rfl
@[simp] theorem writeReg_mem (i : RegNum) (v : Word) (s : State) :
    (writeReg i v s).mem = s.mem := by unfold writeReg; split <;> rfl
@[simp] theorem writeReg_dirty (i : RegNum) (v : Word) (s : State) :
    (writeReg i v s).dirty = s.dirty := by unfold writeReg; split <;> rfl
@[simp] theorem writeReg_params (i : RegNum) (v : Word) (s : State) :
    (writeReg i v s).params = s.params := by unfold writeReg; split <;> rfl
@[simp] theorem writeReg_extIrq (i : RegNum) (v : Word) (s : State) :
    (writeReg i v s).extIrq = s.extIrq := by unfold writeReg; split <;> rfl

/-! ## `writeLink`: every field but the link registers -/

@[simp] theorem writeLink_x (k : BitVec 2) (v : Word) (s : State) :
    (writeLink k v s).x = s.x := by unfold writeLink; split <;> rfl
@[simp] theorem writeLink_pc (k : BitVec 2) (v : Word) (s : State) :
    (writeLink k v s).pc = s.pc := by unfold writeLink; split <;> rfl
@[simp] theorem writeLink_il (k : BitVec 2) (v : Word) (s : State) :
    (writeLink k v s).il = s.il := by unfold writeLink; split <;> rfl
@[simp] theorem writeLink_es (k : BitVec 2) (v : Word) (s : State) :
    (writeLink k v s).es = s.es := by unfold writeLink; split <;> rfl
@[simp] theorem writeLink_mem (k : BitVec 2) (v : Word) (s : State) :
    (writeLink k v s).mem = s.mem := by unfold writeLink; split <;> rfl
@[simp] theorem writeLink_dirty (k : BitVec 2) (v : Word) (s : State) :
    (writeLink k v s).dirty = s.dirty := by unfold writeLink; split <;> rfl
@[simp] theorem writeLink_params (k : BitVec 2) (v : Word) (s : State) :
    (writeLink k v s).params = s.params := by unfold writeLink; split <;> rfl
@[simp] theorem writeLink_extIrq (k : BitVec 2) (v : Word) (s : State) :
    (writeLink k v s).extIrq = s.extIrq := by unfold writeLink; split <;> rfl

/-! ## `storeBytes`: every field but memory and `dirty` -/

@[simp] theorem storeBytes_x (bs : List Byte) (a : Nat) (s : State) :
    (storeBytes bs a s).x = s.x := by
  induction bs generalizing a s with
  | nil => rfl
  | cons b rest ih => simp [storeBytes, ih]
@[simp] theorem storeBytes_lr1 (bs : List Byte) (a : Nat) (s : State) :
    (storeBytes bs a s).lr1 = s.lr1 := by
  induction bs generalizing a s with
  | nil => rfl
  | cons b rest ih => simp [storeBytes, ih]
@[simp] theorem storeBytes_lr2 (bs : List Byte) (a : Nat) (s : State) :
    (storeBytes bs a s).lr2 = s.lr2 := by
  induction bs generalizing a s with
  | nil => rfl
  | cons b rest ih => simp [storeBytes, ih]
@[simp] theorem storeBytes_lr3 (bs : List Byte) (a : Nat) (s : State) :
    (storeBytes bs a s).lr3 = s.lr3 := by
  induction bs generalizing a s with
  | nil => rfl
  | cons b rest ih => simp [storeBytes, ih]
@[simp] theorem storeBytes_pc (bs : List Byte) (a : Nat) (s : State) :
    (storeBytes bs a s).pc = s.pc := by
  induction bs generalizing a s with
  | nil => rfl
  | cons b rest ih => simp [storeBytes, ih]
@[simp] theorem storeBytes_il (bs : List Byte) (a : Nat) (s : State) :
    (storeBytes bs a s).il = s.il := by
  induction bs generalizing a s with
  | nil => rfl
  | cons b rest ih => simp [storeBytes, ih]
@[simp] theorem storeBytes_es (bs : List Byte) (a : Nat) (s : State) :
    (storeBytes bs a s).es = s.es := by
  induction bs generalizing a s with
  | nil => rfl
  | cons b rest ih => simp [storeBytes, ih]
@[simp] theorem storeBytes_params (bs : List Byte) (a : Nat) (s : State) :
    (storeBytes bs a s).params = s.params := by
  induction bs generalizing a s with
  | nil => rfl
  | cons b rest ih => simp [storeBytes, ih]
@[simp] theorem storeBytes_extIrq (bs : List Byte) (a : Nat) (s : State) :
    (storeBytes bs a s).extIrq = s.extIrq := by
  induction bs generalizing a s with
  | nil => rfl
  | cons b rest ih => simp [storeBytes, ih]

end Sys2Proof.Machine
end

