-- ==== Sys2Proof/Laws/Operands.lean ====
section
/-! SUPPORT. Reading registers after an update. -/

namespace Sys2Proof.Machine

/-- A register number is below the size of the register file. -/
theorem regNum_inj {i j : RegNum} : i.toNat = j.toNat ↔ i = j := BitVec.toNat_inj

/-- Reading any register after a write: the written one holds the value unless it is hard-wired. -/
theorem readReg_writeReg (s : State) (i j : RegNum) (v : Word) :
    readReg (writeReg i v s) j =
      if j = i ∧ hardZero s.params i = false then v else readReg s j := by
  unfold readReg writeReg
  by_cases hi : hardZero s.params i = true
  · simp [hi]
  · by_cases hj : hardZero s.params j = true
    · have : j ≠ i := by rintro rfl; exact hi hj
      simp [hi, hj, this]
    · simp [hi, hj, Vector.getElem_set, regNum_inj, eq_comm]

/-- Reading depends on the register file and the parameters only. -/
theorem readReg_congr {s t : State} (hx : t.x = s.x) (hp : t.params = s.params) (i : RegNum) :
    readReg t i = readReg s i := by simp [readReg, hx, hp]

@[simp] theorem readReg_setPc (v : Word) (s : State) (i : RegNum) :
    readReg (setPc v s) i = readReg s i := rfl
@[simp] theorem readReg_advance (n : Word) (s : State) (i : RegNum) :
    readReg (advance n s) i = readReg s i := rfl
@[simp] theorem readReg_dropOffer (s : State) (i : RegNum) :
    readReg (dropOffer s) i = readReg s i := rfl
@[simp] theorem readReg_writeLink (k : BitVec 2) (v : Word) (s : State) (i : RegNum) :
    readReg (writeLink k v s) i = readReg s i := readReg_congr (by simp) (by simp) i
@[simp] theorem readReg_storeBytes (bs : List Byte) (a : Nat) (s : State) (i : RegNum) :
    readReg (storeBytes bs a s) i = readReg s i := readReg_congr (by simp) (by simp) i

/-- A hard-wired register reads as zero (R22). -/
theorem readReg_hardZero {s : State} {i : RegNum} (h : hardZero s.params i = true) :
    readReg s i = 0 := by simp [readReg, h]

/-- Link register `k` after link register `j` is written. -/
theorem readLink_writeLink (s : State) (j k : BitVec 2) (v : Word) (hj : j ≠ 0) :
    readLink (writeLink j v s) k = if k = j then some v else readLink s k := by
  have hcases : ∀ w : BitVec 2, w = 0 ∨ w = 1 ∨ w = 2 ∨ w = 3 := by decide
  rcases hcases j with rfl | rfl | rfl | rfl <;> rcases hcases k with rfl | rfl | rfl | rfl <;>
    first
      | exact absurd rfl hj
      | simp [readLink, writeLink]

/-- A link register field that is not 0 names a register. -/
theorem readLink_isSome (s : State) (k : BitVec 2) (hk : k ≠ 0) : ∃ v, readLink s k = some v := by
  have hcases : ∀ w : BitVec 2, w = 0 ∨ w = 1 ∨ w = 2 ∨ w = 3 := by decide
  rcases hcases k with rfl | rfl | rfl | rfl
  · exact absurd rfl hk
  · exact ⟨s.lr1, rfl⟩
  · exact ⟨s.lr2, rfl⟩
  · exact ⟨s.lr3, rfl⟩

/-! ## Immediates -/

theorem zext_getLsbD {n : Nat} (h : n ≤ 32) (v : BitVec n) (j : Nat) :
    (zext v).getLsbD j = v.getLsbD j := by
  simp only [zext, BitVec.getLsbD_setWidth, Bool.and_eq_right_iff_imp, decide_eq_true_eq]
  intro hj
  exact lt_of_lt_of_le (BitVec.lt_of_getLsbD hj) h

theorem zext_toNat {n : Nat} (h : n ≤ 32) (v : BitVec n) : (zext v).toNat = v.toNat := by
  have hv : v.toNat < 2 ^ 32 := lt_of_lt_of_le v.isLt (Nat.pow_le_pow_right (by omega) h)
  simp only [zext, BitVec.toNat_setWidth]
  omega

theorem sext_toInt {n : Nat} (h : n ≤ 32) (v : BitVec n) : (sext v).toInt = v.toInt := by
  rw [sext, BitVec.toInt_signExtend_of_le h]

theorem sext_eq_ofInt {n : Nat} (v : BitVec n) : sext v = BitVec.ofInt 32 v.toInt := by
  simp [sext, BitVec.signExtend]

theorem upper16_toNat (v : BitVec 16) : (upper16 v).toNat = v.toNat * 65536 := by
  have := v.isLt
  simp only [upper16, BitVec.toNat_shiftLeft, zext_toNat (show 16 ≤ 32 by omega),
    Nat.shiftLeft_eq]
  omega

theorem shiftCount_toNat (v : Word) : (shiftCount v).toNat = v.toNat % 32 := by
  simp [shiftCount, field]

end Sys2Proof.Machine
end

