-- ==== Sys2Proof/Laws/Formats.lean ====
section
/-! SUPPORT. The word of a format as the or of its shifted fields, what the decoder of a format answers on
its words, and decoding the bytes of one word with no bytes after it. -/

namespace Sys2Proof

open Machine

/-! ## One word -/

/-- The bytes of one 32-bit word whose opcode is a 4-byte one. -/
theorem decode_of_decode32 {w : BitVec 32} {i : Instr} (op : BitVec 6) (hop : field w 0 6 = op)
    (hl : ilen op = 4) (h : decode32 w = .ok i) : decode (bytes32 w) = .ok (i, []) := by
  have hw := decode_bytes32 w [] (by rw [hop, hl])
  rw [List.append_nil, h] at hw
  exact hw

/-- The bytes of one 24-bit word whose opcode is a 3-byte one. -/
theorem decode_of_decode24 {w : BitVec 24} {i : Instr} (op : BitVec 6) (hop : field w 0 6 = op)
    (hl : ilen op = 3) (h : decode24 w = .ok i) : decode (bytes24 w) = .ok (i, []) := by
  have hw := decode_bytes24 w [] (by rw [hop, hl])
  rw [List.append_nil, h] at hw
  exact hw

/-- The bytes of one word of the {R2} group. -/
theorem decode_of_decodeR2 {w : BitVec 32} {i : Instr} (hop : field w 0 6 = 2)
    (h : decodeR2 w = .ok i) : decode (bytes32 w) = .ok (i, []) :=
  decode_of_decode32 2 hop rfl (by unfold decode32; rw [hop]; exact h)

/-! ## Formats -/

theorem decodeRI_wordRI (imm : BitVec 16) (ra rt : RegNum) (op : BitVec 6)
    (mk : RegNum → RegNum → BitVec 16 → Instr) :
    decodeRI (wordRI imm ra rt op) mk = .ok (mk rt ra imm) := by
  simp only [decodeRI, field_wordRI imm ra rt op]

theorem decodeBR_wordBR (disp : BitVec 16) (rb ra : RegNum) (op : BitVec 6)
    (mk : RegNum → RegNum → BitVec 16 → Instr) :
    decodeBR (wordBR disp rb ra op) mk = .ok (mk ra rb disp) := by
  simp only [decodeBR, field_wordBR disp rb ra op]

theorem decodeR2Form_wordR2 (func : BitVec 6) (rb ra rt : RegNum)
    (mk : RegNum → RegNum → RegNum → Instr) :
    decodeR2Form (wordR2 func rb ra rt) mk = .ok (mk rt ra rb) := by
  simp only [decodeR2Form, acceptIf, field_wordR2 func rb ra rt]
  rfl

theorem decodeShift_wordSH (func : BitVec 6) (n ra rt : RegNum)
    (reg : RegNum → RegNum → RegNum → Instr) (immf : RegNum → RegNum → BitVec 5 → Instr) :
    decodeShift (wordSH func false 0 n ra rt) reg immf = .ok (reg rt ra n) ∧
    decodeShift (wordSH func false 1 n ra rt) reg immf = .ok (immf rt ra n) := by
  constructor <;> simp only [decodeShift, acceptIf, field_wordSH] <;> rfl

theorem decodeAsl_wordSH (func : BitVec 6) (f : Bool) (n ra rt : RegNum) :
    decodeAsl (wordSH func f 0 n ra rt) = .ok (.asl rt ra n f) ∧
    decodeAsl (wordSH func f 1 n ra rt) = .ok (.asli rt ra n f) := by
  constructor <;> cases f <;> simp only [decodeAsl, acceptIf, field_wordSH] <;> rfl

/-! ## Words as shifted fields -/

theorem wordRI_eq_or (imm : BitVec 16) (ra rt : RegNum) (op : BitVec 6) :
    (zext imm <<< 16 ||| zext ra <<< 11 ||| zext rt <<< 6 ||| zext op) =
      wordRI imm ra rt op := by
  apply BitVec.eq_of_getLsbD_eq
  intro j hj
  simp only [wordRI, BitVec.getLsbD_append, BitVec.getLsbD_or, BitVec.getLsbD_shiftLeft,
    zext_getLsbD (n := 16) (by omega), zext_getLsbD (n := 5) (by omega), zext_getLsbD (n := 6) (by omega)]
  interval_cases j <;> simp

theorem wordRI_no_base_eq_or (imm : BitVec 16) (rt : RegNum) :
    (zext imm <<< 16 ||| zext rt <<< 6 ||| 1#32) =
      wordRI imm 0 rt 1 := by
  apply BitVec.eq_of_getLsbD_eq
  intro j hj
  simp only [wordRI, BitVec.getLsbD_append, BitVec.getLsbD_or, BitVec.getLsbD_shiftLeft,
    zext_getLsbD (n := 16) (by omega), zext_getLsbD (n := 5) (by omega)]
  interval_cases j <;> simp

theorem wordR2_eq_or (func : BitVec 6) (rb ra rt : RegNum) :
    (zext func <<< 26 ||| zext rb <<< 16 ||| zext ra <<< 11 ||| zext rt <<< 6 ||| 2#32) =
      wordR2 func rb ra rt := by
  apply BitVec.eq_of_getLsbD_eq
  intro j hj
  simp only [wordR2, BitVec.getLsbD_append, BitVec.getLsbD_or, BitVec.getLsbD_shiftLeft,
    zext_getLsbD (n := 6) (by omega), zext_getLsbD (n := 5) (by omega)]
  interval_cases j <;> simp

theorem wordSH_register_eq_or (func : BitVec 6) (f : Bool) (n ra rt : RegNum) :
    (zext func <<< 26 ||| zext (BitVec.ofBool f) <<< 25 ||| zext n <<< 16 ||| zext ra <<< 11 |||
      zext rt <<< 6 ||| 2#32) =
      wordSH func f 0 n ra rt := by
  apply BitVec.eq_of_getLsbD_eq
  intro j hj
  simp only [wordSH, BitVec.getLsbD_append, BitVec.getLsbD_or, BitVec.getLsbD_shiftLeft,
    zext_getLsbD (n := 6) (by omega), zext_getLsbD (n := 5) (by omega), zext_getLsbD (n := 1) (by omega)]
  interval_cases j <;> simp

theorem wordSH_immediate_eq_or (func : BitVec 6) (f : Bool) (n ra rt : RegNum) :
    (zext func <<< 26 ||| zext (BitVec.ofBool f) <<< 25 ||| 1#32 <<< 24 ||| zext n <<< 16 |||
      zext ra <<< 11 ||| zext rt <<< 6 ||| 2#32) =
      wordSH func f 1 n ra rt := by
  apply BitVec.eq_of_getLsbD_eq
  intro j hj
  simp only [wordSH, BitVec.getLsbD_append, BitVec.getLsbD_or, BitVec.getLsbD_shiftLeft,
    zext_getLsbD (n := 6) (by omega), zext_getLsbD (n := 5) (by omega), zext_getLsbD (n := 1) (by omega)]
  interval_cases j <;> simp

theorem wordBRR_eq_or (disp : BitVec 8) (cond : BitVec 3) (rc rb ra : RegNum) :
    (zext disp <<< 24 ||| zext cond <<< 21 ||| zext rc <<< 16 ||| zext rb <<< 11 ||| zext ra <<< 6 |||
      30#32) =
      wordBRR disp cond rc rb ra := by
  apply BitVec.eq_of_getLsbD_eq
  intro j hj
  simp only [wordBRR, BitVec.getLsbD_append, BitVec.getLsbD_or, BitVec.getLsbD_shiftLeft,
    zext_getLsbD (n := 8) (by omega), zext_getLsbD (n := 3) (by omega), zext_getLsbD (n := 5) (by omega)]
  interval_cases j <;> simp

theorem wordFunc_eq_or (func : BitVec 6) (rest : BitVec 20) :
    (zext func <<< 26 ||| zext rest <<< 6 ||| 2#32) =
      wordFunc func rest := by
  apply BitVec.eq_of_getLsbD_eq
  intro j hj
  simp only [wordFunc, BitVec.getLsbD_append, BitVec.getLsbD_or, BitVec.getLsbD_shiftLeft,
    zext_getLsbD (n := 6) (by omega), zext_getLsbD (n := 20) (by omega)]
  interval_cases j <;> simp

theorem wordOp32_eq_or (rest : BitVec 26) (op : BitVec 6) :
    (zext rest <<< 6 ||| zext op) =
      wordOp32 rest op := by
  apply BitVec.eq_of_getLsbD_eq
  intro j hj
  simp only [wordOp32, BitVec.getLsbD_append, BitVec.getLsbD_or, BitVec.getLsbD_shiftLeft,
    zext_getLsbD (n := 26) (by omega), zext_getLsbD (n := 6) (by omega)]
  interval_cases j <;> simp

theorem wordOp24_eq_or (rest : BitVec 18) (op : BitVec 6) :
    (rest.setWidth 24 <<< 6 ||| op.setWidth 24) =
      wordOp24 rest op := by
  apply BitVec.eq_of_getLsbD_eq
  intro j hj
  simp only [wordOp24, BitVec.getLsbD_append, BitVec.getLsbD_or, BitVec.getLsbD_shiftLeft,
    BitVec.getLsbD_setWidth]
  interval_cases j <;> simp

end Sys2Proof
end

