-- ==== Sys2Proof/Laws/Memory.lean ====
section
/-! SUPPORT. Memory as canonical data: reading after writing, and every operation keeps the canonical
forms of memory and of `dirty`. -/

namespace Sys2Proof.Machine

/-! ## Cells -/

theorem cellsFrom_mono {lo lo' : Nat} (h : lo' ≤ lo) :
    ∀ {l : List Host.Cell}, cellsFrom lo l = true → cellsFrom lo' l = true
  | [], _ => rfl
  | (a, b) :: rest, hl => by
    simp only [cellsFrom, Bool.and_eq_true, decide_eq_true_eq] at hl ⊢
    exact ⟨⟨⟨by omega, hl.1.1.2⟩, hl.1.2⟩, hl.2⟩

/-- An address below every listed one reads as an unlisted address. -/
theorem cellAt_below {l : List Host.Cell} :
    ∀ {lo a : Nat}, cellsFrom lo l = true → a < lo → cellAt l a = blankByte := by
  induction l with
  | nil => intros; rfl
  | cons c rest ih =>
    obtain ⟨a', b'⟩ := c
    intro lo a hl ha
    simp only [cellsFrom, Bool.and_eq_true, decide_eq_true_eq] at hl
    have hne : a ≠ a' := by omega
    simp only [cellAt, if_neg hne]
    exact ih hl.2 (by omega)

/-- Reading a byte after one is written, in a canonical list. -/
theorem cellAt_setCell {l : List Host.Cell} (a : Nat) (b : Byte) (c : Nat) :
    ∀ {lo : Nat}, cellsFrom lo l = true →
      cellAt (setCell l a b) c = if c = a then b else cellAt l c := by
  induction l with
  | nil =>
    intro lo _
    unfold setCell
    split
    · rename_i hb; subst hb; simp [cellAt]
    · simp [cellAt]
  | cons d rest ih =>
    obtain ⟨a', b'⟩ := d
    intro lo hl
    have hl' := hl
    simp only [cellsFrom, Bool.and_eq_true, decide_eq_true_eq] at hl'
    unfold setCell
    by_cases h1 : a < a'
    · rw [if_pos h1]
      split
      · rename_i hb; subst hb
        by_cases hc : c = a
        · subst hc
          rw [if_pos rfl]
          have hne : c ≠ a' := by omega
          simp only [cellAt, if_neg hne]
          exact cellAt_below hl'.2 (by omega)
        · rw [if_neg hc]
      · rw [cellAt]
    · rw [if_neg h1]
      by_cases h2 : a = a'
      · subst h2
        rw [if_pos rfl]
        split
        · rename_i hb; subst hb
          by_cases hc : c = a
          · subst hc
            rw [if_pos rfl]
            exact cellAt_below hl'.2 (by omega)
          · simp [cellAt, hc]
        · by_cases hc : c = a <;> simp [cellAt, hc]
      · rw [if_neg h2]
        simp only [cellAt]
        by_cases hc : c = a'
        · subst hc
          have : c ≠ a := by omega
          simp [this]
        · simp only [if_neg hc]
          exact ih hl'.2

/-- Writing a byte keeps the canonical form. -/
theorem cellsFrom_setCell {l : List Host.Cell} {a : Nat} (b : Byte) (h32 : a < 4294967296) :
    ∀ {lo : Nat}, lo ≤ a → cellsFrom lo l = true → cellsFrom lo (setCell l a b) = true := by
  induction l with
  | nil =>
    intro lo hlo _
    unfold setCell
    split
    · rfl
    · rename_i hb; simp [cellsFrom, hlo, h32, hb]
  | cons d rest ih =>
    obtain ⟨a', b'⟩ := d
    intro lo hlo hl
    have hl' := hl
    simp only [cellsFrom, Bool.and_eq_true, decide_eq_true_eq] at hl'
    unfold setCell
    by_cases h1 : a < a'
    · rw [if_pos h1]
      split
      · exact hl
      · rename_i hb
        simp only [cellsFrom, Bool.and_eq_true, decide_eq_true_eq]
        exact ⟨⟨⟨hlo, h32⟩, by simpa using hb⟩, ⟨⟨by omega, hl'.1.1.2⟩, hl'.1.2⟩, hl'.2⟩
    · rw [if_neg h1]
      by_cases h2 : a = a'
      · subst h2
        rw [if_pos rfl]
        split
        · exact cellsFrom_mono (by omega) hl'.2
        · rename_i hb
          simp only [cellsFrom, Bool.and_eq_true, decide_eq_true_eq]
          exact ⟨⟨⟨hlo, h32⟩, by simpa using hb⟩, hl'.2⟩
      · rw [if_neg h2]
        simp only [cellsFrom, Bool.and_eq_true, decide_eq_true_eq]
        exact ⟨hl'.1, ih (by omega) hl'.2⟩

/-! ## Memory -/

theorem byteAt_setByte {m : Memory} (h : m.wf = true) (a : Nat) (b : Byte) (c : Nat) :
    (m.setByte a b).byteAt c = if c = a then b else m.byteAt c := cellAt_setCell a b c h

theorem wf_setByte {m : Memory} (h : m.wf = true) {a : Nat} (b : Byte) (h32 : a < 4294967296) :
    (m.setByte a b).wf = true := cellsFrom_setCell b h32 (Nat.zero_le a) h

/-- Two canonical lists that read alike everywhere are equal data. -/
theorem cells_ext {l m : List Host.Cell} : ∀ {lo : Nat}, cellsFrom lo l = true →
    cellsFrom lo m = true → (∀ a, cellAt l a = cellAt m a) → l = m := by
  induction l generalizing m with
  | nil =>
    intro lo _ hm h
    cases m with
    | nil => rfl
    | cons c rest =>
      obtain ⟨a, b⟩ := c
      simp only [cellsFrom, Bool.and_eq_true, decide_eq_true_eq] at hm
      have := h a
      simp only [cellAt, if_true] at this
      simp [← this] at hm
  | cons c rest ih =>
    obtain ⟨a, b⟩ := c
    intro lo hl hm h
    simp only [cellsFrom, Bool.and_eq_true, decide_eq_true_eq] at hl
    cases m with
    | nil =>
      have := h a
      simp only [cellAt, if_true] at this
      simp [this] at hl
    | cons d rest' =>
      obtain ⟨a', b'⟩ := d
      simp only [cellsFrom, Bool.and_eq_true, decide_eq_true_eq] at hm
      have ha := h a
      have ha' := h a'
      simp only [cellAt, if_true] at ha ha'
      have haa : a = a' := by
        by_contra hne
        rw [if_neg hne] at ha
        rw [if_neg (Ne.symm hne)] at ha'
        rcases Nat.lt_or_gt_of_ne hne with hlt | hgt
        · rw [cellAt_below hm.2 (by omega)] at ha
          simp [ha] at hl
        · rw [cellAt_below hl.2 (by omega)] at ha'
          simp [← ha'] at hm
      subst haa
      simp only [if_true] at ha
      subst ha
      congr 1
      refine ih hl.2 hm.2 fun c => ?_
      have hc := h c
      by_cases hca : c = a
      · subst hca
        rw [cellAt_below hl.2 (by omega), cellAt_below hm.2 (by omega)]
      · simpa [cellAt, hca] using hc

theorem memory_ext {m n : Memory} (hm : m.wf = true) (hn : n.wf = true)
    (h : ∀ a, m.byteAt a = n.byteAt a) : m = n := by
  cases m; cases n; congr 1; exact cells_ext hm hn h

/-! ## The set of dirty addresses -/

theorem addrsFrom_mono {lo lo' : Nat} (h : lo' ≤ lo) :
    ∀ {l : List Nat}, addrsFrom lo l = true → addrsFrom lo' l = true
  | [], _ => rfl
  | a :: rest, hl => by
    simp only [addrsFrom, Bool.and_eq_true, decide_eq_true_eq] at hl ⊢
    exact ⟨⟨by omega, hl.1.2⟩, hl.2⟩

@[simp] theorem mem_insertAddr {l : List Nat} {a c : Nat} :
    c ∈ insertAddr l a ↔ c = a ∨ c ∈ l := by
  induction l with
  | nil => simp [insertAddr]
  | cons a' rest ih =>
    unfold insertAddr
    split
    · simp
    · split
      · rename_i h; subst h; simp
      · simp only [List.mem_cons, ih]; tauto

theorem addrsFrom_insertAddr {l : List Nat} {a : Nat} (h32 : a < 4294967296) :
    ∀ {lo : Nat}, lo ≤ a → addrsFrom lo l = true → addrsFrom lo (insertAddr l a) = true := by
  induction l with
  | nil => intro lo hlo _; simp [insertAddr, addrsFrom, hlo, h32]
  | cons a' rest ih =>
    intro lo hlo hl
    have hl' := hl
    simp only [addrsFrom, Bool.and_eq_true, decide_eq_true_eq] at hl'
    unfold insertAddr
    split
    · simp only [addrsFrom, Bool.and_eq_true, decide_eq_true_eq]
      exact ⟨⟨hlo, h32⟩, ⟨by omega, hl'.1.2⟩, hl'.2⟩
    · split
      · exact hl
      · simp only [addrsFrom, Bool.and_eq_true, decide_eq_true_eq]
        exact ⟨hl'.1, ih (by omega) hl'.2⟩

/-! ## Storing several bytes -/

theorem bytesOf_length (v : Word) (n : Nat) : (bytesOf v n).length = n := by
  induction n generalizing v with
  | zero => rfl
  | succ n ih => simp [bytesOf, ih]

theorem bytesOf_getElem (v : Word) (n k : Nat) (h : k < (bytesOf v n).length) :
    (bytesOf v n)[k] = field (v >>> (8 * k)) 0 8 := by
  induction n generalizing v k with
  | zero => simp [bytesOf] at h
  | succ n ih =>
    cases k with
    | zero => simp [bytesOf]
    | succ k =>
      simp only [bytesOf, List.getElem_cons_succ]
      rw [ih, ← BitVec.shiftRight_add]
      congr 2
      omega

/-- Which addresses are dirty after bytes are stored. -/
theorem mem_storeBytes_dirty {bs : List Byte} {c : Nat} : ∀ {a : Nat} {s : State},
    c ∈ (storeBytes bs a s).dirty ↔ (a ≤ c ∧ c < a + bs.length) ∨ c ∈ s.dirty := by
  induction bs with
  | nil => intro a s; simp [storeBytes]
  | cons b rest ih =>
    intro a s
    simp only [storeBytes, ih, mem_insertAddr, List.length_cons]
    constructor
    · rintro (h | rfl | h)
      · left; omega
      · left; omega
      · exact .inr h
    · rintro (h | h)
      · by_cases hc : c = a
        · exact .inr (.inl hc)
        · left; omega
      · exact .inr (.inr h)

theorem wf_storeBytes {bs : List Byte} : ∀ {a : Nat} {s : State}, a + bs.length ≤ 4294967296 →
    s.mem.wf = true → (storeBytes bs a s).mem.wf = true := by
  induction bs with
  | nil => intro a s _ h; exact h
  | cons b rest ih =>
    intro a s ha h
    simp only [List.length_cons] at ha
    exact ih (by omega) (wf_setByte h b (by omega))

theorem dirty_storeBytes {bs : List Byte} : ∀ {a : Nat} {s : State}, a + bs.length ≤ 4294967296 →
    addrsFrom 0 s.dirty = true → addrsFrom 0 (storeBytes bs a s).dirty = true := by
  induction bs with
  | nil => intro a s _ h; exact h
  | cons b rest ih =>
    intro a s ha h
    simp only [List.length_cons] at ha
    exact ih (by omega) (addrsFrom_insertAddr (by omega) (Nat.zero_le a) h)

/-- Every byte after bytes are stored: the stored ones in their range, the old ones elsewhere. -/
theorem byteAt_storeBytes {bs : List Byte} : ∀ {a : Nat} {s : State}, a + bs.length ≤ 4294967296 →
    s.mem.wf = true → ∀ c, (storeBytes bs a s).mem.byteAt c =
      if h : a ≤ c ∧ c < a + bs.length then bs[c - a]'(by omega) else s.mem.byteAt c := by
  induction bs with
  | nil => intro a s _ _ c; simp [storeBytes]
  | cons b rest ih =>
    intro a s ha hwf c
    simp only [List.length_cons] at ha ⊢
    simp only [storeBytes]
    rw [ih (by omega) (wf_setByte hwf b (by omega)) c]
    by_cases h1 : a + 1 ≤ c ∧ c < a + 1 + rest.length
    · have h2 : a ≤ c ∧ c < a + (rest.length + 1) := by omega
      rw [dif_pos h1, dif_pos h2]
      have : c - a = (c - (a + 1)) + 1 := by omega
      simp [this]
    · rw [dif_neg h1, byteAt_setByte hwf]
      by_cases hc : c = a
      · subst hc; simp
      · rw [if_neg hc, dif_neg (by omega)]

/-! ## Placing bytes, and reset -/

/-- Placing bytes keeps the canonical form. -/
theorem wf_placeBytes {bs : List Byte} : ∀ {a : Nat} {m : Memory}, m.wf = true →
    (placeBytes bs a m).wf = true := by
  induction bs with
  | nil => intro a m h; exact h
  | cons b rest ih =>
    intro a m h
    simp only [placeBytes]
    split
    · rename_i ha; exact ih (wf_setByte h b ha)
    · exact ih h

theorem wf_placeAtPc {bs : List Byte} {s : State} (h : s.mem.wf = true) :
    (placeAtPc bs s).mem.wf = true := wf_placeBytes h

/-- A store that is admitted keeps the canonical form. -/
theorem wf_memWrite {s t : State} {a v : Word} {n : Nat} (h : s.mem.wf = true)
    (hw : memWrite a n v s = .ok t) : t.mem.wf = true := by
  unfold memWrite at hw
  split at hw
  · cases hw
  · rename_i hr
    cases hw
    refine wf_storeBytes ?_ h
    rw [bytesOf_length]
    unfold accessRefusal at hr
    split at hr
    · cases hr
    · split at hr
      · cases hr
      · omega

/-- Memory after reset has nothing listed, whatever the parameters. -/
theorem wf_resetWith (p : Params) : (State.resetWith p).mem.wf = true := rfl

end Sys2Proof.Machine
end

