-- ==== Sys2Proof/Laws/Ops.lean ====
section
/-! SUPPORT. For each shared operation, once, everything it can do. -/

namespace Sys2Proof.Machine

/-! ## Memory access -/

theorem allFrom_iff {f : Nat → Bool} : ∀ {n a : Nat},
    allFrom f a n = true ↔ ∀ k, k < n → f (a + k) = true := by
  intro n
  induction n with
  | zero => intro a; simp [allFrom]
  | succ n ih =>
    intro a
    simp only [allFrom, Bool.and_eq_true, ih]
    constructor
    · rintro ⟨h0, h⟩ k hk
      cases k with
      | zero => exact h0
      | succ k => have := h k (by omega); rwa [Nat.add_assoc, Nat.add_comm 1 k] at this
    · intro h
      refine ⟨h 0 (by omega), fun k hk => ?_⟩
      have := h (k + 1) (by omega)
      rwa [Nat.add_assoc, Nat.add_comm 1 k]

/-- When MemRead and MemWrite admit an access (R55). -/
theorem accessRefusal_none_iff {s : State} {a : Word} {n : Nat} :
    accessRefusal s a n = none ↔ a.toNat % n = 0 ∧ a.toNat + n ≤ 4294967296 ∧
      ∀ k, k < n → inMem s.params (a.toNat + k) = true := by
  unfold accessRefusal
  split
  · simp_all
  · split
    · rename_i h; simp; omega
    · split
      · rename_i h1 h2 h3
        rw [allFrom_iff] at h3
        simp only [not_not] at h1
        exact ⟨fun _ => ⟨h1, by omega, h3⟩, fun _ => rfl⟩
      · rename_i h3
        rw [allFrom_iff] at h3
        simp only [reduceCtorEq, false_iff, not_and]
        intro _ _ h; exact h3 h

theorem memRead_ok {s : State} {a v : Word} {n : Nat} (h : memRead s a n = .ok v) :
    accessRefusal s a n = none ∧ v = joinBytes (bytesFrom s.mem a.toNat n) := by
  unfold memRead at h
  split at h
  · cases h
  · rename_i hr; cases h; exact ⟨hr, rfl⟩

theorem memRead_of_admitted {s : State} {a : Word} {n : Nat} (h : accessRefusal s a n = none) :
    memRead s a n = .ok (joinBytes (bytesFrom s.mem a.toNat n)) := by simp [memRead, h]

theorem memWrite_ok {s t : State} {a v : Word} {n : Nat} (h : memWrite a n v s = .ok t) :
    accessRefusal s a n = none ∧ t = storeBytes (bytesOf v n) a.toNat s := by
  unfold memWrite at h
  split at h
  · cases h
  · rename_i hr; cases h; exact ⟨hr, rfl⟩

theorem memWrite_of_admitted {s : State} {a v : Word} {n : Nat} (h : accessRefusal s a n = none) :
    memWrite a n v s = .ok (storeBytes (bytesOf v n) a.toNat s) := by simp [memWrite, h]

theorem bytesFrom_length (m : Memory) (a n : Nat) : (bytesFrom m a n).length = n := by
  induction n generalizing a with
  | zero => rfl
  | succ n ih => simp [bytesFrom, ih]

theorem bytesFrom_getElem (m : Memory) (a n k : Nat) (h : k < (bytesFrom m a n).length) :
    (bytesFrom m a n)[k] = m.byteAt (a + k) := by
  induction n generalizing a k with
  | zero => simp [bytesFrom] at h
  | succ n ih =>
    cases k with
    | zero => simp [bytesFrom]
    | succ k =>
      simp only [bytesFrom, List.getElem_cons_succ]
      rw [ih]
      congr 1
      omega

/-! ## Traps -/

theorem trapEnter_next {k : TrapKind} {l : Level} {s t : State} (h : trapEnter k l s = .next t) :
    s.es.length < s.params.esDepth ∧
      t = { s with es := ⟨s.pc, s.il⟩ :: s.es, il := l, pc := handler s.params k } := by
  unfold trapEnter at h
  split at h
  · rename_i hd; cases h; exact ⟨hd, rfl⟩
  · cases h

theorem popThrough_next {es : List EsEntry} {off : Word} {s t : State}
    (h : popThrough es off s = .next t) :
    ∃ e rest, es = e :: rest ∧ t = { s with es := rest, il := e.il, pc := e.pc + off } := by
  cases es with
  | nil => cases h
  | cons e rest => cases h; exact ⟨e, rest, rfl, rfl⟩

theorem trapReturn_next {d : Nat} {off : BitVec 8} {s t : State}
    (h : trapReturn d off s = .next t) :
    off.toNat < 0x80 ∧ ∃ e rest, s.es.drop (d - 1) = e :: rest ∧
      t = { s with es := rest, il := e.il, pc := e.pc + zext off } := by
  unfold trapReturn at h
  split at h
  · cases h
  · rename_i ho; exact ⟨by omega, popThrough_next h⟩

theorem externalTrap_some {s : State} {r : Answer} (h : externalTrap s = some r) :
    ∃ q rest, s.extIrq = some q :: rest ∧ s.il.toNat < q.lvl.toNat ∧
      r = trapEnter (.ext q.num q.lvl) q.lvl { s with extIrq := rest } := by
  unfold externalTrap at h
  split at h
  · rename_i q rest hq
    split at h
    · rename_i hl; cases h; exact ⟨q, rest, hq, hl, rfl⟩
    · cases h
  · cases h

/-! ## Shapes of instruction -/

theorem writeBack_next {rt : RegNum} {v : Word} {s t : State} (h : writeBack rt v s = .next t) :
    t = advance 4 (writeReg rt v s) := by cases h; rfl

theorem opDiv_next {bad : Word → Word → Option Refusal} {f : Word → Word → Word} {rt : RegNum}
    {a b : Word} {s t : State} (h : opDiv bad f rt a b s = .next t) :
    bad a b = none ∧ t = advance 4 (writeReg rt (f a b) s) := by
  unfold opDiv at h
  split at h
  · cases h
  · rename_i hb; exact ⟨hb, writeBack_next h⟩

theorem branchIf_next {c : Word → Word → Bool} {ra rb : RegNum} {disp : BitVec 16} {s t : State}
    (h : branchIf c ra rb disp s = .next t) :
    (c (readReg s ra) (readReg s rb) = true ∧ t = setPc (s.pc + sext disp) s) ∨
      (c (readReg s ra) (readReg s rb) = false ∧ t = advance 4 s) := by
  unfold branchIf at h
  split at h
  · rename_i hc; cases h; exact .inl ⟨hc, rfl⟩
  · rename_i hc; cases h; exact .inr ⟨by simpa using hc, rfl⟩

theorem load_next {n : Nat} {f : Word → Word} {rt : RegNum} {ea : Word} {s t : State}
    (h : load n f rt ea s = .next t) :
    accessRefusal s ea n = none ∧
      t = advance 3 (writeReg rt (f (joinBytes (bytesFrom s.mem ea.toNat n))) s) := by
  unfold load at h
  split at h
  · cases h
  · rename_i v hv
    obtain ⟨hr, rfl⟩ := memRead_ok hv
    cases h; exact ⟨hr, rfl⟩

theorem store_next {n : Nat} {rs : RegNum} {ea : Word} {s t : State}
    (h : store n rs ea s = .next t) :
    accessRefusal s ea n = none ∧
      t = advance 3 (storeBytes (bytesOf (readReg s rs) n) ea.toNat s) := by
  unfold store at h
  split at h
  · cases h
  · rename_i s' hv
    obtain ⟨hr, rfl⟩ := memWrite_ok hv
    cases h; exact ⟨hr, rfl⟩

end Sys2Proof.Machine
end

