-- ==== Sys2Proof/Laws/PerInstr.lean ====
section
/-! SUPPORT. Facts about every instruction as syntax, one lemma per constructor. -/

namespace Sys2Proof.Laws.EncodeShape

open Sys2Proof

/-- The bytes of an instruction are as many as its first byte's opcode says (R81). -/
def Statement (i : Instr) : Prop :=
  ∃ b0 rest, encode i = b0 :: rest ∧ (encode i).length = ilen (opcodeOf b0)

theorem of_word32 {i : Instr} (w : BitVec 32) (op : BitVec 6) (he : encode i = bytes32 w)
    (hw : field w 0 6 = op) (hl : ilen op = 4) : Statement i :=
  ⟨_, _, he, by rw [he, opcodeOf_low32, hw, hl]; rfl⟩

theorem of_word24 {i : Instr} (w : BitVec 24) (op : BitVec 6) (he : encode i = bytes24 w)
    (hw : field w 0 6 = op) (hl : ilen op = 3) : Statement i :=
  ⟨_, _, he, by rw [he, opcodeOf_low24, hw, hl]; rfl⟩

theorem addi (rt ra : RegNum) (imm : BitVec 16) : Statement (.addi rt ra imm) :=
  of_word32 _ _ rfl (field_wordRI imm ra rt 4).1 rfl
theorem addis (rt ra : RegNum) (imm : BitVec 16) : Statement (.addis rt ra imm) :=
  of_word32 _ _ rfl (field_wordRI imm ra rt 3).1 rfl
theorem andi (rt ra : RegNum) (imm : BitVec 16) : Statement (.andi rt ra imm) :=
  of_word32 _ _ rfl (field_wordRI imm ra rt 8).1 rfl
theorem andis (rt ra : RegNum) (imm : BitVec 16) : Statement (.andis rt ra imm) :=
  of_word32 _ _ rfl (field_wordRI imm ra rt 11).1 rfl
theorem apcis (rt : RegNum) (imm : BitVec 16) : Statement (.apcis rt imm) :=
  of_word32 _ _ rfl (field_wordRI imm 0 rt 1).1 rfl
theorem jal (rt ra : RegNum) (imm : BitVec 16) : Statement (.jal rt ra imm) :=
  of_word32 _ _ rfl (field_wordRI imm ra rt 19).1 rfl
theorem cmpi (rt ra : RegNum) (imm : BitVec 16) : Statement (.cmpi rt ra imm) :=
  of_word32 _ _ rfl (field_wordRI imm ra rt 5).1 rfl
theorem muli (rt ra : RegNum) (imm : BitVec 16) : Statement (.muli rt ra imm) :=
  of_word32 _ _ rfl (field_wordRI imm ra rt 6).1 rfl
theorem divi (rt ra : RegNum) (imm : BitVec 16) : Statement (.divi rt ra imm) :=
  of_word32 _ _ rfl (field_wordRI imm ra rt 7).1 rfl
theorem ori (rt ra : RegNum) (imm : BitVec 16) : Statement (.ori rt ra imm) :=
  of_word32 _ _ rfl (field_wordRI imm ra rt 9).1 rfl
theorem eori (rt ra : RegNum) (imm : BitVec 16) : Statement (.eori rt ra imm) :=
  of_word32 _ _ rfl (field_wordRI imm ra rt 10).1 rfl
theorem subfi (rt ra : RegNum) (imm : BitVec 16) : Statement (.subfi rt ra imm) :=
  of_word32 _ _ rfl (field_wordRI imm ra rt 12).1 rfl
theorem slti (rt ra : RegNum) (imm : BitVec 16) : Statement (.slti rt ra imm) :=
  of_word32 _ _ rfl (field_wordRI imm ra rt 13).1 rfl
theorem mului (rt ra : RegNum) (imm : BitVec 16) : Statement (.mului rt ra imm) :=
  of_word32 _ _ rfl (field_wordRI imm ra rt 14).1 rfl
theorem divui (rt ra : RegNum) (imm : BitVec 16) : Statement (.divui rt ra imm) :=
  of_word32 _ _ rfl (field_wordRI imm ra rt 15).1 rfl
theorem oris (rt ra : RegNum) (imm : BitVec 16) : Statement (.oris rt ra imm) :=
  of_word32 _ _ rfl (field_wordRI imm ra rt 20).1 rfl
theorem eoris (rt ra : RegNum) (imm : BitVec 16) : Statement (.eoris rt ra imm) :=
  of_word32 _ _ rfl (field_wordRI imm ra rt 21).1 rfl
theorem add (rt ra rb : RegNum) : Statement (.add rt ra rb) :=
  of_word32 _ _ rfl (field_wordR2 4 rb ra rt).1 rfl
theorem cmp (rt ra rb : RegNum) : Statement (.cmp rt ra rb) :=
  of_word32 _ _ rfl (field_wordR2 5 rb ra rt).1 rfl
theorem and (rt ra rb : RegNum) : Statement (.and rt ra rb) :=
  of_word32 _ _ rfl (field_wordR2 8 rb ra rt).1 rfl
theorem or (rt ra rb : RegNum) : Statement (.or rt ra rb) :=
  of_word32 _ _ rfl (field_wordR2 9 rb ra rt).1 rfl
theorem mul (rt ra rb : RegNum) : Statement (.mul rt ra rb) :=
  of_word32 _ _ rfl (field_wordR2 6 rb ra rt).1 rfl
theorem div (rt ra rb : RegNum) : Statement (.div rt ra rb) :=
  of_word32 _ _ rfl (field_wordR2 7 rb ra rt).1 rfl
theorem eor (rt ra rb : RegNum) : Statement (.eor rt ra rb) :=
  of_word32 _ _ rfl (field_wordR2 10 rb ra rt).1 rfl
theorem andn (rt ra rb : RegNum) : Statement (.andn rt ra rb) :=
  of_word32 _ _ rfl (field_wordR2 11 rb ra rt).1 rfl
theorem sub (rt ra rb : RegNum) : Statement (.sub rt ra rb) :=
  of_word32 _ _ rfl (field_wordR2 12 rb ra rt).1 rfl
theorem slt13 (rt ra rb : RegNum) : Statement (.slt13 rt ra rb) :=
  of_word32 _ _ rfl (field_wordR2 13 rb ra rt).1 rfl
theorem mulu (rt ra rb : RegNum) : Statement (.mulu rt ra rb) :=
  of_word32 _ _ rfl (field_wordR2 14 rb ra rt).1 rfl
theorem divu (rt ra rb : RegNum) : Statement (.divu rt ra rb) :=
  of_word32 _ _ rfl (field_wordR2 15 rb ra rt).1 rfl
theorem nand (rt ra rb : RegNum) : Statement (.nand rt ra rb) :=
  of_word32 _ _ rfl (field_wordR2 16 rb ra rt).1 rfl
theorem nor (rt ra rb : RegNum) : Statement (.nor rt ra rb) :=
  of_word32 _ _ rfl (field_wordR2 17 rb ra rt).1 rfl
theorem enor (rt ra rb : RegNum) : Statement (.enor rt ra rb) :=
  of_word32 _ _ rfl (field_wordR2 18 rb ra rt).1 rfl
theorem orn (rt ra rb : RegNum) : Statement (.orn rt ra rb) :=
  of_word32 _ _ rfl (field_wordR2 19 rb ra rt).1 rfl
theorem mulh (rt ra rb : RegNum) : Statement (.mulh rt ra rb) :=
  of_word32 _ _ rfl (field_wordR2 22 rb ra rt).1 rfl
theorem mod (rt ra rb : RegNum) : Statement (.mod rt ra rb) :=
  of_word32 _ _ rfl (field_wordR2 23 rb ra rt).1 rfl
theorem seq (rt ra rb : RegNum) : Statement (.seq rt ra rb) :=
  of_word32 _ _ rfl (field_wordR2 24 rb ra rt).1 rfl
theorem sne (rt ra rb : RegNum) : Statement (.sne rt ra rb) :=
  of_word32 _ _ rfl (field_wordR2 25 rb ra rt).1 rfl
theorem slt (rt ra rb : RegNum) : Statement (.slt rt ra rb) :=
  of_word32 _ _ rfl (field_wordR2 26 rb ra rt).1 rfl
theorem sle (rt ra rb : RegNum) : Statement (.sle rt ra rb) :=
  of_word32 _ _ rfl (field_wordR2 27 rb ra rt).1 rfl
theorem sltu (rt ra rb : RegNum) : Statement (.sltu rt ra rb) :=
  of_word32 _ _ rfl (field_wordR2 28 rb ra rt).1 rfl
theorem sleu (rt ra rb : RegNum) : Statement (.sleu rt ra rb) :=
  of_word32 _ _ rfl (field_wordR2 29 rb ra rt).1 rfl
theorem muluh (rt ra rb : RegNum) : Statement (.muluh rt ra rb) :=
  of_word32 _ _ rfl (field_wordR2 30 rb ra rt).1 rfl
theorem modu (rt ra rb : RegNum) : Statement (.modu rt ra rb) :=
  of_word32 _ _ rfl (field_wordR2 31 rb ra rt).1 rfl
theorem r1 (rest : BitVec 20) : Statement (.r1 rest) :=
  of_word32 _ _ rfl (field_wordFunc 1 rest).1 rfl
theorem addpc (rest : BitVec 20) : Statement (.addpc rest) :=
  of_word32 _ _ rfl (field_wordFunc 2 rest).1 rfl
theorem asl (rt ra rb : RegNum) (f : Bool) : Statement (.asl rt ra rb f) :=
  of_word32 _ _ rfl (field_wordSH 32 f 0 rb ra rt).1 rfl
theorem asli (rt ra : RegNum) (count : BitVec 5) (f : Bool) : Statement (.asli rt ra count f) :=
  of_word32 _ _ rfl (field_wordSH 32 f 1 count ra rt).1 rfl
theorem lsr (rt ra rb : RegNum) : Statement (.lsr rt ra rb) :=
  of_word32 _ _ rfl (field_wordSH 33 false 0 rb ra rt).1 rfl
theorem lsri (rt ra : RegNum) (count : BitVec 5) : Statement (.lsri rt ra count) :=
  of_word32 _ _ rfl (field_wordSH 33 false 1 count ra rt).1 rfl
theorem rol (rt ra rb : RegNum) : Statement (.rol rt ra rb) :=
  of_word32 _ _ rfl (field_wordSH 34 false 0 rb ra rt).1 rfl
theorem roli (rt ra : RegNum) (count : BitVec 5) : Statement (.roli rt ra count) :=
  of_word32 _ _ rfl (field_wordSH 34 false 1 count ra rt).1 rfl
theorem ror (rt ra rb : RegNum) : Statement (.ror rt ra rb) :=
  of_word32 _ _ rfl (field_wordSH 35 false 0 rb ra rt).1 rfl
theorem rori (rt ra : RegNum) (count : BitVec 5) : Statement (.rori rt ra count) :=
  of_word32 _ _ rfl (field_wordSH 35 false 1 count ra rt).1 rfl
theorem asr (rt ra rb : RegNum) : Statement (.asr rt ra rb) :=
  of_word32 _ _ rfl (field_wordSH 36 false 0 rb ra rt).1 rfl
theorem asri (rt ra : RegNum) (count : BitVec 5) : Statement (.asri rt ra count) :=
  of_word32 _ _ rfl (field_wordSH 36 false 1 count ra rt).1 rfl
theorem beq (ra rb : RegNum) (disp : BitVec 16) : Statement (.beq ra rb disp) :=
  of_word32 _ _ rfl (field_wordBR disp rb ra 24).1 rfl
theorem bne (ra rb : RegNum) (disp : BitVec 16) : Statement (.bne ra rb disp) :=
  of_word32 _ _ rfl (field_wordBR disp rb ra 25).1 rfl
theorem blt (ra rb : RegNum) (disp : BitVec 16) : Statement (.blt ra rb disp) :=
  of_word32 _ _ rfl (field_wordBR disp rb ra 26).1 rfl
theorem ble (ra rb : RegNum) (disp : BitVec 16) : Statement (.ble ra rb disp) :=
  of_word32 _ _ rfl (field_wordBR disp rb ra 27).1 rfl
theorem bltu (ra rb : RegNum) (disp : BitVec 16) : Statement (.bltu ra rb disp) :=
  of_word32 _ _ rfl (field_wordBR disp rb ra 28).1 rfl
theorem bleu (ra rb : RegNum) (disp : BitVec 16) : Statement (.bleu ra rb disp) :=
  of_word32 _ _ rfl (field_wordBR disp rb ra 29).1 rfl
theorem bccr (ra rb rc : RegNum) (cond : BitVec 3) (disp : BitVec 8) : Statement (.bccr ra rb rc cond disp) :=
  of_word32 _ _ rfl (field_wordBRR disp cond rc rb ra).1 rfl
theorem bbs (rest : BitVec 26) : Statement (.bbs rest) :=
  of_word32 _ _ rfl (field_wordOp32 rest 31).1 rfl
theorem bra (disp : BitVec 24) : Statement (.bra disp) :=
  of_word32 _ _ rfl (field_wordJ disp 0).1 rfl
theorem call (lr : BitVec 2) (disp : BitVec 24) : Statement (.call lr disp) :=
  of_word32 _ _ rfl (field_wordJ disp lr).1 rfl
theorem rtd (lr : BitVec 2) (offs : BitVec 8) (imm : BitVec 16) : Statement (.rtd lr offs imm) :=
  of_word32 _ _ rfl (field_wordRTD imm offs lr).1 rfl
theorem eret (rest : BitVec 26) : Statement (.eret rest) :=
  of_word32 _ _ rfl (field_wordOp32 rest 16).1 rfl
theorem brk : Statement .brk :=
  of_word32 0 0 rfl rfl rfl
theorem irq (lvl : Level) (num : BitVec 9) : Statement (.irq lvl num) :=
  of_word32 _ _ rfl (field_wordIRQ num lvl).1 rfl
theorem sys (num : BitVec 9) : Statement (.sys num) :=
  of_word32 _ _ rfl (field_wordSYS num).1 rfl
theorem rts (offs : BitVec 8) : Statement (.rts offs) :=
  of_word32 _ _ rfl (field_wordRet 3 offs 1).1 rfl
theorem rts2up (offs : BitVec 8) : Statement (.rts2up offs) :=
  of_word32 _ _ rfl (field_wordRet 3 offs 2).1 rfl
theorem rti (offs : BitVec 8) : Statement (.rti offs) :=
  of_word32 _ _ rfl (field_wordRet 4 offs 0).1 rfl
theorem ldb (rt ra : RegNum) (disp : BitVec 8) : Statement (.ldb rt ra disp) :=
  of_word24 _ _ rfl (field_wordM8 disp ra rt 32).1 rfl
theorem ldbu (rt ra : RegNum) (disp : BitVec 8) : Statement (.ldbu rt ra disp) :=
  of_word24 _ _ rfl (field_wordM8 disp ra rt 33).1 rfl
theorem ldw (rt ra : RegNum) (disp : BitVec 8) : Statement (.ldw rt ra disp) :=
  of_word24 _ _ rfl (field_wordM8 disp ra rt 34).1 rfl
theorem ldwu (rt ra : RegNum) (disp : BitVec 8) : Statement (.ldwu rt ra disp) :=
  of_word24 _ _ rfl (field_wordM8 disp ra rt 35).1 rfl
theorem ldt (rt ra : RegNum) (disp : BitVec 8) : Statement (.ldt rt ra disp) :=
  of_word24 _ _ rfl (field_wordM8 disp ra rt 36).1 rfl
theorem lda (rest : BitVec 18) : Statement (.lda rest) :=
  of_word24 _ _ rfl (field_wordOp24 rest 38).1 rfl
theorem cache (rest : BitVec 18) : Statement (.cache rest) :=
  of_word24 _ _ rfl (field_wordOp24 rest 39).1 rfl
theorem ldbx (rt ra rb : RegNum) (sc : BitVec 2) : Statement (.ldbx rt ra rb sc) :=
  of_word24 _ _ rfl (field_wordMX sc rb ra rt 40).1 rfl
theorem ldbux (rt ra rb : RegNum) (sc : BitVec 2) : Statement (.ldbux rt ra rb sc) :=
  of_word24 _ _ rfl (field_wordMX sc rb ra rt 41).1 rfl
theorem ldwx (rt ra rb : RegNum) (sc : BitVec 2) : Statement (.ldwx rt ra rb sc) :=
  of_word24 _ _ rfl (field_wordMX sc rb ra rt 42).1 rfl
theorem ldwux (rt ra rb : RegNum) (sc : BitVec 2) : Statement (.ldwux rt ra rb sc) :=
  of_word24 _ _ rfl (field_wordMX sc rb ra rt 43).1 rfl
theorem ldtx (rt ra rb : RegNum) (sc : BitVec 2) : Statement (.ldtx rt ra rb sc) :=
  of_word24 _ _ rfl (field_wordMX sc rb ra rt 44).1 rfl
theorem ldax (rest : BitVec 18) : Statement (.ldax rest) :=
  of_word24 _ _ rfl (field_wordOp24 rest 46).1 rfl
theorem cachex (rest : BitVec 18) : Statement (.cachex rest) :=
  of_word24 _ _ rfl (field_wordOp24 rest 47).1 rfl
theorem stb (rs ra : RegNum) (disp : BitVec 8) : Statement (.stb rs ra disp) :=
  of_word24 _ _ rfl (field_wordM8 disp ra rs 48).1 rfl
theorem stw (rs ra : RegNum) (disp : BitVec 8) : Statement (.stw rs ra disp) :=
  of_word24 _ _ rfl (field_wordM8 disp ra rs 49).1 rfl
theorem stt (rs ra : RegNum) (disp : BitVec 8) : Statement (.stt rs ra disp) :=
  of_word24 _ _ rfl (field_wordM8 disp ra rs 50).1 rfl
theorem stbx (rs ra rb : RegNum) (sc : BitVec 2) : Statement (.stbx rs ra rb sc) :=
  of_word24 _ _ rfl (field_wordMX sc rb ra rs 52).1 rfl
theorem stwx (rs ra rb : RegNum) (sc : BitVec 2) : Statement (.stwx rs ra rb sc) :=
  of_word24 _ _ rfl (field_wordMX sc rb ra rs 53).1 rfl
theorem sttx (rs ra rb : RegNum) (sc : BitVec 2) : Statement (.sttx rs ra rb sc) :=
  of_word24 _ _ rfl (field_wordMX sc rb ra rs 54).1 rfl

end Sys2Proof.Laws.EncodeShape
end

