-- ==== Sys2Proof/Laws/Step.lean ====
section
/-! SUPPORT. Everything one step can do when it answers a next state. -/

namespace Sys2Proof.Machine

/-- A step that answers a next state took an offered interrupt or executed the fetched instruction. -/
theorem step_next {s t : State} (h : step s = .next t) :
    s.pc ≠ s.params.endPc ∧
    ((∃ q rest, s.extIrq = some q :: rest ∧ s.il.toNat < q.lvl.toNat ∧
        trapEnter (.ext q.num q.lvl) q.lvl { s with extIrq := rest } = .next t) ∨
      (externalTrap s = none ∧ ∃ i, fetchInstr s = .ok i ∧ exec i (dropOffer s) = .next t)) := by
  unfold step at h
  split at h
  · cases h
  · rename_i hpc
    refine ⟨hpc, ?_⟩
    split at h
    · rename_i r hr
      obtain ⟨q, rest, hq, hl, rfl⟩ := externalTrap_some hr
      exact .inl ⟨q, rest, hq, hl, h⟩
    · rename_i hr
      split at h
      · cases h
      · rename_i i hi; exact .inr ⟨hr, i, hi, h⟩

end Sys2Proof.Machine
end

