-- ==== Sys2Proof/Tests/Slice0.lean ====
section
/-! SUPPORT. Tests of the model, their expected results taken from the spec: the examples under the rules
and the vectors of `95_test_vectors.md` (their names stand in the comments). Then, for every statement
with hypotheses, a concrete state and operands that meet them. -/

open Sys2Proof Sys2Proof.Machine

namespace Sys2Proof.Tests

/-! ## Small states -/

/-- The start state of the spec's vectors: after reset, pc 0x1000, these registers written. -/
def start (regs : List (RegNum × Word)) : State :=
  regs.foldl (fun s r => writeReg r.1 r.2 s) (setPc 0x1000 State.reset)

/-- `s` with bytes in memory from address `a` on. -/
def withBytes (a : Nat) (bs : List Byte) (s : State) : State :=
  { s with mem := placeBytes bs a s.mem }

/-- `s` with other parameters. -/
def withParams (p : Params) (s : State) : State := { s with params := p }

/-- `s` with this IL and ES. -/
def withTraps (il : Level) (es : List EsEntry) (s : State) : State := { s with il := il, es := es }

/-- The parameters of the vectors of section 2.8: their handler addresses. -/
def vectors : Params :=
  { Config.launch with
    vec := [(.brk, 0x3000), (.sys 0x11, 0x3100), (.irq 0x25 3, 0x3200), (.ext 9 2, 0x3300)] }

/-- Parameters under which only the addresses of one region exist. -/
def onlyRegion (base size : Nat) : Params := { Config.launch with mem := [⟨base, size⟩] }

/-- Register `r` and the pc in the next state, if there is one. -/
def regAfter (a : Answer) (r : RegNum) : Option (Word × Word) :=
  match a with
  | .next t => some (readReg t r, t.pc)
  | _ => none

/-- pc, IL and ES in the next state, if there is one. -/
def trapAfter (a : Answer) : Option (Word × Level × List EsEntry) :=
  match a with
  | .next t => some (t.pc, t.il, t.es)
  | _ => none

/-- `n` bytes from `a` on, the dirty set and the pc in the next state, if there is one. -/
def memAfter (a : Answer) (addr n : Nat) : Option (List Byte × List Nat × Word) :=
  match a with
  | .next t => some (bytesFrom t.mem addr n, t.dirty, t.pc)
  | _ => none

/-- The reason of a refusal, if it is one. -/
def refusal (a : Answer) : Option Refusal :=
  match a with
  | .refused r => some r
  | _ => none

/-- The bytes decode to the instruction with none left over. -/
def decodesTo (bs : List Byte) (i : Instr) : Bool :=
  match decode bs with
  | .ok (j, rest) => decide (j = i) && rest.isEmpty
  | .error _ => false

/-- The bytes are rejected with this reason. -/
def rejects (bs : List Byte) (e : DecodeError) : Bool :=
  match decode bs with
  | .ok _ => false
  | .error e' => decide (e' = e)

/-! ## Well-formedness: each check refuses an ill-formed term -/

theorem test_wellFormed_call_lr0 : Instr.wellFormed (.call 0 0x100) = false := by decide
theorem test_wellFormed_rtd_lr0 : Instr.wellFormed (.rtd 0 4 16) = false := by decide
theorem test_wellFormed_call_lr3 : Instr.wellFormed (.call 3 0x100) = true := by decide

/-! ## Decoding: for every constructor a word written out from the spec's encoding of it -/

/-- The examples under R121 to R126, R151 to R161, R223. -/
theorem test_decode_ri :
    decodesTo [0xC4, 0x08, 0xFF, 0xFF] (.addi 3 1 0xFFFF) &&
    decodesTo [0xC3, 0x08, 0x34, 0x12] (.addis 3 1 0x1234) &&
    decodesTo [0xC8, 0x08, 0xFF, 0x00] (.andi 3 1 0xFF) &&
    decodesTo [0xCB, 0x08, 0xFF, 0x00] (.andis 3 1 0xFF) &&
    decodesTo [0xC1, 0x00, 0x01, 0x00] (.apcis 3 1) &&
    decodesTo [0x53, 0x10, 0x40, 0x00] (.jal 1 2 0x40) &&
    decodesTo [0xC5, 0x08, 0x05, 0x00] (.cmpi 3 1 5) &&
    decodesTo [0xC6, 0x08, 0xFD, 0xFF] (.muli 3 1 0xFFFD) &&
    decodesTo [0xC7, 0x08, 0x07, 0x00] (.divi 3 1 7) &&
    decodesTo [0xC9, 0x08, 0x00, 0x80] (.ori 3 1 0x8000) &&
    decodesTo [0xCA, 0x08, 0xFF, 0xFF] (.eori 3 1 0xFFFF) &&
    decodesTo [0xCC, 0x08, 0x0A, 0x00] (.subfi 3 1 10) &&
    decodesTo [0xCD, 0x08, 0xFF, 0xFF] (.slti 3 1 0xFFFF) &&
    decodesTo [0xCE, 0x08, 0xFF, 0xFF] (.mului 3 1 0xFFFF) &&
    decodesTo [0xCF, 0x08, 0xFF, 0xFF] (.divui 3 1 0xFFFF) &&
    decodesTo [0xD4, 0x08, 0x00, 0x80] (.oris 3 1 0x8000) &&
    decodesTo [0xD5, 0x08, 0xFF, 0xFF] (.eoris 3 1 0xFFFF) := by decide

/-- The examples under R120 to R137; VD17, VD18. -/
theorem test_decode_r2_low :
    decodesTo [0xC2, 0x08, 0x02, 0x10] (.add 3 1 2) &&
    decodesTo [0xC2, 0x08, 0x02, 0x14] (.cmp 3 1 2) &&
    decodesTo [0xC2, 0x08, 0x02, 0x18] (.mul 3 1 2) &&
    decodesTo [0xC2, 0x08, 0x02, 0x1C] (.div 3 1 2) &&
    decodesTo [0xC2, 0x08, 0x02, 0x20] (.and 3 1 2) &&
    decodesTo [0xC2, 0x08, 0x02, 0x24] (.or 3 1 2) &&
    decodesTo [0xC2, 0x08, 0x02, 0x28] (.eor 3 1 2) &&
    decodesTo [0xC2, 0x08, 0x02, 0x2C] (.andn 3 1 2) &&
    decodesTo [0xC2, 0x08, 0x02, 0x30] (.sub 3 1 2) &&
    decodesTo [0xC2, 0x08, 0x02, 0x34] (.slt13 3 1 2) &&
    decodesTo [0xC2, 0x08, 0x02, 0x38] (.mulu 3 1 2) &&
    decodesTo [0xC2, 0x08, 0x02, 0x3C] (.divu 3 1 2) &&
    decodesTo [0xC2, 0x08, 0x02, 0x40] (.nand 3 1 2) &&
    decodesTo [0xC2, 0x08, 0x02, 0x44] (.nor 3 1 2) &&
    decodesTo [0xC2, 0x08, 0x02, 0x04] (.r1 0x00823) &&
    decodesTo [0xC2, 0x08, 0x02, 0x08] (.addpc 0x00823) := by decide

/-- The examples under R135 to R150. -/
theorem test_decode_r2_high :
    decodesTo [0xC2, 0x08, 0x02, 0x48] (.enor 3 1 2) &&
    decodesTo [0xC2, 0x08, 0x02, 0x4C] (.orn 3 1 2) &&
    decodesTo [0xC2, 0x08, 0x02, 0x58] (.mulh 3 1 2) &&
    decodesTo [0xC2, 0x08, 0x02, 0x5C] (.mod 3 1 2) &&
    decodesTo [0xC2, 0x08, 0x02, 0x60] (.seq 3 1 2) &&
    decodesTo [0xC2, 0x08, 0x02, 0x64] (.sne 3 1 2) &&
    decodesTo [0xC2, 0x08, 0x02, 0x68] (.slt 3 1 2) &&
    decodesTo [0xC2, 0x08, 0x02, 0x6C] (.sle 3 1 2) &&
    decodesTo [0xC2, 0x08, 0x02, 0x70] (.sltu 3 1 2) &&
    decodesTo [0xC2, 0x08, 0x02, 0x74] (.sleu 3 1 2) &&
    decodesTo [0xC2, 0x08, 0x02, 0x78] (.muluh 3 1 2) &&
    decodesTo [0xC2, 0x08, 0x02, 0x7C] (.modu 3 1 2) := by decide

/-- The examples under R200 to R209; VH2, VH9. -/
theorem test_decode_sh :
    decodesTo [0xC2, 0x08, 0x02, 0x80] (.asl 3 1 2 false) &&
    decodesTo [0xC2, 0x08, 0x02, 0x82] (.asl 3 1 2 true) &&
    decodesTo [0xC2, 0x08, 0x04, 0x81] (.asli 3 1 4 false) &&
    decodesTo [0xC2, 0x08, 0x04, 0x83] (.asli 3 1 4 true) &&
    decodesTo [0xC2, 0x08, 0x02, 0x84] (.lsr 3 1 2) &&
    decodesTo [0xC2, 0x08, 0x04, 0x85] (.lsri 3 1 4) &&
    decodesTo [0xC2, 0x08, 0x02, 0x88] (.rol 3 1 2) &&
    decodesTo [0xC2, 0x08, 0x04, 0x89] (.roli 3 1 4) &&
    decodesTo [0xC2, 0x08, 0x02, 0x8C] (.ror 3 1 2) &&
    decodesTo [0xC2, 0x08, 0x04, 0x8D] (.rori 3 1 4) &&
    decodesTo [0xC2, 0x08, 0x02, 0x90] (.asr 3 1 2) &&
    decodesTo [0xC2, 0x08, 0x04, 0x91] (.asri 3 1 4) := by decide

/-- The examples under R220 to R231; VT31, VT32. -/
theorem test_decode_br :
    decodesTo [0x58, 0x10, 0x10, 0x00] (.beq 1 2 16) &&
    decodesTo [0x59, 0x10, 0x10, 0x00] (.bne 1 2 16) &&
    decodesTo [0x5A, 0x10, 0x10, 0x00] (.blt 1 2 16) &&
    decodesTo [0x5B, 0x10, 0x10, 0x00] (.ble 1 2 16) &&
    decodesTo [0x5C, 0x10, 0x10, 0x00] (.bltu 1 2 16) &&
    decodesTo [0x5D, 0x10, 0x10, 0x00] (.bleu 1 2 16) &&
    decodesTo [0x5E, 0x10, 0x03, 0x08] (.bccr 1 2 3 0 8) &&
    decodesTo [0x1F, 0x00, 0x00, 0x00] (.bbs 0) := by decide

/-- The examples under R221 to R224; VT9, VT12, VT33. -/
theorem test_decode_jump :
    decodesTo [0x12, 0x00, 0x01, 0x00] (.bra 0x100) &&
    decodesTo [0x52, 0x00, 0x01, 0x00] (.call 1 0x100) &&
    decodesTo [0xD2, 0xFC, 0xFF, 0xFF] (.call 3 0xFFFFFC) &&
    decodesTo [0x51, 0x04, 0x10, 0x00] (.rtd 1 4 16) &&
    decodesTo [0x91, 0x00, 0x00, 0x00] (.rtd 2 0 0) &&
    decodesTo [0x10, 0x00, 0x00, 0x00] (.eret 0) := by decide

/-- The examples under R300 to R305. -/
theorem test_decode_sys :
    decodesTo [0x00, 0x00, 0x00, 0x00] (.brk) &&
    decodesTo [0xC0, 0x00, 0x25, 0x04] (.irq 3 0x25) &&
    decodesTo [0x00, 0x00, 0x11, 0x08] (.sys 0x11) &&
    decodesTo [0x40, 0x04, 0x00, 0x0C] (.rts 4) &&
    decodesTo [0x80, 0x04, 0x00, 0x0C] (.rts2up 4) &&
    decodesTo [0x00, 0x00, 0x00, 0x10] (.rti 0) := by decide

/-- The examples under R260 to R272; VM29, VM30. -/
theorem test_decode_m8 :
    decodesTo [0xE0, 0x08, 0x05] (.ldb 3 1 5) &&
    decodesTo [0xE1, 0x08, 0x05] (.ldbu 3 1 5) &&
    decodesTo [0xE2, 0x08, 0x06] (.ldw 3 1 6) &&
    decodesTo [0xE3, 0x08, 0x06] (.ldwu 3 1 6) &&
    decodesTo [0xE4, 0x08, 0x08] (.ldt 3 1 8) &&
    decodesTo [0x26, 0x00, 0x00] (.lda 0) &&
    decodesTo [0x27, 0x00, 0x00] (.cache 0) &&
    decodesTo [0xF0, 0x08, 0x05] (.stb 3 1 5) &&
    decodesTo [0xF1, 0x08, 0x06] (.stw 3 1 6) &&
    decodesTo [0xF2, 0x08, 0x08] (.stt 3 1 8) := by decide

/-- The examples under R261 to R275; VM31, VM32. -/
theorem test_decode_mx :
    decodesTo [0xE8, 0x08, 0x42] (.ldbx 3 1 2 2) &&
    decodesTo [0xE9, 0x08, 0x02] (.ldbux 3 1 2 0) &&
    decodesTo [0xEA, 0x08, 0x22] (.ldwx 3 1 2 1) &&
    decodesTo [0xEB, 0x08, 0x22] (.ldwux 3 1 2 1) &&
    decodesTo [0xEC, 0x08, 0x42] (.ldtx 3 1 2 2) &&
    decodesTo [0x2E, 0x00, 0x00] (.ldax 0) &&
    decodesTo [0x2F, 0x00, 0x00] (.cachex 0) &&
    decodesTo [0xF4, 0x08, 0x02] (.stbx 3 1 2 0) &&
    decodesTo [0xF5, 0x08, 0x22] (.stwx 3 1 2 1) &&
    decodesTo [0xF6, 0x08, 0x42] (.sttx 3 1 2 2) := by decide

/-- VD12, VD15, VD16, VD19, VD21 to VD24 and VS16 to VS20: reserved 32-bit words. -/
theorem test_decode_reserved32 :
    rejects [0x11, 0x04, 0x10, 0x00] .noLinkRegister && rejects [0xC2, 0x08, 0x22, 0x10] .unusedFieldSet &&
    rejects [0xC2, 0x08, 0x02, 0x00] (.blankR2Function 0) &&
    rejects [0xC2, 0x08, 0x02, 0x94] (.blankR2Function 37) &&
    rejects [0xC2, 0x08, 0x02, 0x86] .reservedFill && rejects [0xD6, 0x08, 0x00, 0x00] (.blankMajor 22) &&
    rejects [0xF8, 0x08, 0x00, 0x00] (.blankMajor 56) && rejects [0x00, 0x04, 0x00, 0x0C] .reservedDepth &&
    rejects [0xC0, 0x04, 0x00, 0x0C] .reservedDepth && rejects [0x40, 0x00, 0x00, 0x10] .reservedRtiField &&
    rejects [0x00, 0x00, 0x11, 0x0A] .unusedFieldSet &&
    rejects [0x00, 0x00, 0x00, 0x14] (.blankSysFunction 5) && rejects [0xC1, 0x08, 0x01, 0x00] .unusedFieldSet :=
  by decide

/-- VD25, VD26, VM10: reserved 24-bit words; and too few bytes. -/
theorem test_decode_reserved24 :
    rejects [0xF3, 0x08, 0x00] (.blankMajor 51) && rejects [0xE5, 0x08, 0x00] (.blankMajor 37) &&
    rejects [0xE8, 0x08, 0x82] .unusedFieldSet && rejects [] .truncated &&
    rejects [0xE0, 0x08] .truncated && rejects [0xC2, 0x08, 0x02] .truncated := by decide

/-- The table's numbering: bit 0 is the least significant bit of the first byte. -/
theorem test_decodeTableWord :
    decodeTableWord 32 0x100208C2 = some (.add 3 1 2) ∧
    decodeTableWord 24 0x0508E0 = some (.ldb 3 1 5) ∧ decodeTableWord 32 0x000208C2 = none := by decide

/-- The encoder writes the bytes of VA1, VM7, VT9, VS4 and VH9. -/
theorem test_encode :
    encode (.add 3 1 2) = [0xC2, 0x08, 0x02, 0x10] ∧ encode (.ldbx 3 1 2 2) = [0xE8, 0x08, 0x42] ∧
    encode (.call 3 0xFFFFFC) = [0xD2, 0xFC, 0xFF, 0xFF] ∧ encode (.irq 3 0x25) = [0xC0, 0x00, 0x25, 0x04] ∧
    encode (.asli 3 1 4 true) = [0xC2, 0x08, 0x04, 0x83] := by decide

/-! ## Instructions that write a register (VA, VC, VN, VI, VH) -/

/-- VA2. -/
theorem test_add_wraps :
    regAfter (exec (.add 3 1 2) (start [(1, 0xFFFFFFFF), (2, 1)])) 3 = some (0, 0x1004) := by decide
/-- VA4. -/
theorem test_add_target_is_source :
    regAfter (exec (.add 1 1 1) (start [(1, 0x80000001)])) 1 = some (2, 0x1004) := by decide
/-- VA6. -/
theorem test_addi_sign_extends :
    regAfter (exec (.addi 3 1 0xFFFF) (start [(1, 0)])) 3 = some (0xFFFFFFFF, 0x1004) := by decide
/-- VA10. -/
theorem test_addis_shifts :
    regAfter (exec (.addis 3 1 0x1234) (start [(1, 0x5678)])) 3 = some (0x12345678, 0x1004) := by decide
/-- VA13. -/
theorem test_and :
    regAfter (exec (.and 3 1 2) (start [(1, 0xFF00FF00), (2, 0x0FF00FF0)])) 3 = some (0x0F000F00, 0x1004) := by decide
/-- VA14. -/
theorem test_andi_keeps_upper :
    regAfter (exec (.andi 3 1 0xFF) (start [(1, 0x12345678)])) 3 = some (0x12340078, 0x1004) := by decide
/-- VA16. -/
theorem test_andis_keeps_lower :
    regAfter (exec (.andis 3 1 0xFF) (start [(1, 0x12345678)])) 3 = some (0x00345678, 0x1004) := by decide
/-- VA23. -/
theorem test_or :
    regAfter (exec (.or 3 1 2) (start [(1, 0xFF00FF00), (2, 0x0FF00FF0)])) 3 = some (0xFFF0FFF0, 0x1004) := by decide
/-- VA18. -/
theorem test_apcis_own_address :
    regAfter (exec (.apcis 3 1) (start [])) 3 = some (0x00011000, 0x1004) := by decide
/-- VC1. -/
theorem test_cmp_equal :
    regAfter (exec (.cmp 3 1 2) (start [(1, 5), (2, 5)])) 3 = some (0x00001A59, 0x1004) := by decide
/-- VC4. -/
theorem test_cmp_signed_unsigned :
    regAfter (exec (.cmp 3 1 2) (start [(1, 0xFFFFFFFF), (2, 1)])) 3 = some (0x0000318E, 0x1004) := by decide
/-- VC14. -/
theorem test_cmpi_sign_extends :
    regAfter (exec (.cmpi 3 1 0xFFFB) (start [(1, 5)])) 3 = some (0x00000E72, 0x1004) := by decide
/-- VN1. -/
theorem test_sub_order :
    regAfter (exec (.sub 3 1 2) (start [(1, 5), (2, 7)])) 3 = some (0xFFFFFFFE, 0x1004) := by decide
/-- VN3. -/
theorem test_eor :
    regAfter (exec (.eor 3 1 2) (start [(1, 0xFF00FF00), (2, 0x0FF00FF0)])) 3 = some (0xF0F0F0F0, 0x1004) := by decide
/-- VN4. -/
theorem test_andn :
    regAfter (exec (.andn 3 1 2) (start [(1, 0xFFFF0000), (2, 0x0F0F0F0F)])) 3 = some (0xF0F00000, 0x1004) := by decide
/-- VN5. -/
theorem test_nand :
    regAfter (exec (.nand 3 1 2) (start [(1, 0xFFFF0000), (2, 0xFF00FF00)])) 3 = some (0x00FFFFFF, 0x1004) := by decide
/-- VN6. -/
theorem test_nor :
    regAfter (exec (.nor 3 1 2) (start [(1, 0xFFFF0000), (2, 0xFF00FF00)])) 3 = some (0x000000FF, 0x1004) := by decide
/-- VN7. -/
theorem test_enor :
    regAfter (exec (.enor 3 1 2) (start [(1, 0xFFFF0000), (2, 0xFF00FF00)])) 3 = some (0xFF0000FF, 0x1004) := by decide
/-- VN8. -/
theorem test_orn :
    regAfter (exec (.orn 3 1 2) (start [(1, 0xFFFF0000), (2, 0xFF00FF00)])) 3 = some (0xFFFF00FF, 0x1004) := by decide
/-- VN9. -/
theorem test_mul_negative :
    regAfter (exec (.mul 3 1 2) (start [(1, 0xFFFFFFFE), (2, 3)])) 3 = some (0xFFFFFFFA, 0x1004) := by decide
/-- VN12. -/
theorem test_mulu :
    regAfter (exec (.mulu 3 1 2) (start [(1, 0xFFFFFFFF), (2, 0xFFFFFFFF)])) 3 = some (1, 0x1004) := by decide
/-- VN13. -/
theorem test_mulh_signed :
    regAfter (exec (.mulh 3 1 2) (start [(1, 0xFFFFFFFE), (2, 3)])) 3 = some (0xFFFFFFFF, 0x1004) := by decide
/-- VN16. -/
theorem test_muluh_unsigned :
    regAfter (exec (.muluh 3 1 2) (start [(1, 0xFFFFFFFE), (2, 3)])) 3 = some (2, 0x1004) := by decide
/-- VN18. -/
theorem test_div_truncates :
    regAfter (exec (.div 3 1 2) (start [(1, 0xFFFFFFF9), (2, 2)])) 3 = some (0xFFFFFFFD, 0x1004) := by decide
/-- VN23. -/
theorem test_divu :
    regAfter (exec (.divu 3 1 2) (start [(1, 0xFFFFFFF9), (2, 2)])) 3 = some (0x7FFFFFFC, 0x1004) := by decide
/-- VN25. -/
theorem test_mod_sign_of_dividend :
    regAfter (exec (.mod 3 1 2) (start [(1, 0xFFFFFFF9), (2, 2)])) 3 = some (0xFFFFFFFF, 0x1004) := by decide
/-- VN29. -/
theorem test_modu :
    regAfter (exec (.modu 3 1 2) (start [(1, 0xFFFFFFF9), (2, 2)])) 3 = some (1, 0x1004) := by decide
/-- VN31. -/
theorem test_slt13_signed :
    regAfter (exec (.slt13 3 1 2) (start [(1, 0xFFFFFFFF), (2, 0)])) 3 = some (1, 0x1004) := by decide
/-- VN33. -/
theorem test_slt_signed :
    regAfter (exec (.slt 3 1 2) (start [(1, 0), (2, 0xFFFFFFFF)])) 3 = some (0, 0x1004) := by decide
/-- VN35. -/
theorem test_seq :
    regAfter (exec (.seq 3 1 2) (start [(1, 5), (2, 5)])) 3 = some (1, 0x1004) := by decide
/-- VN38. -/
theorem test_sne :
    regAfter (exec (.sne 3 1 2) (start [(1, 5), (2, 6)])) 3 = some (1, 0x1004) := by decide
/-- VN39. -/
theorem test_sle_equal :
    regAfter (exec (.sle 3 1 2) (start [(1, 0xFFFFFFFF), (2, 0xFFFFFFFF)])) 3 = some (1, 0x1004) := by decide
/-- VN42. -/
theorem test_sltu_unsigned :
    regAfter (exec (.sltu 3 1 2) (start [(1, 0), (2, 0xFFFFFFFF)])) 3 = some (1, 0x1004) := by decide
/-- VN44. -/
theorem test_sleu_unsigned :
    regAfter (exec (.sleu 3 1 2) (start [(1, 0xFFFFFFFF), (2, 0)])) 3 = some (0, 0x1004) := by decide
/-- VI1. -/
theorem test_muli_sign_extends :
    regAfter (exec (.muli 3 1 0xFFFD) (start [(1, 5)])) 3 = some (0xFFFFFFF1, 0x1004) := by decide
/-- VI2. -/
theorem test_divi_truncates :
    regAfter (exec (.divi 3 1 7) (start [(1, 0xFFFFFFCE)])) 3 = some (0xFFFFFFF9, 0x1004) := by decide
/-- VI5. -/
theorem test_ori_zero_extends :
    regAfter (exec (.ori 3 1 0x8000) (start [(1, 0x00010001)])) 3 = some (0x00018001, 0x1004) := by decide
/-- VI6. -/
theorem test_eori_zero_extends :
    regAfter (exec (.eori 3 1 0xFFFF) (start [(1, 0x12345678)])) 3 = some (0x1234A987, 0x1004) := by decide
/-- VI7. -/
theorem test_subfi_order :
    regAfter (exec (.subfi 3 1 10) (start [(1, 3)])) 3 = some (7, 0x1004) := by decide
/-- VI9. -/
theorem test_slti_signed :
    regAfter (exec (.slti 3 1 0xFFFF) (start [(1, 0xFFFFFFFE)])) 3 = some (1, 0x1004) := by decide
/-- VI11. -/
theorem test_mului_zero_extends :
    regAfter (exec (.mului 3 1 0xFFFF) (start [(1, 2)])) 3 = some (0x0001FFFE, 0x1004) := by decide
/-- VI13. -/
theorem test_divui_zero_extends :
    regAfter (exec (.divui 3 1 0xFFFF) (start [(1, 0xFFFFFFFF)])) 3 = some (0x00010001, 0x1004) := by decide
/-- VI15. -/
theorem test_oris :
    regAfter (exec (.oris 3 1 0x8000) (start [(1, 1)])) 3 = some (0x80000001, 0x1004) := by decide
/-- VI16. -/
theorem test_eoris :
    regAfter (exec (.eoris 3 1 0xFFFF) (start [(1, 0x12345678)])) 3 = some (0xEDCB5678, 0x1004) := by decide
/-- VH2. -/
theorem test_asl_fill :
    regAfter (exec (.asl 3 1 2 true) (start [(1, 0x80000001), (2, 4)])) 3 = some (0x0000001F, 0x1004) := by decide
/-- VH7. -/
theorem test_asl_count_modulo_32 :
    regAfter (exec (.asl 3 1 2 false) (start [(1, 1), (2, 0x24)])) 3 = some (0x10, 0x1004) := by decide
/-- VH8. -/
theorem test_asli :
    regAfter (exec (.asli 3 1 4 false) (start [(1, 0x0FFFFFFF)])) 3 = some (0xFFFFFFF0, 0x1004) := by decide
/-- VH11. -/
theorem test_asli_fill :
    regAfter (exec (.asli 3 1 31 true) (start [(1, 3)])) 3 = some (0xFFFFFFFF, 0x1004) := by decide
/-- VH12. -/
theorem test_lsr :
    regAfter (exec (.lsr 3 1 2) (start [(1, 0x80000010), (2, 4)])) 3 = some (0x08000001, 0x1004) := by decide
/-- VH15. -/
theorem test_lsri :
    regAfter (exec (.lsri 3 1 31) (start [(1, 0x80000010)])) 3 = some (1, 0x1004) := by decide
/-- VH17. -/
theorem test_rol :
    regAfter (exec (.rol 3 1 2) (start [(1, 0x80000010), (2, 4)])) 3 = some (0x00000108, 0x1004) := by decide
/-- VH20. -/
theorem test_roli :
    regAfter (exec (.roli 3 1 31) (start [(1, 0x80000010)])) 3 = some (0x40000008, 0x1004) := by decide
/-- VH22. -/
theorem test_ror :
    regAfter (exec (.ror 3 1 2) (start [(1, 0x80000010), (2, 4)])) 3 = some (0x08000001, 0x1004) := by decide
/-- VH32. -/
theorem test_rori :
    regAfter (exec (.rori 3 1 4) (start [(1, 0x00000013)])) 3 = some (0x30000001, 0x1004) := by decide
/-- VH27. -/
theorem test_asr_sign_enters :
    regAfter (exec (.asr 3 1 2) (start [(1, 0x80000010), (2, 4)])) 3 = some (0xF8000001, 0x1004) := by decide
/-- VH30. -/
theorem test_asri :
    regAfter (exec (.asri 3 1 31) (start [(1, 0x80000010)])) 3 = some (0xFFFFFFFF, 0x1004) := by decide

/-- VN21, VN22, VN24, VN28, VN30, VI3, VI4, VI14: the refused divisions. -/
theorem test_division_corners :
    [exec (.div 3 1 2) (start [(1, 5), (2, 0)]), exec (.divu 3 1 2) (start [(1, 5), (2, 0)]),
      exec (.mod 3 1 2) (start [(1, 5), (2, 0)]), exec (.modu 3 1 2) (start [(1, 5), (2, 0)]),
      exec (.divi 3 1 0) (start [(1, 5)]), exec (.divui 3 1 0) (start [(1, 5)]),
      exec (.div 3 1 2) (start [(1, 0x80000000), (2, 0xFFFFFFFF)]),
      exec (.divi 3 1 0xFFFF) (start [(1, 0x80000000)])].map refusal =
    List.replicate 6 (some .divisionByZero) ++ List.replicate 2 (some .divisionOverflow) := by decide

/-- VA22 under R0_ZERO: register 0 reads as zero; and a write to it is dropped (R22). -/
theorem test_register_zero :
    regAfter (exec (.addis 3 0 1)
      (withParams { Config.launch with r0Zero := true } (start []))) 3 = some (0x00010000, 0x1004) ∧
    regAfter (exec (.addi 0 0 7)
      (withParams { Config.launch with r0Zero := true } (start []))) 0 = some (0, 0x1004) := by decide

/-! ## Control transfer (VT) -/

/-- VT3. -/
theorem test_beq_taken :
    regAfter (exec (.beq 1 2 0xFFF8) (start [(1, 0), (2, 0)])) 1 = some (0, 0xFF8) := by decide
/-- VT2. -/
theorem test_beq_not_taken :
    regAfter (exec (.beq 1 2 16) (start [(1, 9), (2, 8)])) 1 = some (9, 0x1004) := by decide
/-- VT21. -/
theorem test_bne_taken :
    regAfter (exec (.bne 1 2 16) (start [(1, 1), (2, 2)])) 1 = some (1, 0x1010) := by decide
/-- VT23. -/
theorem test_blt_signed :
    regAfter (exec (.blt 1 2 16) (start [(1, 0xFFFFFFFF), (2, 0)])) 2 = some (0, 0x1010) := by decide
/-- VT25. -/
theorem test_ble_equal :
    regAfter (exec (.ble 1 2 16) (start [(1, 5), (2, 5)])) 1 = some (5, 0x1010) := by decide
/-- VT27. -/
theorem test_bltu_unsigned :
    regAfter (exec (.bltu 1 2 16) (start [(1, 0xFFFFFFFF), (2, 0)])) 2 = some (0, 0x1004) := by decide
/-- VT30. -/
theorem test_bleu_unsigned :
    regAfter (exec (.bleu 1 2 16) (start [(1, 0xFFFFFFFF), (2, 0)])) 2 = some (0, 0x1004) := by decide
/-- VT17. -/
theorem test_jal :
    regAfter (exec (.jal 1 2 0x40) (start [(2, 0x2000)])) 1 = some (0x1000, 0x2040) := by decide
/-- VT19. -/
theorem test_jal_same_register :
    regAfter (exec (.jal 1 1 0x40) (start [(1, 0x2000)])) 1 = some (0x1000, 0x2040) := by decide
/-- VT6. -/
theorem test_bra_forward :
    regAfter (exec (.bra 0x100) (start [])) 1 = some (0, 0x1100) := by decide
/-- VT7, from 0x1000. -/
theorem test_bra_backward :
    regAfter (exec (.bra 0xFFFFF4) (start [])) 1 = some (0, 0xFF4) := by decide

/-- The link registers and the pc in the next state, if there is one. -/
def linksAfter (a : Answer) : Option (Word × Word × Word × Word) :=
  match a with
  | .next t => some (t.lr1, t.lr2, t.lr3, t.pc)
  | _ => none

/-- VT8 and VT9: the link register gets the CALL's own address. -/
theorem test_call :
    linksAfter (exec (.call 1 0x100) (start [])) = some (0x1000, 0, 0, 0x1100) ∧
    linksAfter (exec (.call 3 0xFFFFFC) (start [])) = some (0, 0, 0x1000, 0xFFC) := by decide

/-- VT10: the SP is register 31. -/
theorem test_rtd :
    regAfter (exec (.rtd 1 4 16) (writeLink 1 0x1000 (setPc 0x1100 (start [(31, 0x7FF0)])))) 31 =
      some (0x8000, 0x1004) := by decide

/-- VT15, VT16 and RTD with Lr = 0. -/
theorem test_rtd_refused :
    [exec (.rtd 1 0x80 0) (start []), exec (.rtd 1 4 0x8000) (start []),
      exec (.rtd 0 4 16) (start [])].map refusal =
    [some .offsetSignUnknown, some .offsetSignUnknown, some .noLinkRegister] := by decide

/-! ## Loads and stores (VM) -/

/-- The data of the vectors: 0x1FFF, 0x2005 to 0x200C. -/
def data (s : State) : State :=
  withBytes 0x1FFF [0x80] (withBytes 0x2005 [0x9C, 0x34, 0x82, 0x78, 0x56, 0x34, 0x92, 0x7F] s)

/-- VM1. -/
theorem test_ldb_sign_extends :
    regAfter (exec (.ldb 3 1 5) (data (start [(1, 0x2000)]))) 3 = some (0xFFFFFF9C, 0x1003) := by decide
/-- VM2. -/
theorem test_ldb_negative_displacement :
    regAfter (exec (.ldb 3 1 0xFF) (data (start [(1, 0x2000)]))) 3 = some (0xFFFFFF80, 0x1003) := by decide
/-- VM11. -/
theorem test_ldbu :
    regAfter (exec (.ldbu 3 1 5) (data (start [(1, 0x2000)]))) 3 = some (0x9C, 0x1003) := by decide
/-- VM12. -/
theorem test_ldw_little_endian :
    regAfter (exec (.ldw 3 1 6) (data (start [(1, 0x2000)]))) 3 = some (0xFFFF8234, 0x1003) := by decide
/-- VM13. -/
theorem test_ldwu :
    regAfter (exec (.ldwu 3 1 6) (data (start [(1, 0x2000)]))) 3 = some (0x8234, 0x1003) := by decide
/-- VM15. -/
theorem test_ldt :
    regAfter (exec (.ldt 3 1 8) (data (start [(1, 0x2000)]))) 3 = some (0x92345678, 0x1003) := by decide
/-- VM7. -/
theorem test_ldbx_scaled :
    regAfter (exec (.ldbx 3 1 2 2) (data (start [(1, 0x2000), (2, 3)]))) 3 = some (0x7F, 0x1003) := by decide
/-- VM17. -/
theorem test_ldbux :
    regAfter (exec (.ldbux 3 1 2 0) (data (start [(1, 0x2000), (2, 5)]))) 3 = some (0x9C, 0x1003) := by decide
/-- VM18. -/
theorem test_ldwx :
    regAfter (exec (.ldwx 3 1 2 1) (data (start [(1, 0x2000), (2, 3)]))) 3 = some (0xFFFF8234, 0x1003) := by decide
/-- VM19. -/
theorem test_ldwux :
    regAfter (exec (.ldwux 3 1 2 1) (data (start [(1, 0x2000), (2, 3)]))) 3 = some (0x8234, 0x1003) := by decide
/-- VM20. -/
theorem test_ldtx :
    regAfter (exec (.ldtx 3 1 2 2) (data (start [(1, 0x2000), (2, 2)]))) 3 = some (0x92345678, 0x1003) := by decide
/-- VM21. -/
theorem test_stb :
    memAfter (exec (.stb 3 1 5) (data (start [(1, 0x2000), (3, 0x12345678)]))) 0x2005 1 =
      some ([0x78], [0x2005], 0x1003) := by decide
/-- VM22. -/
theorem test_stw :
    memAfter (exec (.stw 3 1 6) (data (start [(1, 0x2000), (3, 0x12345678)]))) 0x2006 2 =
      some ([0x78, 0x56], [0x2006, 0x2007], 0x1003) := by decide
/-- VM23. -/
theorem test_stt :
    memAfter (exec (.stt 3 1 8) (data (start [(1, 0x2000), (3, 0x12345678)]))) 0x2008 4 =
      some ([0x78, 0x56, 0x34, 0x12], [0x2008, 0x2009, 0x200A, 0x200B], 0x1003) := by decide
/-- VM25. -/
theorem test_stbx :
    memAfter (exec (.stbx 3 1 2 0) (data (start [(1, 0x2000), (2, 5), (3, 0x12345678)]))) 0x2005 1 =
      some ([0x78], [0x2005], 0x1003) := by decide
/-- VM26. -/
theorem test_stwx :
    memAfter (exec (.stwx 3 1 2 1) (data (start [(1, 0x2000), (2, 3), (3, 0x12345678)]))) 0x2006 2 =
      some ([0x78, 0x56], [0x2006, 0x2007], 0x1003) := by decide
/-- VM27. -/
theorem test_sttx :
    memAfter (exec (.sttx 3 1 2 2) (data (start [(1, 0x2000), (2, 2), (3, 0x12345678)]))) 0x2008 4 =
      some ([0x78, 0x56, 0x34, 0x12], [0x2008, 0x2009, 0x200A, 0x200B], 0x1003) := by decide

/-- VM5 and VM6: the last byte of the space, and an effective address that wraps to 0. -/
theorem test_load_at_the_edges :
    regAfter (exec (.ldb 3 1 0) (withBytes 0xFFFFFFFF [0x01] (start [(1, 0xFFFFFFFF)]))) 3 =
      some (1, 0x1003) ∧
    regAfter (exec (.ldb 3 1 1) (withBytes 0 [0x02] (start [(1, 0xFFFFFFFF)]))) 3 =
      some (2, 0x1003) := by decide

/-- VM4, VM14, VM16, VM24, VM28: refused accesses. -/
theorem test_accesses_refused :
    [exec (.ldb 3 1 5) (withParams (onlyRegion 0x1000 16) (start [(1, 0x3000)])),
      exec (.ldw 3 1 5) (start [(1, 0x2000)]), exec (.ldt 3 1 6) (start [(1, 0x2000)]),
      exec (.stt 3 1 6) (start [(1, 0x2000)]),
      exec (.stb 3 1 0) (withParams (onlyRegion 0x1000 16) (start [(1, 0x3000)]))].map refusal =
    [some .outsideMem, some .misaligned, some .misaligned, some .misaligned, some .outsideMem] := by
  decide

/-! ## System instructions and traps (VS) -/

/-- VS2: nested; IL kept. -/
theorem test_brk :
    trapAfter (exec .brk (withParams vectors
      (withTraps 2 [⟨0x1234, 0⟩] (setPc 0x4000 (start []))))) =
      some (0x3000, 2, [⟨0x4000, 2⟩, ⟨0x1234, 0⟩]) := by decide
/-- VS3. -/
theorem test_sys :
    trapAfter (exec (.sys 0x11) (withParams vectors (start []))) =
      some (0x3100, 0, [⟨0x1000, 0⟩]) := by decide
/-- VS4. -/
theorem test_irq :
    trapAfter (exec (.irq 3 0x25) (withParams vectors (start []))) =
      some (0x3200, 3, [⟨0x1000, 0⟩]) := by decide
/-- VS6. -/
theorem test_rts :
    trapAfter (exec (.rts 8) (withTraps 0 [⟨0x1000, 0⟩] (start []))) = some (0x1008, 0, []) := by decide
/-- VS9. -/
theorem test_rts2up :
    trapAfter (exec (.rts2up 4) (withTraps 2 [⟨0x3000, 2⟩, ⟨0x1000, 0⟩] (start []))) =
      some (0x1004, 0, []) := by decide
/-- VS7. -/
theorem test_rti :
    trapAfter (exec (.rti 0) (withTraps 5 [⟨0x1234, 0⟩] (start []))) = some (0x1234, 0, []) := by decide

/-- VS10 to VS15: refused traps and returns. -/
theorem test_traps_refused :
    [exec (.irq 3 0x25) (withTraps 3 [⟨0x1234, 0⟩] (start [])), exec (.irq 0 0x25) (start []),
      exec (.rts 4) (start []), exec (.rts2up 4) (withTraps 0 [⟨0x1000, 0⟩] (start [])),
      exec (.rti 0x80) (withTraps 0 [⟨0x1000, 0⟩] (start [])),
      exec .brk (withTraps 0 [⟨4, 0⟩, ⟨3, 0⟩, ⟨2, 0⟩, ⟨1, 0⟩] (start []))].map refusal =
    [some .irqNotAboveLevel, some .irqNotAboveLevel, some .exceptionStackUnderflow,
      some .exceptionStackUnderflow, some .offsetSignUnknown, some .exceptionStackFull] := by decide

/-- VT31 to VT33, VM29 to VM32, VD17, VD18: the nine instructions the spec names and refuses. -/
theorem test_named_and_refused :
    [exec (.bccr 1 2 3 0 8) (start []), exec (.bbs 0) (start []), exec (.eret 0) (start []),
      exec (.lda 0) (start []), exec (.cache 0) (start []), exec (.ldax 0) (start []),
      exec (.cachex 0) (start []), exec (.r1 0x00823) (start []),
      exec (.addpc 0x00823) (start [])].map refusal =
    [some .bccrTargetUnknown, some .bbsUndescribed, some .eretUndescribed, some .ldaUndescribed,
      some .cacheCommandUnknown, some .ldaxUndescribed, some .cachexCommandUnknown,
      some .r1GroupUnknown, some .addpcUndescribed] := by decide

/-! ## The step -/

/-- The instruction of VA1 in memory at the pc. -/
def addAtPc : State := withBytes 0x1000 [0xC2, 0x08, 0x02, 0x10] (start [(1, 5), (2, 7)])

/-- VA1 through the fetch. -/
theorem test_step_add : regAfter (step addAtPc) 3 = some (12, 0x1004) := by decide

/-- The same instruction placed as the host places it, from reset. -/
theorem test_withFetchWord_add :
    regAfter (step (State.reset.withFetchWord 32 0x100208C2)) 3 = some (0, 4) := by decide

/-- An instruction (ADDI r2, r1, 0) placed at END_PC, outside MEM, in a state that has one of its bytes dirty
and offers an interrupt. -/
theorem test_withFetchWord_clears_the_way :
    regAfter (step (State.withFetchWord
      { State.reset with
        params := { Config.launch with mem := [], endPc := 0 }
        dirty := [1]
        extIrq := [some ⟨9, 2⟩] } 32 0x00000884)) 2 = some (0, 4) := by decide

/-- R336's example: the request is taken in place of the instruction at the pc. -/
theorem test_external_interrupt :
    trapAfter (step { withParams vectors addAtPc with extIrq := [some ⟨9, 2⟩] }) =
      some (0x3300, 2, [⟨0x1000, 0⟩]) := by decide

/-- R336's example: with IL = 2 the request is not taken. -/
theorem test_external_interrupt_masked :
    regAfter (step { withTraps 2 [] (withParams vectors addAtPc) with extIrq := [some ⟨9, 2⟩] }) 3 =
      some (12, 0x1004) := by decide

/-- A store into its own next byte, at 0x1003 (the example after the VM vectors). -/
def selfModifying : State :=
  withBytes 0x1000 [0xF0, 0x08, 0x03] (start [(1, 0x1000), (3, 0)])

/-- The byte just stored is not fetched (R64). -/
theorem test_stored_byte_not_fetched :
    memAfter (step selfModifying) 0x1003 1 = some ([0], [0x1003], 0x1003) ∧
    refusal (Sys2Proof.core.run 2 selfModifying) = some .fetchOfStoredByte := by decide

/-- A fetch outside MEM, one that runs past the end of the space, and END_PC. -/
theorem test_fetch_stops :
    refusal (step (withParams (onlyRegion 0x1000 3) addAtPc)) = some .outsideMem ∧
    refusal (step (setPc 0xFFFFFFFE (withBytes 0xFFFFFFFE [0xC2] (start [])))) =
      some .pastEndOfSpace ∧
    step (setPc 0xFFFFFFFF (start [])) = .fault .endOfRun := ⟨by decide, by decide, rfl⟩

/-! ## Witnesses: for every statement with hypotheses, states and operands that meet them -/

theorem start_inv (regs : List (RegNum × Word)) (h : (start regs).mem = ⟨[]⟩)
    (hd : (start regs).dirty = []) (he : (start regs).es = [])
    (hp : (start regs).params = Config.launch) : (start regs).Inv := by
  unfold State.Inv
  rw [h, hd, he, hp]
  exact ⟨by decide, by decide, fun _ h => (nomatch h), by decide, by decide⟩

/-- Both clauses, next to the refused corners. -/
theorem witness_SignedDivision :
    (let s := start [(1, 0x80000000), (2, 1)]
     readReg s 2 ≠ 0 ∧ ¬(readReg s 1 = 0x80000000 ∧ readReg s 2 = 0xFFFFFFFF)) ∧
    (let s := start [(1, 0x80000001), (2, 0xFFFFFFFF)]
     readReg s 2 ≠ 0 ∧ ¬(readReg s 1 = 0x80000000 ∧ readReg s 2 = 0xFFFFFFFF)) ∧
    ((1 : BitVec 16) ≠ 0 ∧ ¬(readReg (start [(1, 0x80000000)]) 1 = 0x80000000 ∧
      (1 : BitVec 16) = 0xFFFF)) := by decide

theorem witness_UnsignedDivision :
    readReg (start [(1, 0xFFFFFFFF), (2, 1)]) 2 ≠ 0 ∧ (0xFFFF : BitVec 16) ≠ 0 := by decide

theorem witness_DivisionCornersRefused :
    readReg (start [(1, 5)]) 2 = 0 ∧
    (let s := start [(1, 0x80000000), (2, 0xFFFFFFFF)]
     readReg s 1 = 0x80000000 ∧ readReg s 2 = 0xFFFFFFFF) := by decide

theorem witness_BranchAndCall : (1 : BitVec 2) ≠ 0 ∧ (2 : BitVec 2) ≠ 0 ∧ (3 : BitVec 2) ≠ 0 := by
  decide

theorem witness_ReturnAndDeallocate :
    (3 : BitVec 2) ≠ 0 ∧ (0x7F : BitVec 8).toNat < 0x80 ∧ (0x7FFF : BitVec 16).toNat < 0x8000 := by
  decide

theorem witness_UnknownSignRefused :
    (1 : BitVec 2) ≠ 0 ∧ 0x80 ≤ (0x80 : BitVec 8).toNat ∧ 0x8000 ≤ (0x8000 : BitVec 16).toNat := by
  decide

/-- Register 0 without R0_ZERO, and register 1 with it. -/
theorem witness_CallThenReturn :
    (3 : BitVec 2) ≠ 0 ∧
    ¬((start []).params.r0Zero = true ∧ (0 : RegNum) = 0) ∧
    ¬((withParams { Config.launch with r0Zero := true } (start [])).params.r0Zero = true ∧
      (1 : RegNum) = 0) := by decide

/-- The last access of each width in the space. -/
theorem admitted_last :
    admitted State.reset 0xFFFFFFFF 1 ∧ admitted State.reset 0xFFFFFFFE 2 ∧
    admitted State.reset 0xFFFFFFFC 4 := by
  unfold admitted
  decide

theorem witness_DisplacementLoads :
    let s := start [(1, 0), (2, 0xFFFFFFFD)]
    admitted s (eaDisp s 1 0xFF) 1 ∧ admitted s (eaDisp s 2 1) 2 ∧
    admitted s (eaDisp s 1 0xFC) 4 := by
  unfold admitted
  decide

theorem witness_IndexedLoads :
    let s := start [(1, 0xFFFFFFF8), (2, 1), (3, 7)]
    admitted s (eaIndexed s 1 3 0) 1 ∧ admitted s (eaIndexed s 1 2 1) 2 ∧
    admitted s (eaIndexed s 1 2 2) 4 := by
  unfold admitted
  decide

theorem witness_DisplacementStores :
    let s := start [(1, 0xFFFFFFFC)]
    s.Inv ∧ admitted s (eaDisp s 1 3) 1 ∧ admitted s (eaDisp s 1 2) 2 ∧
    admitted s (eaDisp s 1 0) 4 :=
  ⟨start_inv _ rfl rfl rfl rfl, by unfold admitted; decide⟩

theorem witness_IndexedStores :
    let s := start [(1, 0xFFFFFFF8), (2, 1), (3, 7)]
    s.Inv ∧ admitted s (eaIndexed s 1 3 0) 1 ∧ admitted s (eaIndexed s 1 2 1) 2 ∧
    admitted s (eaIndexed s 1 2 2) 4 :=
  ⟨start_inv _ rfl rfl rfl rfl, by unfold admitted; decide⟩

/-- A misaligned access; an aligned one whose last byte is outside MEM. -/
theorem witness_UnadmittedAccessRefused :
    dataAccess (start [(1, 0x2001)]) (.ldw 3 1 0) = some (2, 0x2001) ∧ (0x2001 : Word).toNat % 2 ≠ 0 ∧
    (let s := withParams (onlyRegion 0x2000 3) (start [(1, 0x2000)])
     dataAccess s (.stt 3 1 0) = some (4, 0x2000) ∧ (0x2000 : Word).toNat % 4 = 0 ∧ 3 < 4 ∧
      inMem s.params ((0x2000 : Word).toNat + 3) = false) := by decide

theorem witness_DataAccessNeverPastEnd :
    dataAccess (start [(1, 0xFFFFFFFF)]) (.ldt 3 1 0) ≠ none := by decide

theorem witness_StoreThenLoad :
    let s := start [(1, 0xFFFFFFFC), (3, 0x12345678)]
    s.Inv ∧ admitted s (eaDisp s 1 0) 4 ∧ admitted s (eaDisp s 1 2) 2 ∧
    admitted s (eaDisp s 1 3) 1 :=
  ⟨start_inv _ rfl rfl rfl rfl, by unfold admitted; decide⟩

/-- One entry below ES_DEPTH. -/
def almostFull : State := withTraps 6 [⟨3, 0⟩, ⟨2, 0⟩, ⟨1, 0⟩] (start [])

/-- ES_DEPTH entries. -/
def full : State := withTraps 6 [⟨4, 0⟩, ⟨3, 0⟩, ⟨2, 0⟩, ⟨1, 0⟩] (start [])

theorem witness_BreakAndSystemCall : almostFull.es.length < almostFull.params.esDepth := by decide

theorem witness_InterruptInstruction :
    almostFull.il.toNat < (7 : Level).toNat ∧ almostFull.es.length < almostFull.params.esDepth := by
  decide

theorem witness_UntakenTrapsRefused :
    (6 : Level).toNat ≤ full.il.toNat ∧ full.es.length = full.params.esDepth ∧
    full.il.toNat < (7 : Level).toNat := by decide

/-- The external interrupt of UntakenTrapsRefused, at the highest level, ES full. -/
theorem witness_UntakenTrapsRefused_external :
    let s := { full with extIrq := [some ⟨9, 7⟩, none] }
    s.es.length = s.params.esDepth ∧ s.extIrq = some ⟨9, 7⟩ :: [none] ∧
    s.il.toNat < (7 : Level).toNat ∧ s.pc ≠ s.params.endPc := by decide

theorem witness_TrapReturns :
    (0x7F : BitVec 8).toNat < 0x80 ∧
    (withTraps 0 [⟨0x1000, 0⟩] (start [])).es = ⟨0x1000, 0⟩ :: [] ∧
    (withTraps 2 [⟨0x3000, 2⟩, ⟨0x1000, 0⟩] (start [])).es = ⟨0x3000, 2⟩ :: ⟨0x1000, 0⟩ :: [] := by
  decide

theorem witness_ReturnUnderflowRefused :
    (0x7F : BitVec 8).toNat < 0x80 ∧ (start []).es.length < 1 ∧
    (withTraps 0 [⟨0x1000, 0⟩] (start [])).es.length < 2 := by decide

theorem witness_NestedTrapsUnwind :
    (let s := withTraps 6 [⟨2, 0⟩, ⟨1, 0⟩] (start [])
     s.il.toNat < (7 : Level).toNat ∧ s.es.length + 2 ≤ s.params.esDepth) ∧
    almostFull.es.length + 1 ≤ almostFull.params.esDepth := by decide

theorem witness_ExternalInterruptTaken :
    let s := { almostFull with extIrq := [some ⟨9, 7⟩, none] }
    s.extIrq = some ⟨9, 7⟩ :: [none] ∧ s.il.toNat < (7 : Level).toNat ∧
    s.es.length < s.params.esDepth ∧ s.pc ≠ s.params.endPc := by decide

theorem witness_MaskedOfferIgnored :
    let s := { almostFull with extIrq := [some ⟨9, 6⟩] }
    s.extIrq = some ⟨9, 6⟩ :: [] ∧ (6 : Level).toNat ≤ s.il.toNat := by decide

theorem witness_EndPcIsFinal :
    (setPc 0xFFFFFFFF (start [])).pc = (setPc 0xFFFFFFFF (start [])).params.endPc := by decide

theorem witness_StepRunsDecodedInstruction :
    Instr.wellFormed (.add 3 1 2) = true ∧ addAtPc.pc ≠ addAtPc.params.endPc ∧
    noInterrupt addAtPc ∧ addAtPc.pc.toNat + 4 ≤ 2 ^ 32 ∧
    (∀ k, k < 4 → inMem addAtPc.params (addAtPc.pc.toNat + k) = true ∧
      addAtPc.pc.toNat + k ∉ addAtPc.dirty) ∧
    decode (bytesFrom addAtPc.mem addAtPc.pc.toNat 4) = .ok (.add 3 1 2, []) :=
  ⟨by decide, by decide, fun _ _ h => (nomatch h), by decide, by decide, by decide⟩

/-- `addAtPc` with these addresses dirty. -/
def addDirty (l : List Nat) : State := { addAtPc with dirty := l }

/-- A reserved word at the pc, and the first byte of a 4-byte word at the last address but one. -/
def reservedAtPc : State := withBytes 0x1000 [0xC2, 0x08, 0x02, 0x00] (start [])
def splitAtEnd : State := setPc 0xFFFFFFFE (withBytes 0xFFFFFFFE [0xC2] (start []))

/-- The hypotheses common to all clauses of FetchRefusals, for a 4-byte instruction. -/
def fetches4 (s : State) : Prop :=
  s.pc ≠ s.params.endPc ∧ noInterrupt s ∧ 4 = ilen (opcodeOf (s.mem.byteAt s.pc.toNat))

/-- First byte outside MEM. -/
theorem witness_FetchRefusals_first_absent :
    let s := withParams (onlyRegion 0x1001 3) addAtPc
    fetches4 s ∧ inMem s.params s.pc.toNat = false :=
  ⟨⟨by decide, fun _ _ h => (nomatch h), by decide⟩, by decide⟩

/-- First byte dirty. -/
theorem witness_FetchRefusals_first_dirty :
    let s := addDirty [0x1000]
    fetches4 s ∧ inMem s.params s.pc.toNat = true ∧ s.pc.toNat ∈ s.dirty :=
  ⟨⟨by decide, fun _ _ h => (nomatch h), by decide⟩, by decide⟩

/-- Past the end of the space. -/
theorem witness_FetchRefusals_past_end :
    let s := splitAtEnd
    fetches4 s ∧ inMem s.params s.pc.toNat = true ∧ s.pc.toNat ∉ s.dirty ∧ 2 ^ 32 < s.pc.toNat + 4 :=
  ⟨⟨by decide, fun _ _ h => (nomatch h), by decide⟩, by decide⟩

/-- Last byte outside MEM. -/
theorem witness_FetchRefusals_last_absent :
    let s := withParams (onlyRegion 0x1000 3) addAtPc
    fetches4 s ∧ inMem s.params s.pc.toNat = true ∧ s.pc.toNat ∉ s.dirty ∧
    s.pc.toNat + 4 ≤ 2 ^ 32 ∧ ∃ k, k < 4 ∧ inMem s.params (s.pc.toNat + k) = false :=
  ⟨⟨by decide, fun _ _ h => (nomatch h), by decide⟩, by decide, by decide, by decide, 3, by decide⟩

/-- Last byte dirty. -/
theorem witness_FetchRefusals_last_dirty :
    let s := addDirty [0x1003]
    fetches4 s ∧ s.pc.toNat ∉ s.dirty ∧ s.pc.toNat + 4 ≤ 2 ^ 32 ∧
    (∀ k, k < 4 → inMem s.params (s.pc.toNat + k) = true) ∧
    ∃ k, k < 4 ∧ s.pc.toNat + k ∈ s.dirty :=
  ⟨⟨by decide, fun _ _ h => (nomatch h), by decide⟩, by decide, by decide, by decide, 3, by decide⟩

/-- A reserved word. -/
theorem witness_FetchRefusals_reserved :
    let s := reservedAtPc
    fetches4 s ∧ s.pc.toNat + 4 ≤ 2 ^ 32 ∧
    (∀ k, k < 4 → inMem s.params (s.pc.toNat + k) = true ∧ s.pc.toNat + k ∉ s.dirty) ∧
    decode (bytesFrom s.mem s.pc.toNat 4) = .error (.blankR2Function 0) :=
  ⟨⟨by decide, fun _ _ h => (nomatch h), by decide⟩, by decide⟩

/-- The bit ranges of OtherBitwise, ShiftLeftWithFill, RotatesMoveBits and CompareRelationBits. -/
theorem witness_bit_ranges : (0 : Nat) < 32 ∧ (31 : Nat) < 32 ∧ (14 : Nat) ≤ 14 := by decide

theorem witness_ResetState : (1 : BitVec 2) ≠ 0 ∧ (3 : BitVec 2) ≠ 0 := by decide

theorem witness_LinkFormatsDecode : (1 : BitVec 2) ≠ 0 ∧ (3 : BitVec 2) ≠ 0 := by decide

theorem witness_MemoryFormatsDecode (r ra rb : RegNum) (disp : BitVec 8) (sc : BitVec 2) :
    ((50 : BitVec 6), Instr.stt r ra disp) ∈
      [((32 : BitVec 6), Instr.ldb r ra disp), (33, .ldbu r ra disp), (34, .ldw r ra disp),
        (35, .ldwu r ra disp), (36, .ldt r ra disp), (48, .stb r ra disp), (49, .stw r ra disp),
        (50, .stt r ra disp)] ∧
    ((40 : BitVec 6), Instr.ldbx r ra rb sc) ∈
      [((40 : BitVec 6), Instr.ldbx r ra rb sc), (41, .ldbux r ra rb sc), (42, .ldwx r ra rb sc),
        (43, .ldwux r ra rb sc), (44, .ldtx r ra rb sc), (52, .stbx r ra rb sc),
        (53, .stwx r ra rb sc), (54, .sttx r ra rb sc)] := by simp

/-- Words for each way to be reserved, at both ends of the ranges, as (opcode, function, bits 7 to 6,
bit 25). -/
theorem witness_ReservedWordsRejected :
    (([0x000008D6, 0x000008D7, 0x000008F8, 0xFFFFFFFF, 0x14000000, 0xFC000000,
       0x000208C2, 0x0C0208C2, 0x500208C2, 0x540208C2, 0x940208C2, 0xFC0208C2,
       0x0C000400, 0x0C0004C0, 0x10000040, 0x100000C0, 0x860208C2, 0x920208C2,
       0x00100411] : List (BitVec 32)).map fun w =>
      (w.toNat % 64, w.toNat / 2 ^ 26, w.toNat / 64 % 4, w.toNat / 2 ^ 25 % 2)) =
    [(22, 0, 3, 0), (23, 0, 3, 0), (56, 0, 3, 0), (63, 63, 3, 1), (0, 5, 0, 0), (0, 63, 0, 0),
     (2, 0, 3, 0), (2, 3, 3, 0), (2, 20, 3, 0), (2, 21, 3, 0), (2, 37, 3, 0), (2, 63, 3, 0),
     (0, 3, 0, 0), (0, 3, 3, 0), (0, 4, 1, 0), (0, 4, 3, 0), (2, 33, 3, 1), (2, 36, 3, 1),
     (17, 0, 0, 0)] := by decide

/-- Words for each field that must be zero, with the field (low bit, width) that is not, as (opcode,
function, field not zero); and 24-bit words, as (opcode, bit 23). -/
theorem witness_UnusedFieldsRejected :
    (([(0x000108C1, 11, 5), (0x102208C2, 21, 5), (0x7E0208C2, 21, 5), (0x802208C2, 21, 3),
       (0x908208C2, 21, 3), (0x00000040, 6, 20), (0x02000000, 6, 20), (0x062500C0, 25, 1),
       (0x042502C0, 9, 7), (0x0A110000, 25, 1), (0x08110040, 6, 10), (0x0C010440, 16, 10),
       (0x12000000, 16, 10)] :
      List (BitVec 32 × Nat × Nat)).map fun c =>
      (c.1.toNat % 64, c.1.toNat / 2 ^ 26, c.1.toNat / 2 ^ c.2.1 % 2 ^ c.2.2 != 0)) =
    [(1, 0, true), (2, 4, true), (2, 31, true), (2, 32, true), (2, 36, true), (0, 0, true),
     (0, 0, true), (0, 1, true), (0, 1, true), (0, 2, true), (0, 2, true), (0, 3, true),
     (0, 4, true)] ∧
    (([0x000025, 0x00002D, 0x000033, 0x000037, 0x8208E8, 0x820976] : List (BitVec 24)).map fun w =>
      (w.toNat % 64, w.toNat / 2 ^ 23)) =
    [(37, 0), (45, 0), (51, 0), (55, 0), (40, 1), (54, 1)] := by decide

theorem witness_DecodeOfEncode :
    Instr.wellFormed (.call 1 0) = true ∧ Instr.wellFormed (.rtd 3 0xFF 0xFFFF) = true := by decide

theorem witness_EncodeOfDecode :
    decode [0xF6, 0xFF, 0x7F, 0xAA] = .ok (.sttx 31 31 31 3, [0xAA]) := by decide

/-- A load of the word the pc stands at, for the statements over every instruction. -/
theorem exec_ldt_next : ∃ t, exec (.ldt 3 1 0) (start [(1, 0x1000)]) = .next t := ⟨_, rfl⟩

theorem addAtPc_inv : addAtPc.Inv :=
  ⟨by decide, by decide, fun _ h => (nomatch h), by decide, by decide⟩

theorem witness_StepKeepsInvariant : addAtPc.Inv ∧ ∃ t, step addAtPc = .next t :=
  ⟨addAtPc_inv, _, rfl⟩

theorem witness_StepKeepsParameters : ∃ t, step addAtPc = .next t := ⟨_, rfl⟩

theorem witness_OnlyStoresWriteMemory :
    (∃ t, exec (.ldt 3 1 0) (start [(1, 0x1000)]) = .next t) ∧ isStore (.ldt 3 1 0) = false :=
  ⟨exec_ldt_next, rfl⟩

theorem witness_OnlyCallWritesLinks :
    ∃ t, exec (.call 2 0x100) (start []) = .next t ∧ ¬sameLinks (start []) t := by
  refine ⟨_, rfl, ?_⟩
  unfold sameLinks
  decide

theorem witness_OnlyRtdReadsLinks :
    (∀ lr offs imm, Instr.call 2 0x100 ≠ .rtd lr offs imm) ∧
    (∃ t, exec (.call 2 0x100) (start []) = .next t) ∧
    (∀ lr offs imm, Instr.div 3 1 2 ≠ .rtd lr offs imm) ∧
    ∃ r, exec (.div 3 1 2) (start []) = .refused r :=
  ⟨fun _ _ _ => by simp, ⟨_, rfl⟩, fun _ _ _ => by simp, ⟨_, rfl⟩⟩

theorem witness_OnlyTargetWritten :
    (∃ t, exec (.ldt 3 1 0) (start [(1, 0x1000)]) = .next t) ∧
    targetReg (start [(1, 0x1000)]).params (.ldt 3 1 0) ≠ some 1 := ⟨exec_ldt_next, by decide⟩

theorem witness_OnlyTrapsChangeTrapState :
    (∃ t, exec (.ldt 3 1 0) (start [(1, 0x1000)]) = .next t) ∧ isTrap (.ldt 3 1 0) = false :=
  ⟨exec_ldt_next, rfl⟩

theorem witness_SequentialAdvance :
    (∃ t, exec (.ldt 3 1 0) (start [(1, 0x1000)]) = .next t) ∧ isTransfer (.ldt 3 1 0) = false :=
  ⟨exec_ldt_next, rfl⟩

/-- One step that stores, so that dirty grows, from a state in which it is not empty. -/
theorem witness_CleanBytesUnchangedOverRuns :
    let s := { selfModifying with dirty := [0x3000] }
    s.Inv ∧ 0x3000 ∈ s.dirty ∧ ∃ t, Sys2Proof.core.run 1 s = .next t ∧ 0x1004 ∉ t.dirty :=
  ⟨⟨by decide, by decide, by decide, by decide, by decide⟩, by decide, _, rfl, by decide⟩

theorem witness_RegisterZero :
    (withParams { Config.launch with r0Zero := true } (start [])).params.r0Zero = true ∧
    (start []).params.r0Zero = false := by decide

end Sys2Proof.Tests
end

section
/-! Encoding, the formats without a register operand: J and RTD (R87, R88) and the {SYS} group (R89). For
each format: its word as the or of its shifted fields, and what the decoder answers on its words. -/

namespace Sys2Proof

open Machine

/-! ## The words as shifted fields -/

theorem wordJ_eq_or (disp : BitVec 24) (lr : BitVec 2) :
    (zext disp <<< 8 ||| zext lr <<< 6 ||| 18#32) = wordJ disp lr := by
  apply BitVec.eq_of_getLsbD_eq
  intro j hj
  simp only [wordJ, BitVec.getLsbD_append, BitVec.getLsbD_or, BitVec.getLsbD_shiftLeft,
    zext_getLsbD (n := 24) (by omega), zext_getLsbD (n := 2) (by omega)]
  interval_cases j <;> simp

theorem wordJ_no_link_eq_or (disp : BitVec 24) : (zext disp <<< 8 ||| 18#32) = wordJ disp 0 := by
  have hfield : (zext (0 : BitVec 2) <<< 6 : BitVec 32) = 0#32 := rfl
  have hword := wordJ_eq_or disp 0
  rwa [hfield, BitVec.or_zero] at hword

theorem wordRTD_eq_or (imm : BitVec 16) (offs : BitVec 8) (lr : BitVec 2) :
    (zext imm <<< 16 ||| zext offs <<< 8 ||| zext lr <<< 6 ||| 17#32) = wordRTD imm offs lr := by
  apply BitVec.eq_of_getLsbD_eq
  intro j hj
  simp only [wordRTD, BitVec.getLsbD_append, BitVec.getLsbD_or, BitVec.getLsbD_shiftLeft,
    zext_getLsbD (n := 16) (by omega), zext_getLsbD (n := 8) (by omega), zext_getLsbD (n := 2) (by omega)]
  interval_cases j <;> simp

theorem wordIRQ_eq_or (num : BitVec 9) (lvl : Level) :
    (0x04000000#32 ||| zext num <<< 16 ||| zext lvl <<< 6) = wordIRQ num lvl := by
  apply BitVec.eq_of_getLsbD_eq
  intro j hj
  simp only [wordIRQ, BitVec.getLsbD_append, BitVec.getLsbD_or, BitVec.getLsbD_shiftLeft,
    zext_getLsbD (n := 9) (by omega), zext_getLsbD (n := 3) (by omega)]
  interval_cases j <;> simp

theorem wordSYS_eq_or (num : BitVec 9) :
    (0x08000000#32 ||| zext num <<< 16) = wordSYS num := by
  apply BitVec.eq_of_getLsbD_eq
  intro j hj
  simp only [wordSYS, BitVec.getLsbD_append, BitVec.getLsbD_or, BitVec.getLsbD_shiftLeft,
    zext_getLsbD (n := 9) (by omega)]
  interval_cases j <;> simp

/-- The function and Dep fields of a trap return stand in the word with offset 0; the offset is put in by
an or. -/
theorem wordRet_eq_or (func : BitVec 6) (offs : BitVec 8) (dep : BitVec 2) :
    (wordRet func 0 dep ||| zext offs <<< 8) = wordRet func offs dep := by
  apply BitVec.eq_of_getLsbD_eq
  intro j hj
  simp only [wordRet, BitVec.getLsbD_append, BitVec.getLsbD_or, BitVec.getLsbD_shiftLeft,
    zext_getLsbD (n := 8) (by omega)]
  interval_cases j <;> simp

/-! ## Opcodes 17 and 18 -/

theorem decode32_wordJ_no_link (disp : BitVec 24) : decode32 (wordJ disp 0) = .ok (.bra disp) := by
  obtain ⟨hop, hlr, hdisp⟩ := field_wordJ disp 0
  simp only [decode32, hop, hlr, hdisp]
  rfl

theorem decode32_wordJ_link {lr : BitVec 2} (h : lr ≠ 0) (disp : BitVec 24) :
    decode32 (wordJ disp lr) = .ok (.call lr disp) := by
  obtain ⟨hop, hlr, hdisp⟩ := field_wordJ disp lr
  simp only [decode32, hop, hlr, hdisp, beq_eq_false_iff_ne.mpr h]
  rfl

theorem decode32_wordRTD {lr : BitVec 2} (h : lr ≠ 0) (imm : BitVec 16) (offs : BitVec 8) :
    decode32 (wordRTD imm offs lr) = .ok (.rtd lr offs imm) := by
  obtain ⟨hop, hlr, hoffs, himm⟩ := field_wordRTD imm offs lr
  simp only [decode32, hop, hlr, hoffs, himm, beq_eq_false_iff_ne.mpr h]
  rfl

/-- Settles O42: each word is its format's word, and the zero test on its Lr field picks the arm. -/
theorem linkFormatsDecode : Obligations.LinkFormatsDecode := by
  unfold Obligations.LinkFormatsDecode
  intro lr disp offs imm
  rw [wordJ_no_link_eq_or, wordJ_eq_or, wordRTD_eq_or]
  refine ⟨?bra, fun h => ⟨?call, ?rtd⟩⟩
  case bra => exact decode_of_decode32 18 (field_wordJ disp 0).1 rfl (decode32_wordJ_no_link disp)
  case call => exact decode_of_decode32 18 (field_wordJ disp lr).1 rfl (decode32_wordJ_link h disp)
  case rtd =>
    exact decode_of_decode32 17 (field_wordRTD imm offs lr).1 rfl (decode32_wordRTD h imm offs)

/-! ## The {SYS} group -/

/-- The bytes of one word of the {SYS} group. -/
theorem decode_of_decodeSys {w : BitVec 32} {i : Instr} (hop : field w 0 6 = 0)
    (h : decodeSys w = .ok i) : decode (bytes32 w) = .ok (i, []) :=
  decode_of_decode32 0 hop rfl (by unfold decode32; rw [hop]; exact h)

theorem decodeSys_wordIRQ (num : BitVec 9) (lvl : Level) :
    decodeSys (wordIRQ num lvl) = .ok (.irq lvl num) := by
  obtain ⟨-, hlvl, hlow, hnum, htop, hfunc⟩ := field_wordIRQ num lvl
  simp only [decodeSys, acceptIf, hlvl, hlow, hnum, htop, hfunc]
  rfl

theorem decodeSys_wordSYS (num : BitVec 9) : decodeSys (wordSYS num) = .ok (.sys num) := by
  obtain ⟨-, hlow, hnum, htop, hfunc⟩ := field_wordSYS num
  simp only [decodeSys, acceptIf, hlow, hnum, htop, hfunc]
  rfl

/-- The trap returns: Dep tells RTS from RTS2UP and is zero in RTI. -/
theorem decodeSys_wordRet (offs : BitVec 8) :
    decodeSys (wordRet 3 offs 1) = .ok (.rts offs) ∧
    decodeSys (wordRet 3 offs 2) = .ok (.rts2up offs) ∧
    decodeSys (wordRet 4 offs 0) = .ok (.rti offs) := by
  refine ⟨?_, ?_, ?_⟩ <;> simp only [decodeSys, acceptIf, field_wordRet] <;> rfl

/-- The bytes of a trap return's word, the offset written into the word with offset 0. -/
theorem decode_wordRet {i : Instr} (func : BitVec 6) (offs : BitVec 8) (dep : BitVec 2)
    (h : decodeSys (wordRet func offs dep) = .ok i) :
    decode (bytes32 (wordRet func 0 dep ||| zext offs <<< 8)) = .ok (i, []) := by
  rw [wordRet_eq_or]
  exact decode_of_decodeSys (field_wordRet func offs dep).1 h

/-- Settles O43: each word is its format's word, whose function field, and for a return its Dep field,
picks the arm of the {SYS} decoder. -/
theorem systemFormatsDecode : Obligations.SystemFormatsDecode := by
  unfold Obligations.SystemFormatsDecode
  intro num lvl offs
  obtain ⟨hrts, hrts2up, hrti⟩ := decodeSys_wordRet offs
  rw [wordIRQ_eq_or, wordSYS_eq_or]
  refine ⟨?brk, ?irq, ?sys, ?rts, ?rts2up, ?rti⟩
  case brk => exact decode_of_decodeSys (w := 0) rfl rfl
  case irq => exact decode_of_decodeSys (field_wordIRQ num lvl).1 (decodeSys_wordIRQ num lvl)
  case sys => exact decode_of_decodeSys (field_wordSYS num).1 (decodeSys_wordSYS num)
  case rts => exact decode_wordRet 3 offs 1 hrts
  case rts2up => exact decode_wordRet 3 offs 2 hrts2up
  case rti => exact decode_wordRet 4 offs 0 hrti

end Sys2Proof
end

section
/-! Encoding, every format. `Word32 w i` and `Word24 w i` say that `w` is the word of `i`; the decoder
answers `i` on `w` exactly when they hold, and the encoder writes that word. The rows of a format stand in
a table, so that a fact about the format is proved once. -/

namespace Sys2Proof

open Machine

/-! ## The rows of the formats that several instructions share -/

/-- Format RI (R82, R92). -/
def rowsRI : List (BitVec 6 × (RegNum → RegNum → BitVec 16 → Instr)) :=
  [(3, .addis), (4, .addi), (5, .cmpi), (6, .muli), (7, .divi), (8, .andi), (9, .ori), (10, .eori),
    (11, .andis), (12, .subfi), (13, .slti), (14, .mului), (15, .divui), (19, .jal), (20, .oris),
    (21, .eoris)]

/-- Format R2 (R83, R94). -/
def rowsR2 : List (BitVec 6 × (RegNum → RegNum → RegNum → Instr)) :=
  [(4, .add), (5, .cmp), (6, .mul), (7, .div), (8, .and), (9, .or), (10, .eor), (11, .andn),
    (12, .sub), (13, .slt13), (14, .mulu), (15, .divu), (16, .nand), (17, .nor), (18, .enor),
    (19, .orn), (22, .mulh), (23, .mod), (24, .seq), (25, .sne), (26, .slt), (27, .sle),
    (28, .sltu), (29, .sleu), (30, .muluh), (31, .modu)]

/-- Format SH without a fill bit, register form and immediate form (R84, R94). -/
def rowsShift :
    List (BitVec 6 × (RegNum → RegNum → RegNum → Instr) × (RegNum → RegNum → BitVec 5 → Instr)) :=
  [(33, .lsr, .lsri), (34, .rol, .roli), (35, .ror, .rori), (36, .asr, .asri)]

/-- Format BR (R85, R92). -/
def rowsBR : List (BitVec 6 × (RegNum → RegNum → BitVec 16 → Instr)) :=
  [(24, .beq), (25, .bne), (26, .blt), (27, .ble), (28, .bltu), (29, .bleu)]

/-- Format M8 (R90, R92). -/
def rowsM8 : List (BitVec 6 × (RegNum → RegNum → BitVec 8 → Instr)) :=
  [(32, .ldb), (33, .ldbu), (34, .ldw), (35, .ldwu), (36, .ldt), (48, .stb), (49, .stw), (50, .stt)]

/-- Format MX (R91, R92). -/
def rowsMX : List (BitVec 6 × (RegNum → RegNum → RegNum → BitVec 2 → Instr)) :=
  [(40, .ldbx), (41, .ldbux), (42, .ldwx), (43, .ldwux), (44, .ldtx), (52, .stbx), (53, .stwx),
    (54, .sttx)]

/-- `w` is the 32-bit word of `i` (R82 to R89). -/
inductive Word32 : BitVec 32 → Instr → Prop where
  | ri {op mk} (row : (op, mk) ∈ rowsRI) (rt ra : RegNum) (imm : BitVec 16) :
      Word32 (wordRI imm ra rt op) (mk rt ra imm)
  | apcis (rt : RegNum) (imm : BitVec 16) : Word32 (wordRI imm 0 rt 1) (.apcis rt imm)
  | r2 {func mk} (row : (func, mk) ∈ rowsR2) (rt ra rb : RegNum) :
      Word32 (wordR2 func rb ra rt) (mk rt ra rb)
  | asl (rt ra rb : RegNum) (f : Bool) : Word32 (wordSH 32 f 0 rb ra rt) (.asl rt ra rb f)
  | asli (rt ra : RegNum) (count : BitVec 5) (f : Bool) :
      Word32 (wordSH 32 f 1 count ra rt) (.asli rt ra count f)
  | shift {func reg immf} (row : (func, reg, immf) ∈ rowsShift) (rt ra rb : RegNum) :
      Word32 (wordSH func false 0 rb ra rt) (reg rt ra rb)
  | shiftImm {func reg immf} (row : (func, reg, immf) ∈ rowsShift) (rt ra : RegNum)
      (count : BitVec 5) : Word32 (wordSH func false 1 count ra rt) (immf rt ra count)
  | r1 (rest : BitVec 20) : Word32 (wordFunc 1 rest) (.r1 rest)
  | addpc (rest : BitVec 20) : Word32 (wordFunc 2 rest) (.addpc rest)
  | br {op mk} (row : (op, mk) ∈ rowsBR) (ra rb : RegNum) (disp : BitVec 16) :
      Word32 (wordBR disp rb ra op) (mk ra rb disp)
  | bccr (ra rb rc : RegNum) (cond : BitVec 3) (disp : BitVec 8) :
      Word32 (wordBRR disp cond rc rb ra) (.bccr ra rb rc cond disp)
  | bbs (rest : BitVec 26) : Word32 (wordOp32 rest 31) (.bbs rest)
  | eret (rest : BitVec 26) : Word32 (wordOp32 rest 16) (.eret rest)
  | bra (disp : BitVec 24) : Word32 (wordJ disp 0) (.bra disp)
  | call {lr : BitVec 2} (link : lr ≠ 0) (disp : BitVec 24) : Word32 (wordJ disp lr) (.call lr disp)
  | rtd {lr : BitVec 2} (link : lr ≠ 0) (offs : BitVec 8) (imm : BitVec 16) :
      Word32 (wordRTD imm offs lr) (.rtd lr offs imm)
  | brk : Word32 0 .brk
  | irq (lvl : Level) (num : BitVec 9) : Word32 (wordIRQ num lvl) (.irq lvl num)
  | sys (num : BitVec 9) : Word32 (wordSYS num) (.sys num)
  | rts (offs : BitVec 8) : Word32 (wordRet 3 offs 1) (.rts offs)
  | rts2up (offs : BitVec 8) : Word32 (wordRet 3 offs 2) (.rts2up offs)
  | rti (offs : BitVec 8) : Word32 (wordRet 4 offs 0) (.rti offs)

/-- `w` is the 24-bit word of `i` (R90, R91). -/
inductive Word24 : BitVec 24 → Instr → Prop where
  | m8 {op mk} (row : (op, mk) ∈ rowsM8) (r ra : RegNum) (disp : BitVec 8) :
      Word24 (wordM8 disp ra r op) (mk r ra disp)
  | mx {op mk} (row : (op, mk) ∈ rowsMX) (r ra rb : RegNum) (sc : BitVec 2) :
      Word24 (wordMX sc rb ra r op) (mk r ra rb sc)
  | lda (rest : BitVec 18) : Word24 (wordOp24 rest 38) (.lda rest)
  | cache (rest : BitVec 18) : Word24 (wordOp24 rest 39) (.cache rest)
  | ldax (rest : BitVec 18) : Word24 (wordOp24 rest 46) (.ldax rest)
  | cachex (rest : BitVec 18) : Word24 (wordOp24 rest 47) (.cachex rest)

/-! ## The decoder's arm for a row -/

theorem decode32_of_rowsRI {op mk} (row : (op, mk) ∈ rowsRI) {w : BitVec 32}
    (hop : field w 0 6 = op) : decode32 w = decodeRI w mk := by
  have arm : ∀ row ∈ rowsRI, field w 0 6 = row.1 → decode32 w = decodeRI w row.2 := by
    simp only [rowsRI, List.forall_mem_cons, List.not_mem_nil, false_imp_iff, implies_true,
      and_true]
    and_intros <;> exact fun harm => by simp only [decode32, harm]; rfl
  exact arm _ row hop

theorem decode32_of_rowsBR {op mk} (row : (op, mk) ∈ rowsBR) {w : BitVec 32}
    (hop : field w 0 6 = op) : decode32 w = decodeBR w mk := by
  have arm : ∀ row ∈ rowsBR, field w 0 6 = row.1 → decode32 w = decodeBR w row.2 := by
    simp only [rowsBR, List.forall_mem_cons, List.not_mem_nil, false_imp_iff, implies_true,
      and_true]
    and_intros <;> exact fun harm => by simp only [decode32, harm]; rfl
  exact arm _ row hop

theorem decodeR2_of_rowsR2 {func mk} (row : (func, mk) ∈ rowsR2) {w : BitVec 32}
    (hfunc : field w 26 6 = func) : decodeR2 w = decodeR2Form w mk := by
  have arm : ∀ row ∈ rowsR2, field w 26 6 = row.1 → decodeR2 w = decodeR2Form w row.2 := by
    simp only [rowsR2, List.forall_mem_cons, List.not_mem_nil, false_imp_iff, implies_true,
      and_true]
    and_intros <;> exact fun harm => by simp only [decodeR2, harm]; rfl
  exact arm _ row hfunc

theorem decodeR2_of_rowsShift {func reg immf} (row : (func, reg, immf) ∈ rowsShift) {w : BitVec 32}
    (hfunc : field w 26 6 = func) : decodeR2 w = decodeShift w reg immf := by
  have arm : ∀ row ∈ rowsShift, field w 26 6 = row.1 →
      decodeR2 w = decodeShift w row.2.1 row.2.2 := by
    simp only [rowsShift, List.forall_mem_cons, List.not_mem_nil, false_imp_iff, implies_true,
      and_true]
    and_intros <;> exact fun harm => by simp only [decodeR2, harm]; rfl
  exact arm _ row hfunc

theorem decode24_of_rowsM8 {op mk} (row : (op, mk) ∈ rowsM8) {w : BitVec 24}
    (hop : field w 0 6 = op) : decode24 w = decodeM8 w mk := by
  have arm : ∀ row ∈ rowsM8, field w 0 6 = row.1 → decode24 w = decodeM8 w row.2 := by
    simp only [rowsM8, List.forall_mem_cons, List.not_mem_nil, false_imp_iff, implies_true,
      and_true]
    and_intros <;> exact fun harm => by simp only [decode24, harm]; rfl
  exact arm _ row hop

theorem decode24_of_rowsMX {op mk} (row : (op, mk) ∈ rowsMX) {w : BitVec 24}
    (hop : field w 0 6 = op) : decode24 w = decodeMX w mk := by
  have arm : ∀ row ∈ rowsMX, field w 0 6 = row.1 → decode24 w = decodeMX w row.2 := by
    simp only [rowsMX, List.forall_mem_cons, List.not_mem_nil, false_imp_iff, implies_true,
      and_true]
    and_intros <;> exact fun harm => by simp only [decode24, harm]; rfl
  exact arm _ row hop

theorem decodeM8_wordM8 (disp : BitVec 8) (ra r : RegNum) (op : BitVec 6)
    (mk : RegNum → RegNum → BitVec 8 → Instr) :
    decodeM8 (wordM8 disp ra r op) mk = .ok (mk r ra disp) := by
  simp only [decodeM8, field_wordM8 disp ra r op]

theorem decodeMX_wordMX (sc : BitVec 2) (rb ra r : RegNum) (op : BitVec 6)
    (mk : RegNum → RegNum → RegNum → BitVec 2 → Instr) :
    decodeMX (wordMX sc rb ra r op) mk = .ok (mk r ra rb sc) := by
  simp only [decodeMX, acceptIf, field_wordMX sc rb ra r op]
  rfl

/-! ## The decoder and the encoder on the word of an instruction -/

theorem decode32_of_decodeR2 {w : BitVec 32} {i : Instr} (hop : field w 0 6 = 2)
    (h : decodeR2 w = .ok i) : decode32 w = .ok i := by
  unfold decode32
  rw [hop]
  exact h

theorem decode32_of_decodeSys {w : BitVec 32} {i : Instr} (hop : field w 0 6 = 0)
    (h : decodeSys w = .ok i) : decode32 w = .ok i := by
  unfold decode32
  rw [hop]
  exact h

/-- The fields of a word select its arm of the decoder and give back the operands. -/
theorem decode32_of_word32 {w : BitVec 32} {i : Instr} (h : Word32 w i) : decode32 w = .ok i := by
  cases h with
  | @ri op _ row rt ra imm =>
    rw [decode32_of_rowsRI row (field_wordRI imm ra rt op).1, decodeRI_wordRI]
  | apcis rt imm =>
    obtain ⟨hop, hrt, hra, himm⟩ := field_wordRI imm 0 rt 1
    simp only [decode32, hop, hrt, hra, himm]
    rfl
  | @r2 func _ row rt ra rb =>
    obtain ⟨hop, -, -, -, -, hfunc⟩ := field_wordR2 func rb ra rt
    exact decode32_of_decodeR2 hop
      ((decodeR2_of_rowsR2 row hfunc).trans (decodeR2Form_wordR2 func rb ra rt _))
  | asl rt ra rb f =>
    obtain ⟨hop, -, -, -, -, -, -, hfunc⟩ := field_wordSH 32 f 0 rb ra rt
    refine decode32_of_decodeR2 hop ?_
    unfold decodeR2
    rw [hfunc]
    exact (decodeAsl_wordSH 32 f rb ra rt).1
  | asli rt ra count f =>
    obtain ⟨hop, -, -, -, -, -, -, hfunc⟩ := field_wordSH 32 f 1 count ra rt
    refine decode32_of_decodeR2 hop ?_
    unfold decodeR2
    rw [hfunc]
    exact (decodeAsl_wordSH 32 f count ra rt).2
  | @shift func reg immf row rt ra rb =>
    obtain ⟨hop, -, -, -, -, -, -, hfunc⟩ := field_wordSH func false 0 rb ra rt
    exact decode32_of_decodeR2 hop
      ((decodeR2_of_rowsShift row hfunc).trans (decodeShift_wordSH func rb ra rt reg immf).1)
  | @shiftImm func reg immf row rt ra count =>
    obtain ⟨hop, -, -, -, -, -, -, hfunc⟩ := field_wordSH func false 1 count ra rt
    exact decode32_of_decodeR2 hop
      ((decodeR2_of_rowsShift row hfunc).trans (decodeShift_wordSH func count ra rt reg immf).2)
  | r1 rest =>
    obtain ⟨hop, hrest, hfunc⟩ := field_wordFunc 1 rest
    exact decode32_of_decodeR2 hop (by simp only [decodeR2, hfunc, hrest]; rfl)
  | addpc rest =>
    obtain ⟨hop, hrest, hfunc⟩ := field_wordFunc 2 rest
    exact decode32_of_decodeR2 hop (by simp only [decodeR2, hfunc, hrest]; rfl)
  | @br op _ row ra rb disp =>
    rw [decode32_of_rowsBR row (field_wordBR disp rb ra op).1, decodeBR_wordBR]
  | bccr ra rb rc cond disp =>
    obtain ⟨hop, hra, hrb, hrc, hcond, hdisp⟩ := field_wordBRR disp cond rc rb ra
    simp only [decode32, hop, hra, hrb, hrc, hcond, hdisp]
    rfl
  | bbs rest =>
    obtain ⟨hop, hrest⟩ := field_wordOp32 rest 31
    simp only [decode32, hop, hrest]
    rfl
  | eret rest =>
    obtain ⟨hop, hrest⟩ := field_wordOp32 rest 16
    simp only [decode32, hop, hrest]
    rfl
  | bra disp => exact decode32_wordJ_no_link disp
  | call link disp => exact decode32_wordJ_link link disp
  | rtd link offs imm => exact decode32_wordRTD link imm offs
  | brk => rfl
  | irq lvl num => exact decode32_of_decodeSys (field_wordIRQ num lvl).1 (decodeSys_wordIRQ num lvl)
  | sys num => exact decode32_of_decodeSys (field_wordSYS num).1 (decodeSys_wordSYS num)
  | rts offs =>
    obtain ⟨hrts, -, -⟩ := decodeSys_wordRet offs
    exact decode32_of_decodeSys (field_wordRet 3 offs 1).1 hrts
  | rts2up offs =>
    obtain ⟨-, hrts2up, -⟩ := decodeSys_wordRet offs
    exact decode32_of_decodeSys (field_wordRet 3 offs 2).1 hrts2up
  | rti offs =>
    obtain ⟨-, -, hrti⟩ := decodeSys_wordRet offs
    exact decode32_of_decodeSys (field_wordRet 4 offs 0).1 hrti

theorem decode24_of_word24 {w : BitVec 24} {i : Instr} (h : Word24 w i) : decode24 w = .ok i := by
  cases h with
  | @m8 op _ row r ra disp =>
    rw [decode24_of_rowsM8 row (field_wordM8 disp ra r op).1, decodeM8_wordM8]
  | @mx op _ row r ra rb sc =>
    rw [decode24_of_rowsMX row (field_wordMX sc rb ra r op).1, decodeMX_wordMX]
  | lda rest =>
    obtain ⟨hop, hrest⟩ := field_wordOp24 rest 38
    simp only [decode24, hop, hrest]
    rfl
  | cache rest =>
    obtain ⟨hop, hrest⟩ := field_wordOp24 rest 39
    simp only [decode24, hop, hrest]
    rfl
  | ldax rest =>
    obtain ⟨hop, hrest⟩ := field_wordOp24 rest 46
    simp only [decode24, hop, hrest]
    rfl
  | cachex rest =>
    obtain ⟨hop, hrest⟩ := field_wordOp24 rest 47
    simp only [decode24, hop, hrest]
    rfl

end Sys2Proof
end

section
/-! Encoding, the round trip one way (R82 to R91, R101): the encoder writes the word of an instruction,
every well-formed instruction has a word, and so its bytes decode to it. -/

namespace Sys2Proof

open Machine

/-- The encoder writes the bytes of an instruction's word, whose opcode gives 4 bytes. -/
theorem encode_of_word32 {w : BitVec 32} {i : Instr} (h : Word32 w i) :
    encode i = bytes32 w ∧ ilen (field w 0 6) = 4 ∧ i.wellFormed = true := by
  cases h with
  | @ri op mk row rt ra imm =>
    have rows : ∀ row ∈ rowsRI, encode (row.2 rt ra imm) = bytes32 (wordRI imm ra rt row.1) ∧
        ilen row.1 = 4 ∧ (row.2 rt ra imm).wellFormed = true := by
      simp only [rowsRI, List.forall_mem_cons, List.not_mem_nil, false_imp_iff, implies_true,
      and_true]
      and_intros <;> rfl
    rw [(field_wordRI imm ra rt op).1]
    exact rows _ row
  | apcis rt imm => exact ⟨rfl, by rw [(field_wordRI imm 0 rt 1).1]; rfl, rfl⟩
  | @r2 func mk row rt ra rb =>
    have rows : ∀ row ∈ rowsR2, encode (row.2 rt ra rb) = bytes32 (wordR2 row.1 rb ra rt) ∧
        (row.2 rt ra rb).wellFormed = true := by
      simp only [rowsR2, List.forall_mem_cons, List.not_mem_nil, false_imp_iff, implies_true,
      and_true]
      and_intros <;> rfl
    rw [(field_wordR2 func rb ra rt).1]
    obtain ⟨henc, hwf⟩ := rows _ row
    exact ⟨henc, rfl, hwf⟩
  | asl rt ra rb f => exact ⟨rfl, by rw [(field_wordSH 32 f 0 rb ra rt).1]; rfl, rfl⟩
  | asli rt ra count f => exact ⟨rfl, by rw [(field_wordSH 32 f 1 count ra rt).1]; rfl, rfl⟩
  | @shift func reg immf row rt ra rb =>
    have rows : ∀ row ∈ rowsShift,
        encode (row.2.1 rt ra rb) = bytes32 (wordSH row.1 false 0 rb ra rt) ∧
        (row.2.1 rt ra rb).wellFormed = true := by
      simp only [rowsShift, List.forall_mem_cons, List.not_mem_nil, false_imp_iff, implies_true,
      and_true]
      and_intros <;> rfl
    rw [(field_wordSH func false 0 rb ra rt).1]
    obtain ⟨henc, hwf⟩ := rows _ row
    exact ⟨henc, rfl, hwf⟩
  | @shiftImm func reg immf row rt ra count =>
    have rows : ∀ row ∈ rowsShift,
        encode (row.2.2 rt ra count) = bytes32 (wordSH row.1 false 1 count ra rt) ∧
        (row.2.2 rt ra count).wellFormed = true := by
      simp only [rowsShift, List.forall_mem_cons, List.not_mem_nil, false_imp_iff, implies_true,
      and_true]
      and_intros <;> rfl
    rw [(field_wordSH func false 1 count ra rt).1]
    obtain ⟨henc, hwf⟩ := rows _ row
    exact ⟨henc, rfl, hwf⟩
  | r1 rest => exact ⟨rfl, by rw [(field_wordFunc 1 rest).1]; rfl, rfl⟩
  | addpc rest => exact ⟨rfl, by rw [(field_wordFunc 2 rest).1]; rfl, rfl⟩
  | @br op mk row ra rb disp =>
    have rows : ∀ row ∈ rowsBR, encode (row.2 ra rb disp) = bytes32 (wordBR disp rb ra row.1) ∧
        ilen row.1 = 4 ∧ (row.2 ra rb disp).wellFormed = true := by
      simp only [rowsBR, List.forall_mem_cons, List.not_mem_nil, false_imp_iff, implies_true,
      and_true]
      and_intros <;> rfl
    rw [(field_wordBR disp rb ra op).1]
    exact rows _ row
  | bccr ra rb rc cond disp =>
    exact ⟨rfl, by rw [(field_wordBRR disp cond rc rb ra).1]; rfl, rfl⟩
  | bbs rest => exact ⟨rfl, by rw [(field_wordOp32 rest 31).1]; rfl, rfl⟩
  | eret rest => exact ⟨rfl, by rw [(field_wordOp32 rest 16).1]; rfl, rfl⟩
  | bra disp => exact ⟨rfl, by rw [(field_wordJ disp 0).1]; rfl, rfl⟩
  | @call lr link disp =>
    exact ⟨rfl, by rw [(field_wordJ disp lr).1]; rfl, bne_iff_ne.mpr link⟩
  | @rtd lr link offs imm =>
    exact ⟨rfl, by rw [(field_wordRTD imm offs lr).1]; rfl, bne_iff_ne.mpr link⟩
  | brk => exact ⟨rfl, rfl, rfl⟩
  | irq lvl num => exact ⟨rfl, by rw [(field_wordIRQ num lvl).1]; rfl, rfl⟩
  | sys num => exact ⟨rfl, by rw [(field_wordSYS num).1]; rfl, rfl⟩
  | rts offs => exact ⟨rfl, by rw [(field_wordRet 3 offs 1).1]; rfl, rfl⟩
  | rts2up offs => exact ⟨rfl, by rw [(field_wordRet 3 offs 2).1]; rfl, rfl⟩
  | rti offs => exact ⟨rfl, by rw [(field_wordRet 4 offs 0).1]; rfl, rfl⟩

/-- The encoder writes the bytes of an instruction's word, whose opcode gives 3 bytes. -/
theorem encode_of_word24 {w : BitVec 24} {i : Instr} (h : Word24 w i) :
    encode i = bytes24 w ∧ ilen (field w 0 6) = 3 ∧ i.wellFormed = true := by
  cases h with
  | @m8 op mk row r ra disp =>
    have rows : ∀ row ∈ rowsM8, encode (row.2 r ra disp) = bytes24 (wordM8 disp ra r row.1) ∧
        ilen row.1 = 3 ∧ (row.2 r ra disp).wellFormed = true := by
      simp only [rowsM8, List.forall_mem_cons, List.not_mem_nil, false_imp_iff, implies_true,
      and_true]
      and_intros <;> rfl
    rw [(field_wordM8 disp ra r op).1]
    exact rows _ row
  | @mx op mk row r ra rb sc =>
    have rows : ∀ row ∈ rowsMX, encode (row.2 r ra rb sc) = bytes24 (wordMX sc rb ra r row.1) ∧
        ilen row.1 = 3 ∧ (row.2 r ra rb sc).wellFormed = true := by
      simp only [rowsMX, List.forall_mem_cons, List.not_mem_nil, false_imp_iff, implies_true,
      and_true]
      and_intros <;> rfl
    rw [(field_wordMX sc rb ra r op).1]
    exact rows _ row
  | lda rest => exact ⟨rfl, by rw [(field_wordOp24 rest 38).1]; rfl, rfl⟩
  | cache rest => exact ⟨rfl, by rw [(field_wordOp24 rest 39).1]; rfl, rfl⟩
  | ldax rest => exact ⟨rfl, by rw [(field_wordOp24 rest 46).1]; rfl, rfl⟩
  | cachex rest => exact ⟨rfl, by rw [(field_wordOp24 rest 47).1]; rfl, rfl⟩

/-! ## Every well-formed instruction has its word -/

theorem exists_word32_ri (rt ra : RegNum) (imm : BitVec 16) :
    ∀ i ∈ rowsRI.map fun row => row.2 rt ra imm, ∃ w, Word32 w i :=
  List.forall_mem_map.mpr fun _ row => ⟨_, .ri row rt ra imm⟩

theorem exists_word32_r2 (rt ra rb : RegNum) :
    ∀ i ∈ rowsR2.map fun row => row.2 rt ra rb, ∃ w, Word32 w i :=
  List.forall_mem_map.mpr fun _ row => ⟨_, .r2 row rt ra rb⟩

theorem exists_word32_shift (rt ra n : RegNum) :
    (∀ i ∈ rowsShift.map fun row => row.2.1 rt ra n, ∃ w, Word32 w i) ∧
    ∀ i ∈ rowsShift.map fun row => row.2.2 rt ra n, ∃ w, Word32 w i :=
  ⟨List.forall_mem_map.mpr fun _ row => ⟨_, .shift row rt ra n⟩,
    List.forall_mem_map.mpr fun _ row => ⟨_, .shiftImm row rt ra n⟩⟩

theorem exists_word32_br (ra rb : RegNum) (disp : BitVec 16) :
    ∀ i ∈ rowsBR.map fun row => row.2 ra rb disp, ∃ w, Word32 w i :=
  List.forall_mem_map.mpr fun _ row => ⟨_, .br row ra rb disp⟩

theorem exists_word24_m8 (r ra : RegNum) (disp : BitVec 8) :
    ∀ i ∈ rowsM8.map fun row => row.2 r ra disp, ∃ w, Word24 w i :=
  List.forall_mem_map.mpr fun _ row => ⟨_, .m8 row r ra disp⟩

theorem exists_word24_mx (r ra rb : RegNum) (sc : BitVec 2) :
    ∀ i ∈ rowsMX.map fun row => row.2 r ra rb sc, ∃ w, Word24 w i :=
  List.forall_mem_map.mpr fun _ row => ⟨_, .mx row r ra rb sc⟩

theorem exists_word_of_wellFormed {i : Instr} (h : i.wellFormed = true) :
    (∃ w, Word32 w i) ∨ ∃ w, Word24 w i := by
  cases i with
  | addi rt ra imm | addis rt ra imm | andi rt ra imm | andis rt ra imm | jal rt ra imm
  | cmpi rt ra imm | muli rt ra imm | divi rt ra imm | ori rt ra imm | eori rt ra imm
  | subfi rt ra imm | slti rt ra imm | mului rt ra imm | divui rt ra imm | oris rt ra imm
  | eoris rt ra imm => exact .inl (exists_word32_ri rt ra imm _ (by simp [rowsRI]))
  | apcis rt imm => exact .inl ⟨_, .apcis rt imm⟩
  | add rt ra rb | cmp rt ra rb | and rt ra rb | or rt ra rb | mul rt ra rb | div rt ra rb
  | eor rt ra rb | andn rt ra rb | sub rt ra rb | slt13 rt ra rb | mulu rt ra rb | divu rt ra rb
  | nand rt ra rb | nor rt ra rb | enor rt ra rb | orn rt ra rb | mulh rt ra rb | mod rt ra rb
  | seq rt ra rb | sne rt ra rb | slt rt ra rb | sle rt ra rb | sltu rt ra rb | sleu rt ra rb
  | muluh rt ra rb | modu rt ra rb => exact .inl (exists_word32_r2 rt ra rb _ (by simp [rowsR2]))
  | asl rt ra rb f => exact .inl ⟨_, .asl rt ra rb f⟩
  | asli rt ra count f => exact .inl ⟨_, .asli rt ra count f⟩
  | lsr rt ra rb | rol rt ra rb | ror rt ra rb | asr rt ra rb =>
    exact .inl ((exists_word32_shift rt ra rb).1 _ (by simp [rowsShift]))
  | lsri rt ra count | roli rt ra count | rori rt ra count | asri rt ra count =>
    exact .inl ((exists_word32_shift rt ra count).2 _ (by simp [rowsShift]))
  | r1 rest => exact .inl ⟨_, .r1 rest⟩
  | addpc rest => exact .inl ⟨_, .addpc rest⟩
  | beq ra rb disp | bne ra rb disp | blt ra rb disp | ble ra rb disp | bltu ra rb disp
  | bleu ra rb disp => exact .inl (exists_word32_br ra rb disp _ (by simp [rowsBR]))
  | bccr ra rb rc cond disp => exact .inl ⟨_, .bccr ra rb rc cond disp⟩
  | bbs rest => exact .inl ⟨_, .bbs rest⟩
  | eret rest => exact .inl ⟨_, .eret rest⟩
  | bra disp => exact .inl ⟨_, .bra disp⟩
  | call lr disp => exact .inl ⟨_, .call (bne_iff_ne.mp h) disp⟩
  | rtd lr offs imm => exact .inl ⟨_, .rtd (bne_iff_ne.mp h) offs imm⟩
  | brk => exact .inl ⟨_, .brk⟩
  | irq lvl num => exact .inl ⟨_, .irq lvl num⟩
  | sys num => exact .inl ⟨_, .sys num⟩
  | rts offs => exact .inl ⟨_, .rts offs⟩
  | rts2up offs => exact .inl ⟨_, .rts2up offs⟩
  | rti offs => exact .inl ⟨_, .rti offs⟩
  | ldb r ra disp | ldbu r ra disp | ldw r ra disp | ldwu r ra disp | ldt r ra disp | stb r ra disp
  | stw r ra disp | stt r ra disp => exact .inr (exists_word24_m8 r ra disp _ (by simp [rowsM8]))
  | ldbx r ra rb sc | ldbux r ra rb sc | ldwx r ra rb sc | ldwux r ra rb sc | ldtx r ra rb sc
  | stbx r ra rb sc | stwx r ra rb sc | sttx r ra rb sc =>
    exact .inr (exists_word24_mx r ra rb sc _ (by simp [rowsMX]))
  | lda rest => exact .inr ⟨_, .lda rest⟩
  | cache rest => exact .inr ⟨_, .cache rest⟩
  | ldax rest => exact .inr ⟨_, .ldax rest⟩
  | cachex rest => exact .inr ⟨_, .cachex rest⟩

/-- Settles O47: a well-formed instruction has a word, its encoding is that word's bytes, and the
decoder answers the instruction on that word. -/
theorem decodeOfEncode : Obligations.DecodeOfEncode := by
  unfold Obligations.DecodeOfEncode
  intro i rest hwf
  rcases exists_word_of_wellFormed hwf with ⟨w, hw⟩ | ⟨w, hw⟩
  · obtain ⟨henc, hlen, -⟩ := encode_of_word32 hw
    rw [henc, decode_bytes32 w rest hlen, decode32_of_word32 hw]
    rfl
  · obtain ⟨henc, hlen, -⟩ := encode_of_word24 hw
    rw [henc, decode_bytes24 w rest hlen, decode24_of_word24 hw]
    rfl

end Sys2Proof
end

section
/-! Encoding, the round trip the other way (R97, R101): a word is made of its fields, so whatever the
decoder answers has the word that was read. -/

namespace Sys2Proof

open Machine

/-! ## A word is made of its fields -/

/-- Two adjacent fields, the higher one first, are one field. -/
theorem field_append {k : Nat} (w : BitVec k) (lo n m : Nat) :
    field w (lo + n) m ++ field w lo n = field w lo (m + n) :=
  BitVec.extractLsb'_append_extractLsb'_eq_extractLsb' rfl

theorem field_all {k : Nat} (w : BitVec k) : field w 0 k = w := BitVec.extractLsb'_eq_self

theorem wordRI_fields {w : BitVec 32} {op : BitVec 6} {ra : RegNum} (hop : field w 0 6 = op)
    (hra : field w 11 5 = ra) : wordRI (field w 16 16) ra (field w 6 5) op = w := by
  subst hop hra
  simp only [wordRI, field_append w 11 5 16, field_append w 6 5 21, field_append w 0 6 26,
    field_all]

theorem wordBR_fields {w : BitVec 32} {op : BitVec 6} (hop : field w 0 6 = op) :
    wordBR (field w 16 16) (field w 11 5) (field w 6 5) op = w := wordRI_fields hop rfl

theorem wordR2_fields {w : BitVec 32} {func : BitVec 6} (hop : field w 0 6 = 2#6)
    (hzero : field w 21 5 = 0#5) (hfunc : field w 26 6 = func) :
    wordR2 func (field w 16 5) (field w 11 5) (field w 6 5) = w := by
  unfold wordR2
  rw [← hop, ← hzero, ← hfunc]
  simp only [field_append w 21 5 6, field_append w 16 5 11, field_append w 11 5 16,
    field_append w 6 5 21, field_append w 0 6 26, field_all]

theorem wordSH_fields {w : BitVec 32} {func : BitVec 6} {f : Bool} {sel : BitVec 1}
    (hop : field w 0 6 = 2#6) (hzero : field w 21 3 = 0#3) (hfunc : field w 26 6 = func)
    (hf : field w 25 1 = BitVec.ofBool f) (hsel : field w 24 1 = sel) :
    wordSH func f sel (field w 16 5) (field w 11 5) (field w 6 5) = w := by
  unfold wordSH
  rw [← hop, ← hzero, ← hf, ← hfunc, ← hsel]
  simp only [field_append w 25 1 6, field_append w 24 1 7, field_append w 21 3 8,
    field_append w 16 5 11, field_append w 11 5 16, field_append w 6 5 21, field_append w 0 6 26,
    field_all]

theorem wordFunc_fields {w : BitVec 32} {func : BitVec 6} (hop : field w 0 6 = 2#6)
    (hfunc : field w 26 6 = func) : wordFunc func (field w 6 20) = w := by
  unfold wordFunc
  rw [← hop, ← hfunc]
  simp only [field_append w 6 20 6, field_append w 0 6 26, field_all]

theorem wordBRR_fields {w : BitVec 32} (hop : field w 0 6 = 30#6) :
    wordBRR (field w 24 8) (field w 21 3) (field w 16 5) (field w 11 5) (field w 6 5) = w := by
  unfold wordBRR
  rw [← hop]
  simp only [field_append w 21 3 8, field_append w 16 5 11, field_append w 11 5 16,
    field_append w 6 5 21, field_append w 0 6 26, field_all]

theorem wordOp32_fields {w : BitVec 32} {op : BitVec 6} (hop : field w 0 6 = op) :
    wordOp32 (field w 6 26) op = w := by
  subst hop
  simp only [wordOp32, field_append w 0 6 26, field_all]

theorem wordJ_fields {w : BitVec 32} {lr : BitVec 2} (hop : field w 0 6 = 18#6)
    (hlr : field w 6 2 = lr) : wordJ (field w 8 24) lr = w := by
  unfold wordJ
  rw [← hop, ← hlr]
  simp only [field_append w 6 2 24, field_append w 0 6 26, field_all]

theorem wordRTD_fields {w : BitVec 32} (hop : field w 0 6 = 17#6) :
    wordRTD (field w 16 16) (field w 8 8) (field w 6 2) = w := by
  unfold wordRTD
  rw [← hop]
  simp only [field_append w 8 8 16, field_append w 6 2 24, field_append w 0 6 26, field_all]

theorem wordIRQ_fields {w : BitVec 32} (hop : field w 0 6 = 0#6) (hfunc : field w 26 6 = 1#6)
    (htop : field w 25 1 = 0#1) (hlow : field w 9 7 = 0#7) :
    wordIRQ (field w 16 9) (field w 6 3) = w := by
  unfold wordIRQ
  rw [← hop, ← hfunc, ← htop, ← hlow]
  simp only [field_append w 25 1 6, field_append w 16 9 7, field_append w 9 7 16,
    field_append w 6 3 23, field_append w 0 6 26, field_all]

theorem wordSYS_fields {w : BitVec 32} (hop : field w 0 6 = 0#6) (hfunc : field w 26 6 = 2#6)
    (htop : field w 25 1 = 0#1) (hlow : field w 6 10 = 0#10) : wordSYS (field w 16 9) = w := by
  unfold wordSYS
  rw [← hop, ← hfunc, ← htop, ← hlow]
  simp only [field_append w 25 1 6, field_append w 16 9 7, field_append w 6 10 16,
    field_append w 0 6 26, field_all]

theorem wordRet_fields {w : BitVec 32} {func : BitVec 6} {dep : BitVec 2}
    (hop : field w 0 6 = 0#6) (hzero : field w 16 10 = 0#10) (hfunc : field w 26 6 = func)
    (hdep : field w 6 2 = dep) : wordRet func (field w 8 8) dep = w := by
  unfold wordRet
  rw [← hop, ← hzero, ← hfunc, ← hdep]
  simp only [field_append w 16 10 6, field_append w 8 8 16, field_append w 6 2 24,
    field_append w 0 6 26, field_all]

/-- BRK's word is zero in all of its fields. -/
theorem wordBrk_fields {w : BitVec 32} (hop : field w 0 6 = 0#6) (hfunc : field w 26 6 = 0#6)
    (hzero : field w 6 20 = 0#20) : w = 0 := by
  have hw : field w 26 6 ++ field w 6 20 ++ field w 0 6 = w := by
    simp only [field_append w 6 20 6, field_append w 0 6 26, field_all]
  rw [← hw, hop, hfunc, hzero]
  rfl

theorem wordM8_fields {w : BitVec 24} {op : BitVec 6} (hop : field w 0 6 = op) :
    wordM8 (field w 16 8) (field w 11 5) (field w 6 5) op = w := by
  subst hop
  simp only [wordM8, field_append w 11 5 8, field_append w 6 5 13, field_append w 0 6 18, field_all]

theorem wordMX_fields {w : BitVec 24} {op : BitVec 6} (hop : field w 0 6 = op)
    (hzero : field w 23 1 = 0#1) :
    wordMX (field w 21 2) (field w 16 5) (field w 11 5) (field w 6 5) op = w := by
  unfold wordMX
  rw [← hzero, ← hop]
  simp only [field_append w 21 2 1, field_append w 16 5 3, field_append w 11 5 8,
    field_append w 6 5 13, field_append w 0 6 18, field_all]

theorem wordOp24_fields {w : BitVec 24} {op : BitVec 6} (hop : field w 0 6 = op) :
    wordOp24 (field w 6 18) op = w := by
  subst hop
  simp only [wordOp24, field_append w 0 6 18, field_all]

/-! ## Whatever the decoder answers has that word -/

theorem Word32.of_eq {v w : BitVec 32} {i : Instr} (hw : v = w) (h : Word32 v i) : Word32 w i :=
  hw ▸ h

theorem Word24.of_eq {v w : BitVec 24} {i : Instr} (hw : v = w) (h : Word24 v i) : Word24 w i :=
  hw ▸ h

theorem acceptIf_ok {ok : Bool} {e : DecodeError} {i j : Instr} :
    acceptIf ok e i = .ok j ↔ ok = true ∧ i = j := by
  cases ok <;> simp [acceptIf]

theorem word32_of_decodeRI {op mk} {w : BitVec 32} {i : Instr} (row : (op, mk) ∈ rowsRI)
    (hop : field w 0 6 = op) (h : decodeRI w mk = .ok i) : Word32 w i := by
  cases h
  exact .of_eq (wordRI_fields hop rfl) (.ri row ..)

theorem word32_of_decodeBR {op mk} {w : BitVec 32} {i : Instr} (row : (op, mk) ∈ rowsBR)
    (hop : field w 0 6 = op) (h : decodeBR w mk = .ok i) : Word32 w i := by
  cases h
  exact .of_eq (wordBR_fields hop) (.br row ..)

theorem word32_of_decodeR2Form {func mk} {w : BitVec 32} {i : Instr} (row : (func, mk) ∈ rowsR2)
    (hop : field w 0 6 = 2) (hfunc : field w 26 6 = func) (h : decodeR2Form w mk = .ok i) :
    Word32 w i := by
  obtain ⟨hzero, rfl⟩ := acceptIf_ok.mp h
  exact .of_eq (wordR2_fields hop (eq_of_beq hzero) hfunc) (.r2 row ..)

/-- A one-bit field is 0 or 1. -/
theorem bit_cases : ∀ b : BitVec 1, b = 0 ∨ b = 1 := by decide

theorem word32_of_decodeAsl {w : BitVec 32} {i : Instr} (hop : field w 0 6 = 2)
    (hfunc : field w 26 6 = 32) (h : decodeAsl w = .ok i) : Word32 w i := by
  obtain ⟨hzero, rfl⟩ := acceptIf_ok.mp h
  have hfill : field w 25 1 = BitVec.ofBool (field w 25 1 == 1) := by
    rcases bit_cases (field w 25 1) with hf | hf <;> rw [hf] <;> rfl
  rcases bit_cases (field w 24 1) with hsel | hsel <;> rw [hsel]
  · exact .of_eq (wordSH_fields hop (eq_of_beq hzero) hfunc hfill hsel) (.asl ..)
  · exact .of_eq (wordSH_fields hop (eq_of_beq hzero) hfunc hfill hsel) (.asli ..)

theorem word32_of_decodeShift {func reg immf} {w : BitVec 32} {i : Instr}
    (row : (func, reg, immf) ∈ rowsShift) (hop : field w 0 6 = 2) (hfunc : field w 26 6 = func)
    (h : decodeShift w reg immf = .ok i) : Word32 w i := by
  unfold decodeShift at h
  split at h
  case isTrue hfill =>
    obtain ⟨hzero, rfl⟩ := acceptIf_ok.mp h
    have hf : field w 25 1 = BitVec.ofBool false := eq_of_beq hfill
    rcases bit_cases (field w 24 1) with hsel | hsel <;> rw [hsel]
    · exact .of_eq (wordSH_fields hop (eq_of_beq hzero) hfunc hf hsel) (.shift row ..)
    · exact .of_eq (wordSH_fields hop (eq_of_beq hzero) hfunc hf hsel) (.shiftImm row ..)
  case isFalse => cases h

/-- Each function of the {R2} map goes to its format. -/
theorem word32_of_decodeR2 {w : BitVec 32} {i : Instr} (hop : field w 0 6 = 2)
    (h : decodeR2 w = .ok i) : Word32 w i := by
  unfold decodeR2 at h
  split at h
  case h_1 hfunc =>
    cases h
    exact .of_eq (wordFunc_fields hop hfunc) (.r1 ..)
  case h_2 hfunc =>
    cases h
    exact .of_eq (wordFunc_fields hop hfunc) (.addpc ..)
  case h_3 hfunc | h_4 hfunc | h_5 hfunc | h_6 hfunc | h_7 hfunc | h_8 hfunc | h_9 hfunc
    | h_10 hfunc | h_11 hfunc | h_12 hfunc | h_13 hfunc | h_14 hfunc | h_15 hfunc | h_16 hfunc
    | h_17 hfunc | h_18 hfunc | h_19 hfunc | h_20 hfunc | h_21 hfunc | h_22 hfunc | h_23 hfunc
    | h_24 hfunc | h_25 hfunc | h_26 hfunc | h_27 hfunc | h_28 hfunc =>
    exact word32_of_decodeR2Form (by simp [rowsR2]) hop hfunc h
  case h_29 hfunc => exact word32_of_decodeAsl hop hfunc h
  case h_30 hfunc | h_31 hfunc | h_32 hfunc | h_33 hfunc =>
    exact word32_of_decodeShift (by simp [rowsShift]) hop hfunc h
  case h_34 => cases h

/-- Each function of the {SYS} map goes to its format. -/
theorem word32_of_decodeSys {w : BitVec 32} {i : Instr} (hop : field w 0 6 = 0)
    (h : decodeSys w = .ok i) : Word32 w i := by
  unfold decodeSys at h
  split at h
  case h_1 hfunc =>
    obtain ⟨hzero, rfl⟩ := acceptIf_ok.mp h
    rw [wordBrk_fields hop hfunc (eq_of_beq hzero)]
    exact .brk
  case h_2 hfunc =>
    obtain ⟨hzero, rfl⟩ := acceptIf_ok.mp h
    obtain ⟨htop, hlow⟩ := Bool.and_eq_true_iff.mp hzero
    exact .of_eq (wordIRQ_fields hop hfunc (eq_of_beq htop) (eq_of_beq hlow)) (.irq ..)
  case h_3 hfunc =>
    obtain ⟨hzero, rfl⟩ := acceptIf_ok.mp h
    obtain ⟨htop, hlow⟩ := Bool.and_eq_true_iff.mp hzero
    exact .of_eq (wordSYS_fields hop hfunc (eq_of_beq htop) (eq_of_beq hlow)) (.sys ..)
  case h_4 hfunc =>
    split at h
    case h_1 hdep =>
      obtain ⟨hzero, rfl⟩ := acceptIf_ok.mp h
      exact .of_eq (wordRet_fields hop (eq_of_beq hzero) hfunc hdep) (.rts ..)
    case h_2 hdep =>
      obtain ⟨hzero, rfl⟩ := acceptIf_ok.mp h
      exact .of_eq (wordRet_fields hop (eq_of_beq hzero) hfunc hdep) (.rts2up ..)
    case h_3 => cases h
  case h_5 hfunc =>
    split at h
    case isTrue hdep =>
      obtain ⟨hzero, rfl⟩ := acceptIf_ok.mp h
      exact .of_eq (wordRet_fields hop (eq_of_beq hzero) hfunc (eq_of_beq hdep)) (.rti ..)
    case isFalse => cases h
  case h_6 => cases h

/-- Each major opcode of the 32-bit instructions goes to its format. -/
theorem word32_of_decode32 {w : BitVec 32} {i : Instr} (h : decode32 w = .ok i) : Word32 w i := by
  unfold decode32 at h
  split at h
  case h_1 hop => exact word32_of_decodeSys hop h
  case h_2 hop =>
    obtain ⟨hbase, rfl⟩ := acceptIf_ok.mp h
    exact .of_eq (wordRI_fields hop (eq_of_beq hbase)) (.apcis ..)
  case h_3 hop => exact word32_of_decodeR2 hop h
  case h_4 hop | h_5 hop | h_6 hop | h_7 hop | h_8 hop | h_9 hop | h_10 hop | h_11 hop | h_12 hop
    | h_13 hop | h_14 hop | h_15 hop | h_16 hop | h_20 hop | h_21 hop | h_22 hop =>
    exact word32_of_decodeRI (by simp [rowsRI]) hop h
  case h_17 hop =>
    cases h
    exact .of_eq (wordOp32_fields hop) (.eret ..)
  case h_18 hop =>
    split at h
    case isTrue => cases h
    case isFalse hlink =>
      cases h
      exact .of_eq (wordRTD_fields hop) (.rtd (by simpa using hlink) ..)
  case h_19 hop =>
    split at h
    case isTrue hlink =>
      cases h
      exact .of_eq (wordJ_fields hop (eq_of_beq hlink)) (.bra ..)
    case isFalse hlink =>
      cases h
      exact .of_eq (wordJ_fields hop rfl) (.call (by simpa using hlink) ..)
  case h_23 hop | h_24 hop | h_25 hop | h_26 hop | h_27 hop | h_28 hop =>
    exact word32_of_decodeBR (by simp [rowsBR]) hop h
  case h_29 hop =>
    cases h
    exact .of_eq (wordBRR_fields hop) (.bccr ..)
  case h_30 hop =>
    cases h
    exact .of_eq (wordOp32_fields hop) (.bbs ..)
  case h_31 => cases h

theorem word24_of_decodeM8 {op mk} {w : BitVec 24} {i : Instr} (row : (op, mk) ∈ rowsM8)
    (hop : field w 0 6 = op) (h : decodeM8 w mk = .ok i) : Word24 w i := by
  cases h
  exact .of_eq (wordM8_fields hop) (.m8 row ..)

theorem word24_of_decodeMX {op mk} {w : BitVec 24} {i : Instr} (row : (op, mk) ∈ rowsMX)
    (hop : field w 0 6 = op) (h : decodeMX w mk = .ok i) : Word24 w i := by
  obtain ⟨hzero, rfl⟩ := acceptIf_ok.mp h
  exact .of_eq (wordMX_fields hop (eq_of_beq hzero)) (.mx row ..)

theorem word24_of_decode24 {w : BitVec 24} {i : Instr} (h : decode24 w = .ok i) : Word24 w i := by
  unfold decode24 at h
  split at h
  case h_1 hop | h_2 hop | h_3 hop | h_4 hop | h_5 hop | h_15 hop | h_16 hop | h_17 hop =>
    exact word24_of_decodeM8 (by simp [rowsM8]) hop h
  case h_6 hop =>
    cases h
    exact .of_eq (wordOp24_fields hop) (.lda ..)
  case h_7 hop =>
    cases h
    exact .of_eq (wordOp24_fields hop) (.cache ..)
  case h_8 hop | h_9 hop | h_10 hop | h_11 hop | h_12 hop | h_18 hop | h_19 hop | h_20 hop =>
    exact word24_of_decodeMX (by simp [rowsMX]) hop h
  case h_13 hop =>
    cases h
    exact .of_eq (wordOp24_fields hop) (.ldax ..)
  case h_14 hop =>
    cases h
    exact .of_eq (wordOp24_fields hop) (.cachex ..)
  case h_21 => cases h

/-! ## Bytes -/

theorem bytes32_append (b0 b1 b2 b3 : Byte) :
    bytes32 (b3 ++ b2 ++ b1 ++ b0) = [b0, b1, b2, b3] := by
  simp only [bytes32, List.cons.injEq, and_true]
  and_intros <;>
  · apply BitVec.eq_of_getLsbD_eq
    intro j hj
    simp only [field, BitVec.getLsbD_append, BitVec.getLsbD_extractLsb']
    interval_cases j <;> simp

theorem bytes24_append (b0 b1 b2 : Byte) : bytes24 (b2 ++ b1 ++ b0) = [b0, b1, b2] := by
  simp only [bytes24, List.cons.injEq, and_true]
  and_intros <;>
  · apply BitVec.eq_of_getLsbD_eq
    intro j hj
    simp only [field, BitVec.getLsbD_append, BitVec.getLsbD_extractLsb']
    interval_cases j <;> simp

theorem map_ok {α β : Type} {x : Except DecodeError α} {f : α → β} {y : β} (h : x.map f = .ok y) :
    ∃ a, x = .ok a ∧ f a = y := by
  cases x with
  | ok a => exact ⟨a, rfl, Except.ok.inj h⟩
  | error e => cases h

/-- What decodes starts with the bytes of a 32-bit or of a 24-bit word that decodes. -/
theorem decode_ok {bs rest : List Byte} {i : Instr} (h : decode bs = .ok (i, rest)) :
    (∃ w, Word32 w i ∧ bs = bytes32 w ++ rest) ∨ ∃ w, Word24 w i ∧ bs = bytes24 w ++ rest := by
  unfold decode at h
  split at h
  case h_1 => cases h
  case h_2 b0 more =>
    split at h <;> split at h
    · obtain ⟨j, hj, heq⟩ := map_ok h
      cases heq
      exact .inr ⟨_, word24_of_decode24 hj, by rw [bytes24_append]; rfl⟩
    · cases h
    · obtain ⟨j, hj, heq⟩ := map_ok h
      cases heq
      exact .inl ⟨_, word32_of_decode32 hj, by rw [bytes32_append]; rfl⟩
    · cases h

/-- Settles O48: the word at the head of the bytes is the word of the instruction, whose encoding is
that word's bytes. -/
theorem encodeOfDecode : Obligations.EncodeOfDecode := by
  unfold Obligations.EncodeOfDecode
  intro bs i rest h
  rcases decode_ok h with ⟨w, hw, rfl⟩ | ⟨w, hw, rfl⟩
  · obtain ⟨henc, -, hwf⟩ := encode_of_word32 hw
    exact ⟨hwf, by rw [henc]⟩
  · obtain ⟨henc, -, hwf⟩ := encode_of_word24 hw
    exact ⟨hwf, by rw [henc]⟩

end Sys2Proof
end

section
/-! Encoding, the words that the rules write out as shifted fields, and the reserved words (R97,
R98). -/

namespace Sys2Proof

open Machine

/-! ## The words the statements write out -/

theorem wordM8_eq_or (disp : BitVec 8) (ra r : RegNum) (op : BitVec 6) :
    (disp.setWidth 24 <<< 16 ||| ra.setWidth 24 <<< 11 ||| r.setWidth 24 <<< 6 |||
      op.setWidth 24) = wordM8 disp ra r op := by
  apply BitVec.eq_of_getLsbD_eq
  intro j hj
  simp only [wordM8, BitVec.getLsbD_append, BitVec.getLsbD_or, BitVec.getLsbD_shiftLeft,
    BitVec.getLsbD_setWidth]
  interval_cases j <;> simp

theorem wordMX_eq_or (sc : BitVec 2) (rb ra r : RegNum) (op : BitVec 6) :
    (sc.setWidth 24 <<< 21 ||| rb.setWidth 24 <<< 16 ||| ra.setWidth 24 <<< 11 |||
      r.setWidth 24 <<< 6 ||| op.setWidth 24) = wordMX sc rb ra r op := by
  apply BitVec.eq_of_getLsbD_eq
  intro j hj
  simp only [wordMX, BitVec.getLsbD_append, BitVec.getLsbD_or, BitVec.getLsbD_shiftLeft,
    BitVec.getLsbD_setWidth]
  interval_cases j <;> simp

/-- The bytes of a word that a format writes decode to its instruction, with no byte left over. -/
theorem decode_of_word32 {v w : BitVec 32} {i : Instr} (hv : v = w) (h : Word32 w i) :
    decode (bytes32 v) = .ok (i, []) := by
  subst hv
  obtain ⟨-, hlen, -⟩ := encode_of_word32 h
  exact decode_of_decode32 _ rfl hlen (decode32_of_word32 h)

theorem decode_of_word24 {v w : BitVec 24} {i : Instr} (hv : v = w) (h : Word24 w i) :
    decode (bytes24 v) = .ok (i, []) := by
  subst hv
  obtain ⟨-, hlen, -⟩ := encode_of_word24 h
  exact decode_of_decode24 _ rfl hlen (decode24_of_word24 h)

/-- Settles O41: the eight sample words are evaluated; every other clause is a word of its format, the
lists of rows being the tables of the formats at these operands. -/
theorem sampleWordsDecode : Obligations.SampleWordsDecode := by
  unfold Obligations.SampleWordsDecode
  refine ⟨rfl, rfl, rfl, rfl, rfl, rfl, rfl, rfl, ?_⟩
  intro rt ra rb rc n imm f cond disp r20 r26 r18
  refine ⟨?ri, ?apcis, ?r2, ?sh, ?br, ?r1, ?addpc, ?bccr, ?bbs, ?eret, ?lda, ?cache, ?ldax, ?cachex⟩
  case ri =>
    refine (List.forall_mem_map (f := fun row => (row.1, row.2 rt ra imm)) (l := rowsRI)).mpr ?_
    exact fun _ row => decode_of_word32 (wordRI_eq_or ..) (.ri row ..)
  case apcis => exact decode_of_word32 (wordRI_no_base_eq_or imm rt) (.apcis ..)
  case r2 =>
    refine (List.forall_mem_map (f := fun row => (row.1, row.2 rt ra rb)) (l := rowsR2)).mpr ?_
    exact fun _ row => decode_of_word32 (wordR2_eq_or ..) (.r2 row ..)
  case sh =>
    refine List.forall_mem_cons.mpr ⟨⟨?asl, ?asli⟩, ?_⟩
    case asl => exact decode_of_word32 (wordSH_register_eq_or 32 ..) (.asl ..)
    case asli => exact decode_of_word32 (wordSH_immediate_eq_or 32 ..) (.asli ..)
    refine (List.forall_mem_map (l := rowsShift)
      (f := fun row => (row.1, false, row.2.1 rt ra n, row.2.2 rt ra n))).mpr ?_
    exact fun _ row => ⟨decode_of_word32 (wordSH_register_eq_or ..) (.shift row ..),
      decode_of_word32 (wordSH_immediate_eq_or ..) (.shiftImm row ..)⟩
  case br =>
    refine (List.forall_mem_map (f := fun row => (row.1, row.2 ra rb imm)) (l := rowsBR)).mpr ?_
    exact fun _ row => decode_of_word32 (wordRI_eq_or ..) (.br row ..)
  case r1 => exact decode_of_word32 (wordFunc_eq_or 1 r20) (.r1 r20)
  case addpc => exact decode_of_word32 (wordFunc_eq_or 2 r20) (.addpc r20)
  case bccr => exact decode_of_word32 (wordBRR_eq_or ..) (.bccr ..)
  case bbs => exact decode_of_word32 (wordOp32_eq_or r26 31) (.bbs r26)
  case eret => exact decode_of_word32 (wordOp32_eq_or r26 16) (.eret r26)
  case lda => exact decode_of_word24 (wordOp24_eq_or r18 38) (.lda r18)
  case cache => exact decode_of_word24 (wordOp24_eq_or r18 39) (.cache r18)
  case ldax => exact decode_of_word24 (wordOp24_eq_or r18 46) (.ldax r18)
  case cachex => exact decode_of_word24 (wordOp24_eq_or r18 47) (.cachex r18)

/-- Settles O44: the two lists are the tables of formats M8 and MX at these operands. -/
theorem memoryFormatsDecode : Obligations.MemoryFormatsDecode := by
  unfold Obligations.MemoryFormatsDecode
  intro r ra rb disp sc m8 mx i j hm8 hmx
  have hrowM8 : (m8, i) ∈ rowsM8.map fun row => (row.1, row.2 r ra disp) := hm8
  have hrowMX : (mx, j) ∈ rowsMX.map fun row => (row.1, row.2 r ra rb sc) := hmx
  obtain ⟨_, rowM8, heqM8⟩ := List.mem_map.mp hrowM8
  obtain ⟨_, rowMX, heqMX⟩ := List.mem_map.mp hrowMX
  cases heqM8
  cases heqMX
  exact ⟨decode_of_word24 (wordM8_eq_or ..) (.m8 rowM8 ..),
    decode_of_word24 (wordMX_eq_or ..) (.mx rowMX ..)⟩

/-! ## Reserved words -/

/-- A 32-bit word of no format is rejected. -/
theorem decode_bytes32_error {w : BitVec 32} (hlen : ilen (field w 0 6) = 4)
    (h : ∀ i, ¬Word32 w i) : ∃ e, decode (bytes32 w) = .error e := by
  have hdec := decode_bytes32 w [] hlen
  rw [List.append_nil] at hdec
  cases hw : decode32 w with
  | ok i => exact absurd (word32_of_decode32 hw) (h i)
  | error e => exact ⟨e, by rw [hdec, hw]; rfl⟩

/-- A 24-bit word of no format is rejected. -/
theorem decode_bytes24_error {w : BitVec 24} (hlen : ilen (field w 0 6) = 3)
    (h : ∀ i, ¬Word24 w i) : ∃ e, decode (bytes24 w) = .error e := by
  have hdec := decode_bytes24 w [] hlen
  rw [List.append_nil] at hdec
  cases hw : decode24 w with
  | ok i => exact absurd (word24_of_decode24 hw) (h i)
  | error e => exact ⟨e, by rw [hdec, hw]; rfl⟩

theorem ilen_field_eq_four {k : Nat} {w : BitVec k} (h : w.toNat % 64 < 32 ∨ 56 ≤ w.toNat % 64) :
    ilen (field w 0 6) = 4 := by
  simp only [ilen, field_toNat]
  exact if_neg (by omega)

theorem ilen_field_eq_three {k : Nat} {w : BitVec k} (h : 32 ≤ w.toNat % 64)
    (h' : w.toNat % 64 ≤ 55) : ilen (field w 0 6) = 3 := by
  simp only [ilen, field_toNat]
  exact if_pos (by omega)

/-- A field's value, as the statements write it out. -/
theorem toNat_of_field {k lo n : Nat} {w : BitVec k} {v : BitVec n} (h : field w lo n = v) :
    w.toNat / 2 ^ lo % 2 ^ n = v.toNat := by rw [← h, field_toNat]

/-- A fact about the opcodes or functions of a table holds of each of its rows. -/
theorem forall_rows {α : Type} {rows : List (BitVec 6 × α)} {P : BitVec 6 → Prop}
    (h : ∀ op ∈ rows.map Prod.fst, P op) {op : BitVec 6} {a : α} (row : (op, a) ∈ rows) : P op :=
  h op (List.mem_map_of_mem row)

theorem op_of_rowsRI {op mk} (row : (op, mk) ∈ rowsRI) :
    (3 ≤ op.toNat ∧ op.toNat ≤ 15) ∨ (19 ≤ op.toNat ∧ op.toNat ≤ 21) :=
  forall_rows (P := fun op => (3 ≤ op.toNat ∧ op.toNat ≤ 15) ∨ (19 ≤ op.toNat ∧ op.toNat ≤ 21))
    (by decide) row

theorem op_of_rowsBR {op mk} (row : (op, mk) ∈ rowsBR) : 24 ≤ op.toNat ∧ op.toNat ≤ 29 :=
  forall_rows (P := fun op => 24 ≤ op.toNat ∧ op.toNat ≤ 29) (by decide) row

theorem func_of_rowsR2 {func mk} (row : (func, mk) ∈ rowsR2) :
    (4 ≤ func.toNat ∧ func.toNat ≤ 19) ∨ (22 ≤ func.toNat ∧ func.toNat ≤ 31) :=
  forall_rows (P := fun op => (4 ≤ op.toNat ∧ op.toNat ≤ 19) ∨ (22 ≤ op.toNat ∧ op.toNat ≤ 31))
    (by decide) row

theorem func_of_rowsShift {func mk} (row : (func, mk) ∈ rowsShift) :
    33 ≤ func.toNat ∧ func.toNat ≤ 36 :=
  forall_rows (P := fun op => 33 ≤ op.toNat ∧ op.toNat ≤ 36) (by decide) row

theorem op_of_rowsM8 {op mk} (row : (op, mk) ∈ rowsM8) :
    (32 ≤ op.toNat ∧ op.toNat ≤ 36) ∨ (48 ≤ op.toNat ∧ op.toNat ≤ 50) :=
  forall_rows (P := fun op => (32 ≤ op.toNat ∧ op.toNat ≤ 36) ∨ (48 ≤ op.toNat ∧ op.toNat ≤ 50))
    (by decide) row

theorem op_of_rowsMX {op mk} (row : (op, mk) ∈ rowsMX) :
    (40 ≤ op.toNat ∧ op.toNat ≤ 44) ∨ (52 ≤ op.toNat ∧ op.toNat ≤ 54) :=
  forall_rows (P := fun op => (40 ≤ op.toNat ∧ op.toNat ≤ 44) ∨ (52 ≤ op.toNat ∧ op.toNat ≤ 54))
    (by decide) row

/-- What the opcode, the function and the fields that must be zero are in a 32-bit word of a format (R82
to R89, R97). -/
inductive FormatFields (w op func : Nat) : Prop where
  | brk (hop : op = 0) (hfunc : func = 0) (hzero : w / 2 ^ 6 % 2 ^ 20 = 0)
  | irq (hop : op = 0) (hfunc : func = 1) (htop : w / 2 ^ 25 % 2 = 0) (hlow : w / 2 ^ 9 % 2 ^ 7 = 0)
  | sys (hop : op = 0) (hfunc : func = 2) (htop : w / 2 ^ 25 % 2 = 0)
      (hlow : w / 2 ^ 6 % 2 ^ 10 = 0)
  | rts (hop : op = 0) (hfunc : func = 3) (hdep : w / 64 % 4 = 1 ∨ w / 64 % 4 = 2)
      (hzero : w / 2 ^ 16 % 2 ^ 10 = 0)
  | rti (hop : op = 0) (hfunc : func = 4) (hdep : w / 64 % 4 = 0) (hzero : w / 2 ^ 16 % 2 ^ 10 = 0)
  | apcis (hop : op = 1) (hbase : w / 2 ^ 11 % 2 ^ 5 = 0)
  | named (hop : op = 2) (hfunc : func = 1 ∨ func = 2)
  | r2 (hop : op = 2) (hfunc : (4 ≤ func ∧ func ≤ 19) ∨ (22 ≤ func ∧ func ≤ 31))
      (hzero : w / 2 ^ 21 % 2 ^ 5 = 0)
  | asl (hop : op = 2) (hfunc : func = 32) (hzero : w / 2 ^ 21 % 2 ^ 3 = 0)
  | shift (hop : op = 2) (hfunc : 33 ≤ func ∧ func ≤ 36) (hzero : w / 2 ^ 21 % 2 ^ 3 = 0)
      (hfill : w / 2 ^ 25 % 2 = 0)
  | rtd (hop : op = 17) (hlink : w / 64 % 4 ≠ 0)
  | free (hop : (3 ≤ op ∧ op ≤ 21 ∧ op ≠ 17) ∨ (24 ≤ op ∧ op ≤ 31))

theorem func_toNat {w : BitVec 32} {func : BitVec 6} (h : field w 26 6 = func) :
    w.toNat / 2 ^ 26 = func.toNat := by
  have hfunc := toNat_of_field h
  have hw := w.isLt
  omega

theorem op_toNat {k : Nat} {w : BitVec k} {op : BitVec 6} (h : field w 0 6 = op) :
    w.toNat % 64 = op.toNat := by
  have hop := toNat_of_field h
  omega

theorem word32_formatFields {w : BitVec 32} {i : Instr} (h : Word32 w i) :
    FormatFields w.toNat (w.toNat % 64) (w.toNat / 2 ^ 26) := by
  cases h with
  | @ri op _ row rt ra imm =>
    have hrow := op_of_rowsRI row
    have hop := op_toNat (field_wordRI imm ra rt op).1
    exact .free (by omega)
  | apcis rt imm =>
    obtain ⟨hop, -, hra, -⟩ := field_wordRI imm 0 rt 1
    exact .apcis (op_toNat hop) (toNat_of_field hra)
  | @r2 func _ row rt ra rb =>
    obtain ⟨hop, -, -, -, hzero, hfunc⟩ := field_wordR2 func rb ra rt
    exact .r2 (op_toNat hop) (func_toNat hfunc ▸ func_of_rowsR2 row) (toNat_of_field hzero)
  | asl rt ra rb f =>
    obtain ⟨hop, -, -, -, hzero, -, -, hfunc⟩ := field_wordSH 32 f 0 rb ra rt
    exact .asl (op_toNat hop) (func_toNat hfunc) (toNat_of_field hzero)
  | asli rt ra count f =>
    obtain ⟨hop, -, -, -, hzero, -, -, hfunc⟩ := field_wordSH 32 f 1 count ra rt
    exact .asl (op_toNat hop) (func_toNat hfunc) (toNat_of_field hzero)
  | @shift func _ _ row rt ra n =>
    obtain ⟨hop, -, -, -, hzero, -, hfill, hfunc⟩ := field_wordSH func false 0 n ra rt
    exact .shift (op_toNat hop) (func_toNat hfunc ▸ func_of_rowsShift row) (toNat_of_field hzero)
      (toNat_of_field hfill)
  | @shiftImm func _ _ row rt ra n =>
    obtain ⟨hop, -, -, -, hzero, -, hfill, hfunc⟩ := field_wordSH func false 1 n ra rt
    exact .shift (op_toNat hop) (func_toNat hfunc ▸ func_of_rowsShift row) (toNat_of_field hzero)
      (toNat_of_field hfill)
  | r1 rest =>
    obtain ⟨hop, -, hfunc⟩ := field_wordFunc 1 rest
    exact .named (op_toNat hop) (.inl (func_toNat hfunc))
  | addpc rest =>
    obtain ⟨hop, -, hfunc⟩ := field_wordFunc 2 rest
    exact .named (op_toNat hop) (.inr (func_toNat hfunc))
  | @br op _ row ra rb disp =>
    have hrow := op_of_rowsBR row
    have hop := op_toNat (field_wordBR disp rb ra op).1
    exact .free (by omega)
  | bccr ra rb rc cond disp =>
    have hop : _ = 30 := op_toNat (field_wordBRR disp cond rc rb ra).1
    exact .free (by omega)
  | bbs rest =>
    have hop : _ = 31 := op_toNat (field_wordOp32 rest 31).1
    exact .free (by omega)
  | eret rest =>
    have hop : _ = 16 := op_toNat (field_wordOp32 rest 16).1
    exact .free (by omega)
  | bra disp =>
    have hop : _ = 18 := op_toNat (field_wordJ disp 0).1
    exact .free (by omega)
  | @call lr _ disp =>
    have hop : _ = 18 := op_toNat (field_wordJ disp lr).1
    exact .free (by omega)
  | @rtd lr link offs imm =>
    obtain ⟨hop, hlr, -⟩ := field_wordRTD imm offs lr
    exact .rtd (op_toNat hop) fun hzero =>
      link (BitVec.eq_of_toNat_eq ((toNat_of_field hlr).symm.trans hzero))
  | brk => exact .brk rfl rfl rfl
  | irq lvl num =>
    obtain ⟨hop, -, hlow, -, htop, hfunc⟩ := field_wordIRQ num lvl
    exact .irq (op_toNat hop) (func_toNat hfunc) (toNat_of_field htop) (toNat_of_field hlow)
  | sys num =>
    obtain ⟨hop, hlow, -, htop, hfunc⟩ := field_wordSYS num
    exact .sys (op_toNat hop) (func_toNat hfunc) (toNat_of_field htop) (toNat_of_field hlow)
  | rts offs =>
    obtain ⟨hop, hdep, -, hzero, hfunc⟩ := field_wordRet 3 offs 1
    exact .rts (op_toNat hop) (func_toNat hfunc) (.inl (toNat_of_field hdep)) (toNat_of_field hzero)
  | rts2up offs =>
    obtain ⟨hop, hdep, -, hzero, hfunc⟩ := field_wordRet 3 offs 2
    exact .rts (op_toNat hop) (func_toNat hfunc) (.inr (toNat_of_field hdep)) (toNat_of_field hzero)
  | rti offs =>
    obtain ⟨hop, hdep, -, hzero, hfunc⟩ := field_wordRet 4 offs 0
    exact .rti (op_toNat hop) (func_toNat hfunc) (toNat_of_field hdep) (toNat_of_field hzero)

/-- Settles O45: a word with one of these fields is a word of no format. -/
theorem reservedWordsRejected : Obligations.ReservedWordsRejected := by
  unfold Obligations.ReservedWordsRejected
  rintro w op func rfl rfl hres
  simp only [List.mem_cons, List.not_mem_nil, or_false] at hres
  refine decode_bytes32_error (ilen_field_eq_four (by omega)) fun i hw => ?_
  cases word32_formatFields hw <;> omega

/-- Settles O46: such a word is a word of no format. -/
theorem unusedFieldsRejected : Obligations.UnusedFieldsRejected := by
  unfold Obligations.UnusedFieldsRejected
  constructor
  · rintro w op func rfl rfl hres
    refine decode_bytes32_error (ilen_field_eq_four (by omega)) fun i hw => ?_
    cases word32_formatFields hw <;> omega
  · rintro w op rfl hres
    simp only [List.mem_cons, List.not_mem_nil, or_false] at hres
    refine decode_bytes24_error (ilen_field_eq_three (by omega) (by omega)) fun i hw => ?_
    cases hw with
    | @m8 op _ row r ra disp =>
      have hrow := op_of_rowsM8 row
      have hop := op_toNat (field_wordM8 disp ra r op).1
      omega
    | @mx op _ row r ra rb sc =>
      obtain ⟨hop, -, -, -, -, hzero⟩ := field_wordMX sc rb ra r op
      have hrow := op_of_rowsMX row
      have hop := op_toNat hop
      have hzero : _ = 0 := toNat_of_field hzero
      have hlt := (wordMX sc rb ra r op).isLt
      omega
    | lda rest =>
      have hop : _ = 38 := op_toNat (field_wordOp24 rest 38).1
      omega
    | cache rest =>
      have hop : _ = 39 := op_toNat (field_wordOp24 rest 39).1
      omega
    | ldax rest =>
      have hop : _ = 46 := op_toNat (field_wordOp24 rest 46).1
      omega
    | cachex rest =>
      have hop : _ = 47 := op_toNat (field_wordOp24 rest 47).1
      omega

end Sys2Proof
end

section
/-! The whole machine. `Effect` says once everything an instruction can do when it answers a next
state; what only some instructions change, the invariant and the runs follow from it. -/

namespace Sys2Proof.Machine

/-- What instruction `i` can make of state `s`. -/
inductive Effect (i : Instr) (s : State) : State → Prop where
  /-- A result in the target register, and on to the next instruction. -/
  | result {rt : RegNum} (v : Word) (target : targetReg s.params i = some rt)
      (sequential : isTransfer i = false) :
      Effect i s (advance (BitVec.ofNat 32 (encode i).length) (writeReg rt v s))
  /-- Bytes at admitted addresses, and on to the next instruction. -/
  | stored {n : Nat} {ea : Word} (v : Word) (store : isStore i = true)
      (admits : accessRefusal s ea n = none) (sequential : isTransfer i = false) :
      Effect i s (advance (BitVec.ofNat 32 (encode i).length) (storeBytes (bytesOf v n) ea.toNat s))
  /-- The pc only. -/
  | jumped (pc : Word) (transfer : isTransfer i = true) : Effect i s (setPc pc s)
  /-- The pc and the target register. -/
  | jumpedWriting {rt : RegNum} (pc v : Word) (target : targetReg s.params i = some rt)
      (transfer : isTransfer i = true) : Effect i s (setPc pc (writeReg rt v s))
  /-- The pc and a link register. -/
  | called (pc : Word) {lr : BitVec 2} {disp : BitVec 24} (call : i = .call lr disp) :
      Effect i s (setPc pc (writeLink lr s.pc s))
  /-- The pc, IL and ES. -/
  | trapped (pc : Word) (il : Level) {es : List EsEntry} (trap : isTrap i = true)
      (depth : es.length ≤ s.es.length ∨ es.length ≤ s.params.esDepth) :
      Effect i s { s with es := es, il := il, pc := pc }

namespace Effect

variable {i : Instr} {s t : State}

theorem of_result {n : Nat} {rt : RegNum} {v : Word} (target : targetReg s.params i = some rt)
    (sequential : isTransfer i = false) (len : (encode i).length = n)
    (h : t = advance (BitVec.ofNat 32 n) (writeReg rt v s)) : Effect i s t := by
  subst len h
  exact .result v target sequential

theorem of_store {n : Nat} {rs : RegNum} {ea : Word} (st : isStore i = true)
    (sequential : isTransfer i = false) (len : (encode i).length = 3)
    (h : store n rs ea s = .next t) : Effect i s t := by
  obtain ⟨admits, rfl⟩ := store_next h
  have heff := Effect.stored (readReg s rs) st admits sequential
  rwa [len] at heff

theorem of_branchIf {c : Word → Word → Bool} {ra rb : RegNum} {disp : BitVec 16}
    (transfer : isTransfer i = true) (h : branchIf c ra rb disp s = .next t) : Effect i s t := by
  rcases branchIf_next h with ⟨-, rfl⟩ | ⟨-, rfl⟩
  · exact .jumped _ transfer
  · exact .jumped _ transfer

theorem of_trapEnter {k : TrapKind} {l : Level} (trap : isTrap i = true)
    (h : trapEnter k l s = .next t) : Effect i s t := by
  obtain ⟨room, rfl⟩ := trapEnter_next h
  exact .trapped _ _ trap (.inr room)

theorem of_trapReturn {d : Nat} {off : BitVec 8} (trap : isTrap i = true)
    (h : trapReturn d off s = .next t) : Effect i s t := by
  obtain ⟨-, e, rest, hes, rfl⟩ := trapReturn_next h
  have hlen : rest.length + 1 = s.es.length - (d - 1) := by
    rw [← List.length_drop, hes, List.length_cons]
  exact .trapped _ _ trap (.inl (by omega))

end Effect

theorem execRtd_next {lr : BitVec 2} {offs : BitVec 8} {imm : BitVec 16} {s t : State}
    (h : execRtd lr offs imm s = .next t) :
    ∃ pc, t = setPc pc (writeReg s.params.spReg (readReg s s.params.spReg + zext imm) s) := by
  unfold execRtd at h
  split at h
  · cases h
  · split at h
    · cases h
    · cases h
      exact ⟨_, rfl⟩

theorem execIrq_next {lvl : Level} {num : BitVec 9} {s t : State}
    (h : execIrq lvl num s = .next t) :
    s.il.toNat < lvl.toNat ∧ trapEnter (.irq num lvl) lvl s = .next t := by
  unfold execIrq at h
  split at h
  · exact ⟨‹_›, h⟩
  · cases h

/-- Everything an instruction can do. -/
theorem exec_effect {i : Instr} {s t : State} (h : exec i s = .next t) : Effect i s t := by
  cases i with
  | addi | addis | andi | andis | apcis | cmpi | muli | ori | eori | subfi | slti | mului | oris
  | eoris | add | cmp | and | or | mul | eor | andn | sub | slt13 | mulu | nand | nor | enor | orn
  | mulh | seq | sne | slt | sle | sltu | sleu | muluh
  | asl | asli | lsr | lsri | rol | roli | ror | rori | asr | asri =>
    exact .of_result rfl rfl rfl (writeBack_next h)
  | div | mod | divu | modu | divi | divui => exact .of_result rfl rfl rfl (opDiv_next h).2
  | ldb | ldbu | ldw | ldwu | ldt | ldbx | ldbux | ldwx | ldwux | ldtx =>
    exact .of_result rfl rfl rfl (load_next h).2
  | stb | stw | stt | stbx | stwx | sttx => exact .of_store rfl rfl rfl h
  | beq | bne => exact .of_branchIf rfl h
  | blt => exact .of_branchIf (c := fun a b => decide (a.toInt < b.toInt)) rfl h
  | ble => exact .of_branchIf (c := fun a b => decide (a.toInt ≤ b.toInt)) rfl h
  | bltu => exact .of_branchIf (c := fun a b => decide (a.toNat < b.toNat)) rfl h
  | bleu => exact .of_branchIf (c := fun a b => decide (a.toNat ≤ b.toNat)) rfl h
  | bra => cases h; exact .jumped _ rfl
  | jal => cases h; exact .jumpedWriting _ _ rfl rfl
  | rtd =>
    obtain ⟨pc, rfl⟩ := execRtd_next h
    exact .jumpedWriting _ _ rfl rfl
  | call => cases h; exact .called _ rfl
  | brk | sys => exact .of_trapEnter rfl h
  | irq => exact .of_trapEnter rfl (execIrq_next h).2
  | rts | rts2up | rti => exact .of_trapReturn rfl h
  | r1 | addpc | bccr | bbs | eret | lda | cache | ldax | cachex => cases h

/-! ## What an instruction leaves as it was -/

theorem exec_params {i : Instr} {s t : State} (h : exec i s = .next t) : t.params = s.params := by
  cases exec_effect h <;> simp

theorem exec_extIrq {i : Instr} {s t : State} (h : exec i s = .next t) : t.extIrq = s.extIrq := by
  cases exec_effect h <;> simp

/-- Settles O52: of the effects only `stored` reaches memory or dirty. -/
theorem onlyStoresWriteMemory : Obligations.OnlyStoresWriteMemory := by
  unfold Obligations.OnlyStoresWriteMemory
  intro i s t h hstore
  cases exec_effect h with
  | stored v store => rw [hstore] at store; cases store
  | result | jumped | jumpedWriting | called | trapped => simp [sameMemory]

/-- Settles O53: of the effects only `called` reaches a link register. -/
theorem onlyCallWritesLinks : Obligations.OnlyCallWritesLinks := by
  unfold Obligations.OnlyCallWritesLinks
  intro i s t h hlinks
  cases exec_effect h with
  | called pc call => exact ⟨_, _, call⟩
  | result | stored | jumped | jumpedWriting | trapped => simp [sameLinks] at hlinks

/-- Settles O55: a register write goes to the target register. -/
theorem onlyTargetWritten : Obligations.OnlyTargetWritten := by
  unfold Obligations.OnlyTargetWritten
  intro i s t r h htarget
  cases exec_effect h with
  | result v target =>
    have hr : r ≠ _ := fun hr => htarget (hr ▸ target)
    simp [readReg_writeReg, hr]
  | jumpedWriting pc v target =>
    have hr : r ≠ _ := fun hr => htarget (hr ▸ target)
    simp [readReg_writeReg, hr]
  | stored | jumped | called => simp
  | trapped => rfl

/-- Settles O56: of the effects only `trapped` reaches IL or ES. -/
theorem onlyTrapsChangeTrapState : Obligations.OnlyTrapsChangeTrapState := by
  unfold Obligations.OnlyTrapsChangeTrapState
  intro i s t h htrap
  cases exec_effect h with
  | trapped pc il trap => rw [htrap] at trap; cases trap
  | result | stored | jumped | jumpedWriting | called => simp [sameTraps]

theorem isTransfer_of_isTrap {i : Instr} (h : isTrap i = true) : isTransfer i = true := by
  cases i with
  | brk | irq | sys | rts | rts2up | rti => rfl
  | _ => cases h

/-- Settles O57: the effects that do not transfer control end with `advance` by the length. -/
theorem sequentialAdvance : Obligations.SequentialAdvance := by
  unfold Obligations.SequentialAdvance
  intro i s t h hseq
  cases exec_effect h with
  | result | stored => simp
  | jumped pc transfer => rw [hseq] at transfer; cases transfer
  | jumpedWriting pc v _ transfer => rw [hseq] at transfer; cases transfer
  | called pc call => subst call; cases hseq
  | trapped pc il trap => rw [isTransfer_of_isTrap trap] at hseq; cases hseq

/-! ## The invariant -/

/-- A store at admitted addresses keeps the invariant (R56). -/
theorem State.Inv.after_store {s : State} (h : s.Inv) {ea : Word} {n : Nat}
    (admits : accessRefusal s ea n = none) (v : Word) :
    (storeBytes (bytesOf v n) ea.toNat s).Inv := by
  obtain ⟨hmem, hdirty, hexist, hdepth, hes⟩ := h
  obtain ⟨-, hend, hin⟩ := accessRefusal_none_iff.mp admits
  have hlen : ea.toNat + (bytesOf v n).length ≤ 4294967296 := by rwa [bytesOf_length]
  refine ⟨wf_storeBytes hlen hmem, dirty_storeBytes hlen hdirty, fun a ha => ?_, ?_, ?_⟩
  · rw [storeBytes_params]
    rcases mem_storeBytes_dirty.mp ha with ⟨hlo, hhi⟩ | hold
    · rw [bytesOf_length] at hhi
      have hk := hin (a - ea.toNat) (by omega)
      rwa [show ea.toNat + (a - ea.toNat) = a by omega] at hk
    · exact hexist a hold
  · rwa [storeBytes_params]
  · rwa [storeBytes_params, storeBytes_es]

/-- The invariant is about memory, dirty, ES and the parameters only. -/
theorem State.Inv.congr {s t : State} (h : s.Inv) (hmem : t.mem = s.mem)
    (hdirty : t.dirty = s.dirty) (hes : t.es = s.es) (hparams : t.params = s.params) : t.Inv := by
  unfold State.Inv
  rwa [hmem, hdirty, hes, hparams]

/-- The invariant keeps when ES is replaced by a stack that fits. -/
theorem State.Inv.with_es {s : State} (h : s.Inv) (pc : Word) (il : Level)
    (irqs : List (Option ExtReq)) {es : List EsEntry}
    (hes : es.length ≤ s.es.length ∨ es.length ≤ s.params.esDepth) :
    State.Inv { s with es := es, il := il, pc := pc, extIrq := irqs } := by
  obtain ⟨hmem, hdirty, hexist, hdepth, hold⟩ := h
  exact ⟨hmem, hdirty, hexist, hdepth, hes.elim (·.trans hold) id⟩

theorem exec_keeps_inv {i : Instr} {s t : State} (hs : s.Inv) (h : exec i s = .next t) : t.Inv := by
  cases exec_effect h with
  | result v => exact hs.congr (by simp) (by simp) (by simp) (by simp)
  | stored v _ admits => exact (hs.after_store admits v).congr rfl rfl rfl rfl
  | jumped pc => exact hs.congr rfl rfl rfl rfl
  | jumpedWriting pc v => exact hs.congr (by simp) (by simp) (by simp) (by simp)
  | called pc => exact hs.congr (by simp) (by simp) (by simp) (by simp)
  | trapped pc il _ depth => exact hs.with_es pc il s.extIrq depth

/-- Settles O50: a step takes an interrupt, which needs room on ES, or executes an instruction. -/
theorem stepKeepsInvariant : Obligations.StepKeepsInvariant := by
  unfold Obligations.StepKeepsInvariant
  intro s t hs h
  obtain ⟨-, ⟨q, rest, -, -, hq⟩ | ⟨-, i, -, hi⟩⟩ := step_next h
  · obtain ⟨room, rfl⟩ := trapEnter_next hq
    exact hs.with_es _ _ rest (.inr room)
  · exact exec_keeps_inv (s := dropOffer s) (hs.congr rfl rfl rfl rfl) hi

/-- Settles O51: taking an interrupt and `dropOffer` each use up the head of the offers. -/
theorem stepKeepsParameters : Obligations.StepKeepsParameters := by
  unfold Obligations.StepKeepsParameters
  intro s t h
  obtain ⟨-, ⟨q, rest, hoffers, -, hq⟩ | ⟨-, i, -, hi⟩⟩ := step_next h
  · obtain ⟨-, rfl⟩ := trapEnter_next hq
    exact ⟨rfl, by rw [hoffers]; rfl⟩
  · exact ⟨exec_params (s := dropOffer s) hi, exec_extIrq (s := dropOffer s) hi⟩

/-! ## Runs -/

/-- What one stretch of execution does to memory: dirty grows, and a byte not dirty at the end reads as
at the start. -/
def KeepsCleanBytes (s t : State) : Prop :=
  (∀ a, a ∈ s.dirty → a ∈ t.dirty) ∧ ∀ a, a ∉ t.dirty → t.mem.byteAt a = s.mem.byteAt a

theorem KeepsCleanBytes.of_eq {s t : State} (hmem : t.mem = s.mem) (hdirty : t.dirty = s.dirty) :
    KeepsCleanBytes s t := ⟨fun a ha => hdirty ▸ ha, fun a _ => by rw [hmem]⟩

theorem KeepsCleanBytes.trans {s t u : State} (hst : KeepsCleanBytes s t)
    (htu : KeepsCleanBytes t u) : KeepsCleanBytes s u := by
  obtain ⟨hdirty, hbytes⟩ := hst
  obtain ⟨hdirty', hbytes'⟩ := htu
  exact ⟨fun a ha => hdirty' a (hdirty a ha),
    fun a ha => (hbytes' a ha).trans (hbytes a fun hta => ha (hdirty' a hta))⟩

/-- A store makes dirty what it writes. -/
theorem KeepsCleanBytes.after_store {s : State} (h : s.Inv) {ea : Word} {n : Nat}
    (admits : accessRefusal s ea n = none) (v : Word) :
    KeepsCleanBytes s (storeBytes (bytesOf v n) ea.toNat s) := by
  obtain ⟨hmem, -⟩ := h
  obtain ⟨-, hend, -⟩ := accessRefusal_none_iff.mp admits
  have hlen : ea.toNat + (bytesOf v n).length ≤ 4294967296 := by rwa [bytesOf_length]
  refine ⟨fun a ha => mem_storeBytes_dirty.mpr (.inr ha), fun a ha => ?_⟩
  rw [byteAt_storeBytes hlen hmem, dif_neg fun hin => ha (mem_storeBytes_dirty.mpr (.inl hin))]

theorem exec_keepsCleanBytes {i : Instr} {s t : State} (hs : s.Inv) (h : exec i s = .next t) :
    KeepsCleanBytes s t := by
  cases exec_effect h with
  | stored v _ admits => exact .after_store hs admits v
  | result | jumped | jumpedWriting | called | trapped => exact .of_eq (by simp) (by simp)

theorem step_keepsCleanBytes {s t : State} (hs : s.Inv) (h : step s = .next t) :
    KeepsCleanBytes s t := by
  obtain ⟨-, ⟨q, rest, -, -, hq⟩ | ⟨-, i, -, hi⟩⟩ := step_next h
  · obtain ⟨-, rfl⟩ := trapEnter_next hq
    exact .of_eq rfl rfl
  · exact exec_keepsCleanBytes (s := dropOffer s) (hs.congr rfl rfl rfl rfl) hi

/-- A run of `k + 1` steps is a step and a run of `k`. -/
theorem run_succ_next {M : Host.Core} {k : Nat} {s u : M.State} (h : M.run (k + 1) s = .next u) :
    ∃ t, M.step s = .next t ∧ M.run k t = .next u := by
  unfold Host.Core.run at h
  split at h
  · exact ⟨_, ‹_›, h⟩
  · cases h
  · cases h

/-- Settles O58, by induction on the number of steps. -/
theorem cleanBytesUnchangedOverRuns : Obligations.CleanBytesUnchangedOverRuns := by
  unfold Obligations.CleanBytesUnchangedOverRuns
  intro k
  induction k with
  | zero =>
    intro s t hs h
    cases h
    exact ⟨hs, fun _ ha => ha, fun _ _ => rfl⟩
  | succ k ih =>
    intro s u hs h
    obtain ⟨t, hstep, hrun⟩ := run_succ_next (M := Sys2Proof.core) h
    obtain ⟨hu, hrest⟩ := ih t u (stepKeepsInvariant s t hs hstep) hrun
    exact ⟨hu, (step_keepsCleanBytes hs hstep).trans hrest⟩

end Sys2Proof.Machine
end

section
/-! The whole machine, the link registers as sources (R26): every shared operation answers alike on
states that differ in them, so every instruction but RTD does. -/

namespace Sys2Proof.Machine

/-- `s` with other values in the link registers. -/
def withLinks (v1 v2 v3 : Word) (s : State) : State := { s with lr1 := v1, lr2 := v2, lr3 := v3 }

/-- The two answers are the same but for the link registers of the next state. -/
inductive SameButLinks : Answer → Answer → Prop where
  | next (t : State) (v1 v2 v3 : Word) : SameButLinks (.next t) (.next (withLinks v1 v2 v3 t))
  | fault (r : Fault) : SameButLinks (.fault r) (.fault r)
  | refused (r : Refusal) : SameButLinks (.refused r) (.refused r)

section

variable (v1 v2 v3 : Word) (s : State)

theorem writeReg_withLinks (rt : RegNum) (v : Word) :
    writeReg rt v (withLinks v1 v2 v3 s) = withLinks v1 v2 v3 (writeReg rt v s) := by
  have hzero : hardZero (withLinks v1 v2 v3 s).params rt = hardZero s.params rt := rfl
  unfold writeReg
  rw [hzero]
  split
  · rfl
  · rfl

theorem writeBack_sameButLinks (rt : RegNum) (v : Word) :
    SameButLinks (writeBack rt v s) (writeBack rt v (withLinks v1 v2 v3 s)) := by
  unfold writeBack
  rw [writeReg_withLinks]
  exact .next ..

theorem opDiv_sameButLinks (bad : Word → Word → Option Refusal) (f : Word → Word → Word)
    (rt : RegNum) (a b : Word) :
    SameButLinks (opDiv bad f rt a b s) (opDiv bad f rt a b (withLinks v1 v2 v3 s)) := by
  unfold opDiv
  split
  · exact .refused _
  · exact writeBack_sameButLinks ..

theorem branchIf_sameButLinks (c : Word → Word → Bool) (ra rb : RegNum) (disp : BitVec 16) :
    SameButLinks (branchIf c ra rb disp s) (branchIf c ra rb disp (withLinks v1 v2 v3 s)) := by
  have hregs : ∀ r, readReg (withLinks v1 v2 v3 s) r = readReg s r := fun _ => rfl
  unfold branchIf
  rw [hregs, hregs]
  split
  · exact .next ..
  · exact .next ..

theorem load_sameButLinks (n : Nat) (f : Word → Word) (rt : RegNum) (ea : Word) :
    SameButLinks (load n f rt ea s) (load n f rt ea (withLinks v1 v2 v3 s)) := by
  have hread : memRead (withLinks v1 v2 v3 s) ea n = memRead s ea n := rfl
  unfold load
  rw [hread]
  split
  · exact .refused _
  · rw [writeReg_withLinks]
    exact .next ..

theorem storeBytes_withLinks (bs : List Byte) (a : Nat) :
    storeBytes bs a (withLinks v1 v2 v3 s) = withLinks v1 v2 v3 (storeBytes bs a s) := by
  induction bs generalizing a s with
  | nil => rfl
  | cons b rest ih =>
    exact ih { s with mem := s.mem.setByte a b, dirty := insertAddr s.dirty a } (a + 1)

theorem store_sameButLinks (n : Nat) (rs : RegNum) (ea : Word) :
    SameButLinks (store n rs ea s) (store n rs ea (withLinks v1 v2 v3 s)) := by
  have hacc : accessRefusal (withLinks v1 v2 v3 s) ea n = accessRefusal s ea n := rfl
  have hreg : readReg (withLinks v1 v2 v3 s) rs = readReg s rs := rfl
  unfold store memWrite
  rw [hacc, hreg, storeBytes_withLinks]
  cases accessRefusal s ea n with
  | some r => exact .refused r
  | none => exact .next ..

theorem trapEnter_sameButLinks (k : TrapKind) (l : Level) :
    SameButLinks (trapEnter k l s) (trapEnter k l (withLinks v1 v2 v3 s)) := by
  have hroom : ((withLinks v1 v2 v3 s).es.length < (withLinks v1 v2 v3 s).params.esDepth) =
    (s.es.length < s.params.esDepth) := rfl
  unfold trapEnter
  simp only [hroom]
  split
  · exact .next ..
  · exact .refused _

theorem trapReturn_sameButLinks (d : Nat) (off : BitVec 8) :
    SameButLinks (trapReturn d off s) (trapReturn d off (withLinks v1 v2 v3 s)) := by
  have hes : (withLinks v1 v2 v3 s).es = s.es := rfl
  unfold trapReturn
  rw [hes]
  split
  · exact .refused _
  · cases s.es.drop (d - 1) with
    | nil => exact .refused _
    | cons e rest => exact .next ..

theorem execIrq_sameButLinks (lvl : Level) (num : BitVec 9) :
    SameButLinks (execIrq lvl num s) (execIrq lvl num (withLinks v1 v2 v3 s)) := by
  have hil : (withLinks v1 v2 v3 s).il = s.il := rfl
  unfold execIrq
  rw [hil]
  split
  · exact trapEnter_sameButLinks ..
  · exact .refused _

/-- CALL writes the same link register in both, and keeps what the others hold in each. -/
theorem execCall_sameButLinks (lr : BitVec 2) (disp : BitVec 24) :
    SameButLinks (execCall lr disp s) (execCall lr disp (withLinks v1 v2 v3 s)) := by
  have hlinks : ∃ u1 u2 u3, writeLink lr s.pc (withLinks v1 v2 v3 s) =
      withLinks u1 u2 u3 (writeLink lr s.pc s) := by
    unfold writeLink
    split
    · exact ⟨_, _, _, rfl⟩
    · exact ⟨_, _, _, rfl⟩
    · exact ⟨_, _, _, rfl⟩
    · exact ⟨_, _, _, rfl⟩
  obtain ⟨u1, u2, u3, hu⟩ := hlinks
  have hcall : execCall lr disp (withLinks v1 v2 v3 s) =
      .next (setPc (s.pc + sext disp) (writeLink lr s.pc (withLinks v1 v2 v3 s))) := rfl
  rw [hcall, hu]
  exact .next ..

theorem execJal_sameButLinks (rt ra : RegNum) (imm : BitVec 16) :
    SameButLinks (execJal rt ra imm s) (execJal rt ra imm (withLinks v1 v2 v3 s)) := by
  have hjal : execJal rt ra imm (withLinks v1 v2 v3 s) =
      .next (setPc (readReg s ra + sext imm) (writeReg rt s.pc (withLinks v1 v2 v3 s))) := rfl
  rw [hjal, writeReg_withLinks]
  exact .next ..

/-- Every instruction but RTD answers alike on states that differ in the link registers. -/
theorem exec_sameButLinks {i : Instr} (h : ∀ lr offs imm, i ≠ .rtd lr offs imm) :
    SameButLinks (exec i s) (exec i (withLinks v1 v2 v3 s)) := by
  cases i with
  | addi | addis | andi | andis | apcis | cmpi | muli | ori | eori | subfi | slti | mului | oris
  | eoris | add | cmp | and | or | mul | eor | andn | sub | slt13 | mulu | nand | nor | enor | orn
  | mulh | seq | sne | slt | sle | sltu | sleu | muluh
  | asl | asli | lsr | lsri | rol | roli | ror | rori | asr | asri =>
    exact writeBack_sameButLinks ..
  | div | mod | divu | modu | divi | divui => exact opDiv_sameButLinks ..
  | ldb | ldbu | ldw | ldwu | ldt | ldbx | ldbux | ldwx | ldwux | ldtx => exact load_sameButLinks ..
  | stb | stw | stt | stbx | stwx | sttx => exact store_sameButLinks ..
  | beq | bne => exact branchIf_sameButLinks ..
  | blt => exact branchIf_sameButLinks (c := fun a b => decide (a.toInt < b.toInt)) ..
  | ble => exact branchIf_sameButLinks (c := fun a b => decide (a.toInt ≤ b.toInt)) ..
  | bltu => exact branchIf_sameButLinks (c := fun a b => decide (a.toNat < b.toNat)) ..
  | bleu => exact branchIf_sameButLinks (c := fun a b => decide (a.toNat ≤ b.toNat)) ..
  | bra => exact .next ..
  | jal => exact execJal_sameButLinks ..
  | rtd lr offs imm => exact absurd rfl (h lr offs imm)
  | call => exact execCall_sameButLinks ..
  | brk | sys => exact trapEnter_sameButLinks ..
  | irq => exact execIrq_sameButLinks ..
  | rts | rts2up | rti => exact trapReturn_sameButLinks ..
  | r1 | addpc | bccr | bbs | eret | lda | cache | ldax | cachex => exact .refused _

end

/-- Settles O54: the two answers are next states that differ in the link registers only, or the same
refusal. -/
theorem onlyRtdReadsLinks : Obligations.OnlyRtdReadsLinks := by
  unfold Obligations.OnlyRtdReadsLinks
  rintro i s _ v1 v2 v3 hrtd rfl
  have hsame := exec_sameButLinks v1 v2 v3 s hrtd
  change SameButLinks (exec i s) (exec i { s with lr1 := v1, lr2 := v2, lr3 := v3 }) at hsame
  generalize exec i s = a, exec i { s with lr1 := v1, lr2 := v2, lr3 := v3 } = b at hsame
  cases hsame with
  | next t u1 u2 u3 =>
    refine ⟨fun t' ht => ?_, nofun⟩
    cases ht
    exact ⟨_, rfl, rfl, fun _ => rfl, ⟨rfl, rfl⟩, ⟨fun _ => rfl, rfl⟩, ⟨rfl, rfl⟩⟩
  | fault r => exact ⟨nofun, nofun⟩
  | refused r => exact ⟨nofun, fun _ => id⟩

end Sys2Proof.Machine
end

section
/-! Results. An instruction that ends in `writeBack` writes its value and changes nothing else; what is
left of each statement is an equation between two ways of writing the value
(`40_arithmetic_logic.md`). -/

namespace Sys2Proof.Machine

/-! ## From an answer to `writesResult` -/

theorem hardZero_eq_false_iff {p : Params} {i : RegNum} :
    hardZero p i = false ↔ ¬(p.r0Zero = true ∧ i = 0) := by
  simp [hardZero]

/-- Any state that reads its registers as after a write holds the value in the written register. -/
theorem regHolds_of_writeReg {s t : State} {rt : RegNum} {v : Word}
    (hread : ∀ r, readReg t r = readReg (writeReg rt v s) r) : regHolds s t rt v := by
  intro r
  rw [hread, readReg_writeReg]
  simp only [hardZero_eq_false_iff]

/-- An answer that writes `w` and moves the pc on. -/
theorem writesResult_of_next {i : Instr} {s : State} {rt : RegNum} {v w n : Word}
    (h : exec i s = .next (advance n (writeReg rt w s))) (hv : w = v) :
    writesResult i s rt v n := by
  subst hv
  exact ⟨_, h, regHolds_of_writeReg fun _ => rfl, by simp, by simp [sameLinks], by simp [sameTraps],
    by simp [sameMemory], by simp [sameInputs]⟩

/-- Every 4-byte instruction with a result; `w` is the value as the model writes it, `v` as the
statement does. -/
theorem writesResult_of_writeBack {i : Instr} {s : State} {rt : RegNum} {v w : Word}
    (h : exec i s = writeBack rt w s) (hv : w = v) : writesResult i s rt v 4 :=
  writesResult_of_next h hv

/-! ## Sums and differences -/

theorem add_eq_ofInt (a b : Word) : a + b = BitVec.ofInt 32 (a.toInt + b.toInt) :=
  BitVec.eq_of_toInt_eq (by rw [BitVec.toInt_add, BitVec.toInt_ofInt])

theorem sub_eq_ofInt (a b : Word) : a - b = BitVec.ofInt 32 (a.toInt - b.toInt) :=
  BitVec.eq_of_toInt_eq (by rw [BitVec.toInt_sub, BitVec.toInt_ofInt])

theorem add_sext_eq_ofInt {n : Nat} (hn : n ≤ 32) (a : Word) (v : BitVec n) :
    a + sext v = BitVec.ofInt 32 (a.toInt + v.toInt) := by rw [add_eq_ofInt, sext_toInt hn]

theorem add_upper16_eq_ofNat (a : Word) (imm : BitVec 16) :
    a + upper16 imm = BitVec.ofNat 32 (a.toNat + imm.toNat * 65536) :=
  BitVec.eq_of_toNat_eq (by rw [BitVec.toNat_add, upper16_toNat, BitVec.toNat_ofNat])

/-- Settles O2: each value is the sum or difference that the rule takes modulo 2^32. -/
theorem addSubtractWrap : Obligations.AddSubtractWrap := by
  unfold Obligations.AddSubtractWrap
  intro rt ra rb imm s
  refine ⟨?add, ?addi, ?addis, ?sub, ?subfi⟩
  case add => exact writesResult_of_writeBack rfl (add_eq_ofInt ..)
  case addi => exact writesResult_of_writeBack rfl (add_sext_eq_ofInt (by omega) ..)
  case addis => exact writesResult_of_writeBack rfl (add_upper16_eq_ofNat ..)
  case sub => exact writesResult_of_writeBack rfl (sub_eq_ofInt ..)
  case subfi =>
    exact writesResult_of_writeBack rfl
      ((sub_eq_ofInt ..).trans (by rw [sext_toInt (by omega : 16 ≤ 32)]))

/-- Settles O4: the sum that ADDIS writes, with the pc for the register. -/
theorem pcRelativeAdd : Obligations.PcRelativeAdd := by
  unfold Obligations.PcRelativeAdd
  exact fun rt imm s => writesResult_of_writeBack rfl (add_upper16_eq_ofNat s.pc imm)

/-! ## Bits of the immediates -/

theorem upper16_getLsbD (imm : BitVec 16) (j : Nat) :
    (upper16 imm).getLsbD j = (decide (16 ≤ j) && imm.getLsbD (j - 16)) := by
  simp only [upper16, BitVec.getLsbD_shiftLeft, zext_getLsbD (show 16 ≤ 32 by omega)]
  by_cases hj : j < 32
  · by_cases h16 : j < 16
    · simp [hj, h16]
    · simp [hj, h16, not_lt.mp h16]
  · simp [BitVec.getLsbD_of_ge imm (j - 16) (by omega)]

theorem ones_getLsbD : ∀ j < 32, (0xFFFF0000#32).getLsbD j = decide (16 ≤ j) ∧
    (0x0000FFFF#32).getLsbD j = decide (j < 16) := by decide

theorem and_oext16_getLsbD (a : Word) (imm : BitVec 16) (j : Nat) :
    (a &&& oext16 imm).getLsbD j = (a.getLsbD j && (decide (16 ≤ j) || imm.getLsbD j)) := by
  simp only [oext16, BitVec.getLsbD_and, BitVec.getLsbD_or, zext_getLsbD (show 16 ≤ 32 by omega)]
  by_cases hj : j < 32
  · rw [(ones_getLsbD j hj).1]
  · simp [BitVec.getLsbD_of_ge a j (by omega)]

theorem and_upperOnes16_getLsbD (a : Word) (imm : BitVec 16) (j : Nat) :
    (a &&& upperOnes16 imm).getLsbD j =
      (a.getLsbD j && (decide (j < 16) || imm.getLsbD (j - 16))) := by
  simp only [upperOnes16, BitVec.getLsbD_and, BitVec.getLsbD_or, upper16_getLsbD]
  by_cases hj : j < 32
  · rw [(ones_getLsbD j hj).2]
    by_cases h16 : j < 16
    · simp [h16]
    · simp [h16, not_lt.mp h16]
  · simp [BitVec.getLsbD_of_ge a j (by omega)]

/-- The word of an {R2} instruction with its constant fields in one literal. -/
theorem wordR2_literal_eq_or (func : BitVec 6) (rb ra rt : RegNum) :
    (zext func <<< 26 ||| 2#32) ||| zext rb <<< 16 ||| zext ra <<< 11 ||| zext rt <<< 6 =
      wordR2 func rb ra rt := by
  rw [← wordR2_eq_or]
  generalize zext func <<< 26 = f, zext rb <<< 16 = b, zext ra <<< 11 = a, zext rt <<< 6 = t
  ac_rfl

/-- Settles O1: the words are those of formats R2 and RI; the padding of the immediates with ones leaves
the source's bits there as they are. -/
theorem bitwiseAndOr : Obligations.BitwiseAndOr := by
  unfold Obligations.BitwiseAndOr
  intro rt ra rb imm s
  refine ⟨⟨?and_word, _, writesResult_of_writeBack rfl rfl, fun j => BitVec.getLsbD_and⟩,
    ⟨?or_word, _, writesResult_of_writeBack rfl rfl, fun j => BitVec.getLsbD_or⟩,
    ⟨?andi_word, _, writesResult_of_writeBack rfl rfl, and_oext16_getLsbD _ imm⟩,
    ⟨?andis_word, _, writesResult_of_writeBack rfl rfl, and_upperOnes16_getLsbD _ imm⟩⟩
  case and_word =>
    exact decode_of_word32 (wordR2_literal_eq_or 8 rb ra rt) (.r2 (by simp [rowsR2]) ..)
  case or_word =>
    exact decode_of_word32 (wordR2_literal_eq_or 9 rb ra rt) (.r2 (by simp [rowsR2]) ..)
  case andi_word =>
    exact decode_of_word32 (wordRI_eq_or imm ra rt 8) (.ri (mk := .andi) (by simp [rowsRI]) ..)
  case andis_word =>
    exact decode_of_word32 (wordRI_eq_or imm ra rt 11) (.ri (mk := .andis) (by simp [rowsRI]) ..)

/-- Settles O3: the bits of each operator, and of the two extensions of the immediate. -/
theorem otherBitwise : Obligations.OtherBitwise := by
  unfold Obligations.OtherBitwise
  intro rt ra rb imm s
  refine ⟨⟨_, writesResult_of_writeBack rfl rfl, ?eor⟩,
    ⟨_, writesResult_of_writeBack rfl rfl, ?andn⟩, ⟨_, writesResult_of_writeBack rfl rfl, ?nand⟩,
    ⟨_, writesResult_of_writeBack rfl rfl, ?nor⟩, ⟨_, writesResult_of_writeBack rfl rfl, ?enor⟩,
    ⟨_, writesResult_of_writeBack rfl rfl, ?orn⟩, ⟨_, writesResult_of_writeBack rfl rfl, ?ori⟩,
    ⟨_, writesResult_of_writeBack rfl rfl, ?eori⟩, ⟨_, writesResult_of_writeBack rfl rfl, ?oris⟩,
    ⟨_, writesResult_of_writeBack rfl rfl, ?eoris⟩⟩
  case eor => exact fun j => BitVec.getLsbD_xor
  case andn =>
    intro j
    by_cases hj : j < 32
    · simp [hj]
    · simp [hj, BitVec.getLsbD_of_ge (readReg s ra) j (by omega)]
  case nand => intro j hj; simp [hj]
  case nor => intro j hj; simp [hj]
  case enor =>
    intro j hj
    rw [BitVec.getLsbD_not, BitVec.getLsbD_xor]
    cases (readReg s ra).getLsbD j <;> simp [hj]
  case orn => intro j hj; simp [hj]
  case ori => intro j; rw [BitVec.getLsbD_or, zext_getLsbD (by omega)]
  case eori => intro j; rw [BitVec.getLsbD_xor, zext_getLsbD (by omega)]
  case oris => intro j; rw [BitVec.getLsbD_or, upper16_getLsbD]
  case eoris => intro j; rw [BitVec.getLsbD_xor, upper16_getLsbD]

/-! ## Products -/

theorem smulLow_eq_mul (a b : Word) : smulLow a b = a * b :=
  BitVec.eq_of_toInt_eq (by rw [smulLow, BitVec.toInt_mul, BitVec.toInt_ofInt])

theorem umulLow_eq_mul (a b : Word) : umulLow a b = a * b :=
  BitVec.eq_of_toNat_eq (by rw [umulLow, BitVec.toNat_mul, BitVec.toNat_ofNat])

theorem mul_sext_eq_ofInt {n : Nat} (a : Word) (v : BitVec n) :
    a * sext v = BitVec.ofInt 32 (a.toNat * v.toInt) := by
  rw [sext_eq_ofInt, BitVec.ofInt_mul, BitVec.ofInt_natCast, BitVec.ofNat_toNat, BitVec.setWidth_eq]

/-- Settles O5: the low half of a product does not see how its operands are read. -/
theorem multiplyLowHalf : Obligations.MultiplyLowHalf := by
  unfold Obligations.MultiplyLowHalf
  intro rt ra rb imm s
  refine ⟨⟨readReg s ra * readReg s rb, ?mul, ?mulu, BitVec.toNat_mul ..⟩,
    ⟨_, ?muli, rfl⟩, ⟨readReg s ra * zext imm, ?mului, ?mului_value⟩⟩
  case mul => exact writesResult_of_writeBack rfl (smulLow_eq_mul ..)
  case mulu => exact writesResult_of_writeBack rfl (umulLow_eq_mul ..)
  case muli =>
    exact writesResult_of_writeBack rfl ((smulLow_eq_mul ..).trans (mul_sext_eq_ofInt ..))
  case mului => exact writesResult_of_writeBack rfl (umulLow_eq_mul ..)
  case mului_value => rw [BitVec.toNat_mul, zext_toNat (by omega)]

/-- The signed product is its high half times 2^32 plus its low half: the high half fits a word. -/
theorem smulHigh_smulLow (a b : Word) :
    a.toInt * b.toInt = (smulHigh a b).toInt * 2 ^ 32 + (smulLow a b).toNat := by
  have hlo : -2 ^ 62 ≤ a.toInt * b.toInt := BitVec.le_toInt_mul_toInt
  have hhi : a.toInt * b.toInt ≤ 2 ^ 62 := BitVec.toInt_mul_toInt_le
  have hhigh : (smulHigh a b).toInt = a.toInt * b.toInt / 4294967296 :=
    BitVec.toInt_ofInt_eq_self (by omega) (by omega) (by omega)
  rw [hhigh, smulLow, BitVec.toNat_ofInt]
  omega

theorem umulHigh_umulLow (a b : Word) :
    a.toNat * b.toNat = (umulHigh a b).toNat * 2 ^ 32 + (umulLow a b).toNat := by
  have hlt : a.toNat * b.toNat < 2 ^ 32 * 2 ^ 32 := Nat.mul_lt_mul'' a.isLt b.isLt
  simp only [umulHigh, umulLow, BitVec.toNat_ofNat]
  omega

/-- Settles O6: quotient and remainder of the exact product by 2^32 are its halves. -/
theorem multiplyExactProduct : Obligations.MultiplyExactProduct := by
  unfold Obligations.MultiplyExactProduct
  intro rt ra rb s
  exact ⟨⟨_, _, writesResult_of_writeBack rfl rfl, writesResult_of_writeBack rfl rfl,
      smulHigh_smulLow ..⟩,
    ⟨_, _, writesResult_of_writeBack rfl rfl, writesResult_of_writeBack rfl rfl,
      umulHigh_umulLow ..⟩⟩

end Sys2Proof.Machine
end

section
/-! Results, continued: division, the set instructions, CMP's relation bits, shifts and rotates
(`40_arithmetic_logic.md`, `41_shift.md`). -/

namespace Sys2Proof.Machine

/-! ## Division -/

theorem opDiv_of_none {bad : Word → Word → Option Refusal} {f : Word → Word → Word} {rt : RegNum}
    {a b : Word} {s : State} (h : bad a b = none) :
    opDiv bad f rt a b s = writeBack rt (f a b) s := by
  unfold opDiv
  rw [h]

/-- A division that its rule refuses. -/
theorem refused_of_opDiv {i : Instr} {s : State} {rt : RegNum} {a b : Word} {r : Refusal}
    {bad : Word → Word → Option Refusal} {f : Word → Word → Word}
    (h : exec i s = opDiv bad f rt a b s) (hbad : bad a b = some r) : exec i s = .refused r := by
  rw [h, opDiv, hbad]

/-- A division that its rule does not refuse writes its value. -/
theorem writesResult_of_opDiv {i : Instr} {s : State} {rt : RegNum} {a b : Word}
    {bad : Word → Word → Option Refusal} {f : Word → Word → Word}
    (h : exec i s = opDiv bad f rt a b s) (hbad : bad a b = none) : writesResult i s rt (f a b) 4 :=
  writesResult_of_writeBack (h.trans (opDiv_of_none hbad)) rfl

theorem sdivRefusal_none {a b : Word} (hb : b ≠ 0) (h : ¬(a = 0x80000000 ∧ b = 0xFFFFFFFF)) :
    sdivRefusal a b = none := by
  rw [sdivRefusal, if_neg hb, if_neg h]

theorem sdivRefusal_zero {a b : Word} (hb : b = 0) : sdivRefusal a b = some .divisionByZero := by
  rw [sdivRefusal, if_pos hb]

theorem sdivRefusal_overflow {a b : Word} (ha : a = 0x80000000) (hb : b = 0xFFFFFFFF) :
    sdivRefusal a b = some .divisionOverflow := by
  subst ha hb
  rfl

theorem udivRefusal_none {a b : Word} (hb : b ≠ 0) : udivRefusal a b = none := if_neg hb

theorem udivRefusal_zero {a b : Word} (hb : b = 0) : udivRefusal a b = some .divisionByZero :=
  if_pos hb

theorem sdivide_toInt {a b : Word} (h : ¬(a = 0x80000000 ∧ b = 0xFFFFFFFF)) :
    (sdivide a b).toInt = a.toInt.tdiv b.toInt := by
  have hsdiv : sdivide a b = a.sdiv b :=
    BitVec.eq_of_toInt_eq (by rw [sdivide, BitVec.toInt_sdiv, BitVec.toInt_ofInt])
  rw [hsdiv]
  exact BitVec.toInt_sdiv_of_ne_or_ne a b (not_and_or.mp h)

theorem sremainder_toInt (a b : Word) : (sremainder a b).toInt = a.toInt.tmod b.toInt := by
  have hsrem : sremainder a b = a.srem b := by
    rw [sremainder, mul_comm, ← Int.tmod_def, ← BitVec.toInt_srem, BitVec.ofInt_toInt]
  rw [hsrem, BitVec.toInt_srem]

/-- The remainder is zero or has the dividend's sign. -/
theorem sremainder_sign (a b : Word) :
    sremainder a b = 0 ∨ ((sremainder a b).toInt < 0 ↔ a.toInt < 0) := by
  by_cases hdvd : b.toInt ∣ a.toInt
  · left
    apply BitVec.eq_of_toInt_eq
    rw [sremainder_toInt, Int.tmod_eq_zero_of_dvd hdvd]
    rfl
  · right
    rw [sremainder_toInt, ← Int.sign_eq_neg_one_iff_neg, Int.sign_tmod, if_neg hdvd,
      Int.sign_eq_neg_one_iff_neg]

theorem toInt_ne_zero {n : Nat} {b : BitVec n} (hb : b ≠ 0) : b.toInt ≠ 0 :=
  fun h => hb (BitVec.eq_of_toInt_eq (by simpa using h))

theorem sremainder_natAbs_lt (a : Word) {b : Word} (hb : b ≠ 0) :
    (sremainder a b).toInt.natAbs < b.toInt.natAbs := by
  rw [sremainder_toInt, Int.natAbs_tmod]
  exact Nat.mod_lt _ (Int.natAbs_pos.mpr (toInt_ne_zero hb))

theorem sdivide_sremainder {a b : Word} (h : ¬(a = 0x80000000 ∧ b = 0xFFFFFFFF)) :
    a.toInt = (sdivide a b).toInt * b.toInt + (sremainder a b).toInt := by
  rw [sdivide_toInt h, sremainder_toInt, Int.tdiv_mul_add_tmod]

theorem sext_inj {n : Nat} (hn : n ≤ 32) {u v : BitVec n} : sext u = sext v ↔ u = v := by
  rw [← BitVec.toInt_inj, sext_toInt hn, sext_toInt hn, BitVec.toInt_inj]

/-- Settles O7: neither rule refuses, so DIV and MOD write the quotient rounded toward zero and its
remainder. -/
theorem signedDivision : Obligations.SignedDivision := by
  unfold Obligations.SignedDivision
  intro rt ra rb imm s
  refine ⟨fun hb hover => ?_, fun himm hover => ?_⟩
  · exact ⟨_, _, writesResult_of_opDiv rfl (sdivRefusal_none hb hover),
      writesResult_of_opDiv rfl (sdivRefusal_none hb hover), sdivide_sremainder hover,
      sremainder_natAbs_lt _ hb, sremainder_sign ..⟩
  · have hb : sext imm ≠ 0 := fun h => himm ((sext_inj (n := 16) (by omega)).mp h)
    have hover' : ¬(readReg s ra = 0x80000000 ∧ sext imm = 0xFFFFFFFF) := fun ⟨ha, h⟩ =>
      hover ⟨ha, (sext_inj (n := 16) (v := 0xFFFF) (by omega)).mp h⟩
    exact ⟨_, writesResult_of_opDiv rfl (sdivRefusal_none hb hover'),
      (sdivide_toInt hover').trans (by rw [sext_toInt (by omega : 16 ≤ 32)])⟩

theorem udivide_toNat (a b : Word) : (udivide a b).toNat = a.toNat / b.toNat := by
  rw [udivide, BitVec.toNat_ofNat]
  exact Nat.mod_eq_of_lt (lt_of_le_of_lt (Nat.div_le_self ..) a.isLt)

theorem uremainder_toNat (a b : Word) : (uremainder a b).toNat = a.toNat % b.toNat := by
  rw [uremainder, BitVec.toNat_ofNat]
  exact Nat.mod_eq_of_lt (lt_of_le_of_lt (Nat.mod_le ..) a.isLt)

theorem toNat_ne_zero {n : Nat} {b : BitVec n} (hb : b ≠ 0) : b.toNat ≠ 0 :=
  fun h => hb (BitVec.eq_of_toNat_eq (by simpa using h))

/-- Settles O8: quotient and remainder of the unsigned values fit a word. -/
theorem unsignedDivision : Obligations.UnsignedDivision := by
  unfold Obligations.UnsignedDivision
  intro rt ra rb imm s
  refine ⟨fun hb => ?_, fun himm => ?_⟩
  · refine ⟨_, _, writesResult_of_opDiv rfl (udivRefusal_none hb),
      writesResult_of_opDiv rfl (udivRefusal_none hb), ?_, ?_⟩
    · rw [udivide_toNat, uremainder_toNat, Nat.div_add_mod']
    · rw [uremainder_toNat]
      exact Nat.mod_lt _ (Nat.pos_of_ne_zero (toNat_ne_zero hb))
  · have hzext : (zext imm).toNat = imm.toNat := zext_toNat (by omega) imm
    have hb : zext imm ≠ 0 := fun h => toNat_ne_zero himm (by rw [← hzext, h]; rfl)
    exact ⟨_, writesResult_of_opDiv rfl (udivRefusal_none hb), by rw [udivide_toNat, hzext]⟩

theorem exec_divi (rt ra : RegNum) (imm : BitVec 16) (s : State) :
    exec (.divi rt ra imm) s = opDiv sdivRefusal sdivide rt (readReg s ra) (sext imm) s := rfl

theorem exec_divui (rt ra : RegNum) (imm : BitVec 16) (s : State) :
    exec (.divui rt ra imm) s = opDiv udivRefusal udivide rt (readReg s ra) (zext imm) s := rfl

/-- Settles O9: the rule of each division names the refusal. -/
theorem divisionCornersRefused : Obligations.DivisionCornersRefused := by
  unfold Obligations.DivisionCornersRefused
  intro rt ra rb s
  refine ⟨fun hb => ⟨?div0, ?mod0, ?divu0, ?modu0⟩, ?divi0, ?divui0,
    fun ha => ⟨?divi, fun hb => ⟨?div, ?mod⟩⟩⟩
  case div0 => exact refused_of_opDiv rfl (sdivRefusal_zero hb)
  case mod0 => exact refused_of_opDiv rfl (sdivRefusal_zero hb)
  case divu0 => exact refused_of_opDiv rfl (udivRefusal_zero hb)
  case modu0 => exact refused_of_opDiv rfl (udivRefusal_zero hb)
  case divi0 => exact refused_of_opDiv (exec_divi ..) (sdivRefusal_zero rfl)
  case divui0 => exact refused_of_opDiv (exec_divui ..) (udivRefusal_zero rfl)
  case divi => exact refused_of_opDiv rfl (sdivRefusal_overflow ha rfl)
  case div => exact refused_of_opDiv rfl (sdivRefusal_overflow ha hb)
  case mod => exact refused_of_opDiv rfl (sdivRefusal_overflow ha hb)

/-! ## The set instructions and CMP -/

theorem truth_decide (p : Prop) [Decidable p] : truth (decide p) = if p then 1 else 0 := by
  simp [truth]

/-- A relation that is stated by its opposite. -/
theorem truth_decide_not (p q : Prop) [Decidable p] [Decidable q] (h : p ↔ ¬q) :
    truth (decide p) = if q then 0 else 1 := by
  rw [truth_decide]
  by_cases hq : q <;> simp [h, hq]

/-- Settles O10: the relation of each instruction, or its opposite, decides between 1 and 0. -/
theorem setOnRelation : Obligations.SetOnRelation := by
  unfold Obligations.SetOnRelation
  intro rt ra rb imm s
  refine ⟨?slt, ?slt13, ?seq, ?sne, ?sle, ?sltu, ?sleu, ?slti⟩
  case slt => exact writesResult_of_writeBack rfl (truth_decide _)
  case slt13 => exact writesResult_of_writeBack rfl (truth_decide _)
  case seq => exact writesResult_of_writeBack rfl (by simp [truth])
  case sne => exact writesResult_of_writeBack rfl (by simp [truth])
  case sle => exact writesResult_of_writeBack rfl (truth_decide_not _ _ not_lt.symm)
  case sltu => exact writesResult_of_writeBack rfl (truth_decide _)
  case sleu => exact writesResult_of_writeBack rfl (truth_decide_not _ _ not_lt.symm)
  case slti =>
    have himm : (sext imm).toInt = imm.toInt := sext_toInt (by omega) imm
    exact writesResult_of_writeBack rfl ((truth_decide _).trans (by rw [himm]))

theorem cmpBits_getLsbD (a b : Word) (j : Nat) :
    (cmpBits a b).getLsbD j = (cmpRelations a b).getD j false := by
  rw [cmpBits, zext_getLsbD (by simp [cmpRelations]), BitVec.getLsbD_ofBoolListLE]

/-- The bits of CMP's word are the rows of its table, in order. -/
theorem compareBits_cmpBits (a b : Word) : compareBits a b (cmpBits a b) := by
  unfold compareBits
  simp only [cmpBits_getLsbD, ← shiftCount_toNat]
  refine ⟨?_, ?_, ?_, ?_, ?_, ?_, ?_, ?_, ?_, ?_, ?_, ?_, ?_, ?_,
    fun j hj => List.getD_eq_default _ _ hj⟩ <;> simp [cmpRelations]

/-- Settles O11: both write `cmpBits`, CMPI of the sign-extended immediate. -/
theorem compareRelationBits : Obligations.CompareRelationBits := by
  unfold Obligations.CompareRelationBits
  intro rt ra rb imm s
  rw [← sext_eq_ofInt imm]
  exact ⟨⟨_, writesResult_of_writeBack rfl rfl, compareBits_cmpBits ..⟩,
    ⟨_, writesResult_of_writeBack rfl rfl, compareBits_cmpBits ..⟩⟩

/-! ## Shifts -/

theorem shiftLeftFill_getLsbD (f : Bool) (a : Word) (n : Nat) {j : Nat} (hj : j < 32) :
    (shiftLeftFill f a n).getLsbD j = if j < n then f else a.getLsbD (j - n) := by
  have hfill : (if f then BitVec.ofNat 32 (2 ^ n - 1) else 0).getLsbD j =
      (f && decide (j < n)) := by
    cases f
    · simp
    · rw [if_pos rfl, BitVec.getLsbD_ofNat, Nat.testBit_two_pow_sub_one]
      simp [hj]
  rw [shiftLeftFill, BitVec.getLsbD_or, hfill, BitVec.getLsbD_shiftLeft]
  by_cases hn : j < n <;> simp [hj, hn]

/-- Settles O12: a register's count is its value modulo 32, an immediate's its own. -/
theorem shiftLeftWithFill : Obligations.ShiftLeftWithFill := by
  unfold Obligations.ShiftLeftWithFill
  intro rt ra rb count f s
  rw [← shiftCount_toNat]
  exact ⟨⟨_, writesResult_of_writeBack rfl rfl, fun _ => shiftLeftFill_getLsbD f _ _⟩,
    ⟨_, writesResult_of_writeBack rfl rfl, fun _ => shiftLeftFill_getLsbD f _ _⟩⟩

theorem shiftRight_toNat (a : Word) (n : Nat) : (shiftRight a n).toNat = a.toNat / 2 ^ n := by
  rw [shiftRight, BitVec.toNat_ushiftRight, Nat.shiftRight_eq_div_pow]

theorem shiftRightArith_toInt (a : Word) (n : Nat) :
    (shiftRightArith a n).toInt = a.toInt / 2 ^ n := by
  have hsshift : shiftRightArith a n = a.sshiftRight n := by
    rw [shiftRightArith, ← BitVec.ofInt_toInt (x := a.sshiftRight n), BitVec.toInt_sshiftRight,
      Int.shiftRight_eq_div_pow, Nat.cast_pow, Nat.cast_ofNat]
  rw [hsshift, BitVec.toInt_sshiftRight, Int.shiftRight_eq_div_pow, Nat.cast_pow, Nat.cast_ofNat]

/-- Settles O13: the two shift functions as floor divisions, at either count. -/
theorem rightShiftsDivide : Obligations.RightShiftsDivide := by
  unfold Obligations.RightShiftsDivide
  intro rt ra rb count s
  rw [← shiftCount_toNat]
  exact ⟨⟨_, writesResult_of_writeBack rfl rfl, shiftRight_toNat ..⟩,
    ⟨_, writesResult_of_writeBack rfl rfl, shiftRight_toNat ..⟩,
    ⟨_, writesResult_of_writeBack rfl rfl, shiftRightArith_toInt ..⟩,
    ⟨_, writesResult_of_writeBack rfl rfl, shiftRightArith_toInt ..⟩⟩

/-- A left rotate puts bit `j` at bit `j + n`, round the word. -/
theorem rotLeft_getLsbD (a : Word) {n : Nat} (hn : n < 32) {j : Nat} (hj : j < 32) :
    (rotLeft a n).getLsbD ((j + n) % 32) = a.getLsbD j := by
  unfold rotLeft
  split
  case isTrue h0 =>
    subst h0
    rw [Nat.add_zero, Nat.mod_eq_of_lt hj]
  case isFalse h0 =>
    rw [BitVec.getLsbD_or, BitVec.getLsbD_shiftLeft, BitVec.getLsbD_ushiftRight]
    by_cases hwrap : j + n < 32
    · rw [Nat.mod_eq_of_lt hwrap, BitVec.getLsbD_of_ge a (32 - n + (j + n)) (by omega)]
      simp [hwrap]
    · have hmod : (j + n) % 32 = j + n - 32 := by omega
      have hback : 32 - n + (j + n - 32) = j := by omega
      have hlow : j + n - 32 < n := by omega
      rw [hmod, hback]
      simp [hlow]

/-- A right rotate puts bit `j + n`, round the word, at bit `j`. -/
theorem rotRight_getLsbD (a : Word) {n : Nat} (hn : n < 32) {j : Nat} (hj : j < 32) :
    (rotRight a n).getLsbD j = a.getLsbD ((j + n) % 32) := by
  unfold rotRight
  split
  case isTrue h0 =>
    subst h0
    rw [Nat.add_zero, Nat.mod_eq_of_lt hj]
  case isFalse h0 =>
    rw [BitVec.getLsbD_or, BitVec.getLsbD_shiftLeft, BitVec.getLsbD_ushiftRight]
    by_cases hwrap : j + n < 32
    · have hlow : j < 32 - n := by omega
      rw [Nat.mod_eq_of_lt hwrap, Nat.add_comm j n]
      simp [hlow]
    · have hmod : (j + n) % 32 = j - (32 - n) := by omega
      have hhigh : ¬j < 32 - n := by omega
      rw [hmod, BitVec.getLsbD_of_ge a (n + j) (by omega)]
      simp [hj, hhigh]

/-- Settles O14: the two rotate functions bit by bit, at either count, which is below 32. -/
theorem rotatesMoveBits : Obligations.RotatesMoveBits := by
  unfold Obligations.RotatesMoveBits
  intro rt ra rb count s
  rw [← shiftCount_toNat]
  have hcount : ∀ n : BitVec 5, n.toNat < 32 := fun n => n.isLt
  exact ⟨⟨_, writesResult_of_writeBack rfl rfl, fun _ => rotLeft_getLsbD _ (hcount _)⟩,
    ⟨_, writesResult_of_writeBack rfl rfl, fun _ => rotLeft_getLsbD _ (hcount _)⟩,
    ⟨_, writesResult_of_writeBack rfl rfl, fun _ => rotRight_getLsbD _ (hcount _)⟩,
    ⟨_, writesResult_of_writeBack rfl rfl, fun _ => rotRight_getLsbD _ (hcount _)⟩⟩

end Sys2Proof.Machine
end

section
/-! Control transfer (`42_control_transfer.md`), register 0 and the state after reset. -/

namespace Sys2Proof.Machine

/-! ## Branches -/

theorem add_sext_eq_ofInt_toNat {n : Nat} (a : Word) (v : BitVec n) :
    a + sext v = BitVec.ofInt 32 (a.toNat + v.toInt) := by
  rw [sext_eq_ofInt, BitVec.ofInt_add, BitVec.ofInt_natCast, BitVec.ofNat_toNat, BitVec.setWidth_eq]

theorem transfersTo_of_next {i : Instr} {s : State} {pc target : Word}
    (h : exec i s = .next (setPc pc s)) (hpc : pc = target) : transfersTo i s target := by
  subst hpc
  exact ⟨_, h, rfl, fun _ => rfl, ⟨rfl, rfl, rfl⟩, ⟨rfl, rfl⟩, ⟨fun _ => rfl, rfl⟩, ⟨rfl, rfl⟩⟩

/-- A branch, taken or not (R233); `target` is the choice as the statement writes it. -/
theorem transfersTo_of_branchIf {i : Instr} {s : State} {c : Word → Word → Bool} {ra rb : RegNum}
    {disp : BitVec 16} {target : Word} (h : exec i s = branchIf c ra rb disp s)
    (htarget : (if c (readReg s ra) (readReg s rb) = true then
      BitVec.ofInt 32 (s.pc.toNat + disp.toInt) else s.pc + 4) = target) :
    transfersTo i s target := by
  subst htarget
  unfold branchIf at h
  split at h
  case isTrue hc => exact transfersTo_of_next h (by rw [if_pos hc, add_sext_eq_ofInt_toNat])
  case isFalse hc => exact transfersTo_of_next h (by rw [if_neg hc])

/-- A branch whose relation is stated by its opposite. -/
theorem ite_decide_not {p q : Prop} [Decidable p] [Decidable q] (h : p ↔ ¬q) (a b : Word) :
    (if decide p = true then a else b) = if q then b else a := by
  by_cases hq : q <;> simp [h, hq]

theorem exec_blt (ra rb : RegNum) (disp : BitVec 16) (s : State) :
    exec (.blt ra rb disp) s = branchIf (fun a b => decide (a.toInt < b.toInt)) ra rb disp s := rfl

theorem exec_ble (ra rb : RegNum) (disp : BitVec 16) (s : State) :
    exec (.ble ra rb disp) s = branchIf (fun a b => decide (a.toInt ≤ b.toInt)) ra rb disp s := rfl

theorem exec_bltu (ra rb : RegNum) (disp : BitVec 16) (s : State) :
    exec (.bltu ra rb disp) s = branchIf (fun a b => decide (a.toNat < b.toNat)) ra rb disp s := rfl

theorem exec_bleu (ra rb : RegNum) (disp : BitVec 16) (s : State) :
    exec (.bleu ra rb disp) s = branchIf (fun a b => decide (a.toNat ≤ b.toNat)) ra rb disp s := rfl

/-- Settles O15: each branch is `branchIf` of its relation. -/
theorem conditionalBranches : Obligations.ConditionalBranches := by
  unfold Obligations.ConditionalBranches
  intro ra rb disp s
  refine ⟨?beq, ?bne, ?blt, ?ble, ?bltu, ?bleu⟩
  case beq => exact transfersTo_of_branchIf rfl (by simp)
  case bne => exact transfersTo_of_branchIf rfl (by simp)
  case blt => exact transfersTo_of_branchIf (exec_blt ..) (by simp)
  case ble => exact transfersTo_of_branchIf (exec_ble ..) (ite_decide_not not_lt.symm ..)
  case bltu => exact transfersTo_of_branchIf (exec_bltu ..) (by simp)
  case bleu => exact transfersTo_of_branchIf (exec_bleu ..) (ite_decide_not not_lt.symm ..)

/-! ## Calls -/

/-- The values of a link register field. -/
theorem linkField_cases : ∀ lr : BitVec 2, lr = 0 ∨ lr = 1 ∨ lr = 2 ∨ lr = 3 := by decide

/-- The link registers after one is written. -/
theorem writeLink_links (k : BitVec 2) (v : Word) (s : State) :
    (writeLink k v s).lr1 = (if k = 1 then v else s.lr1) ∧
    (writeLink k v s).lr2 = (if k = 2 then v else s.lr2) ∧
    (writeLink k v s).lr3 = (if k = 3 then v else s.lr3) := by
  rcases linkField_cases k with rfl | rfl | rfl | rfl <;> exact ⟨rfl, rfl, rfl⟩

theorem exec_call (lr : BitVec 2) (disp : BitVec 24) (s : State) :
    exec (.call lr disp) s = .next (setPc (s.pc + sext disp) (writeLink lr s.pc s)) := rfl

/-- Settles O16: CALL is BRA after the one link register is written. -/
theorem branchAndCall : Obligations.BranchAndCall := by
  unfold Obligations.BranchAndCall
  intro lr disp s
  refine ⟨transfersTo_of_next rfl (add_sext_eq_ofInt_toNat ..), fun _ => ?_⟩
  obtain ⟨hlr1, hlr2, hlr3⟩ := writeLink_links lr s.pc s
  exact ⟨_, exec_call lr disp s, add_sext_eq_ofInt_toNat .., hlr1, hlr2, hlr3,
    fun _ => readReg_writeLink .., by simp [sameTraps], by simp [sameMemory], by simp [sameInputs]⟩

theorem exec_jal (rt ra : RegNum) (imm : BitVec 16) (s : State) :
    exec (.jal rt ra imm) s = .next (setPc (readReg s ra + sext imm) (writeReg rt s.pc s)) := rfl

/-- Settles O17: the target address is computed from the state before Rt is written. -/
theorem jumpAndLink : Obligations.JumpAndLink := by
  unfold Obligations.JumpAndLink
  intro rt ra imm s
  exact ⟨_, exec_jal rt ra imm s, add_sext_eq_ofInt (by omega) ..,
    regHolds_of_writeReg fun _ => rfl, by simp [sameLinks], by simp [sameTraps], by simp [sameMemory], by simp [sameInputs]⟩

/-! ## Returns -/

/-- What a field that names a link register reads (R25). -/
theorem readLink_of_ne_zero {lr : BitVec 2} (h : lr ≠ 0) (s : State) :
    readLink s lr = some (if lr = 1 then s.lr1 else if lr = 2 then s.lr2 else s.lr3) := by
  rcases linkField_cases lr with rfl | rfl | rfl | rfl
  · exact absurd rfl h
  · rfl
  · rfl
  · rfl

theorem exec_rtd_of_link {lr : BitVec 2} {offs : BitVec 8} {imm : BitVec 16} {s : State} {v : Word}
    (hlink : readLink s lr = some v) (hoffs : offs.toNat < 0x80) (himm : imm.toNat < 0x8000) :
    exec (.rtd lr offs imm) s = .next (setPc (v + zext offs)
      (writeReg s.params.spReg (readReg s s.params.spReg + zext imm) s)) := by
  change execRtd lr offs imm s = _
  rw [execRtd, hlink]
  exact if_neg (by omega)

theorem add_zext_eq_ofNat {n : Nat} (hn : n ≤ 32) (a : Word) (v : BitVec n) :
    a + zext v = BitVec.ofNat 32 (a.toNat + v.toNat) :=
  BitVec.eq_of_toNat_eq (by rw [BitVec.toNat_add, zext_toNat hn, BitVec.toNat_ofNat])

/-- Settles O18: the named link register is there and neither sign is in doubt. -/
theorem returnAndDeallocate : Obligations.ReturnAndDeallocate := by
  unfold Obligations.ReturnAndDeallocate
  intro lr offs imm s hlr hoffs himm
  rw [← add_zext_eq_ofNat (by omega) _ imm, ← add_zext_eq_ofNat (by omega) _ offs]
  exact ⟨_, exec_rtd_of_link (readLink_of_ne_zero hlr s) hoffs himm, rfl,
    regHolds_of_writeReg fun _ => rfl, by simp [sameLinks], by simp [sameTraps],
    by simp [sameMemory], by simp [sameInputs]⟩

theorem trapReturn_of_sign {d : Nat} {off : BitVec 8} {s : State} (h : 0x80 ≤ off.toNat) :
    trapReturn d off s = .refused .offsetSignUnknown := by
  rw [trapReturn, if_pos h]

/-- Settles O19: the sign tests of RTD and of `trapReturn`, RTD's after the one on Lr. -/
theorem unknownSignRefused : Obligations.UnknownSignRefused := by
  unfold Obligations.UnknownSignRefused
  intro lr offs imm s
  refine ⟨rfl, fun hlr hsign => ?_, fun hoffs => ⟨?_, ?_, ?_⟩⟩
  · change execRtd lr offs imm s = _
    rw [execRtd, readLink_of_ne_zero hlr s]
    exact if_pos hsign
  · exact trapReturn_of_sign hoffs
  · exact trapReturn_of_sign hoffs
  · exact trapReturn_of_sign hoffs

/-- Settles O20: the return reads the address that the call wrote, its own, and adds 4. -/
theorem callThenReturn : Obligations.CallThenReturn := by
  unfold Obligations.CallThenReturn
  intro lr disp rt ra rz imm s
  refine ⟨fun hlr => ?_, fun hrt => ?_⟩
  · have hlink : readLink (setPc (s.pc + sext disp) (writeLink lr s.pc s)) lr = some s.pc :=
      (readLink_writeLink s lr lr s.pc hlr).trans (if_pos rfl)
    exact ⟨_, _, exec_call lr disp s, exec_rtd_of_link hlink (by decide) (by decide), rfl⟩
  · have hreg : readReg (setPc (readReg s ra + sext imm) (writeReg rt s.pc s)) rt = s.pc :=
      (readReg_writeReg s rt rt s.pc).trans (if_pos ⟨rfl, hardZero_eq_false_iff.mpr hrt⟩)
    refine ⟨_, _, exec_jal rt ra imm s, exec_jal rz rt 4 _, ?_⟩
    rw [setPc_pc, hreg]
    rfl

/-! ## Register 0 and reset -/

/-- Settles O60: both halves read off what ADDI writes, in `AddSubtractWrap`. -/
theorem registerZero : Obligations.RegisterZero := by
  unfold Obligations.RegisterZero
  intro ra imm s
  obtain ⟨-, ⟨t, hexec, hregs, hpc, -⟩, -⟩ := addSubtractWrap 0 ra ra imm s
  refine ⟨fun hz => ⟨readReg_hardZero (by simp [hardZero, hz]), t, hexec, fun r => ?_, hpc⟩,
    fun hz => ⟨t, hexec, ?_⟩⟩
  · rw [hregs r]
    exact if_neg fun ⟨_, hnot⟩ => hnot ⟨hz, rfl⟩
  · rw [hregs 0]
    exact if_pos ⟨rfl, by simp [hz]⟩

/-- Settles O59: the fields of `State.resetWith`, whose registers are 0 whether hard-wired or not. -/
theorem resetState : Obligations.ResetState := by
  unfold Obligations.ResetState
  intro p
  refine ⟨rfl, rfl, rfl, rfl, rfl, rfl, fun r => ?_, fun k hk => ?_, fun _ => rfl⟩
  · simp [readReg, State.resetWith]
  · rw [readLink_of_ne_zero hk]
    simp [State.resetWith]

/-- Settles O49: memory, dirty and ES are empty, and ES_DEPTH is 4. -/
theorem invariantAtReset : Obligations.InvariantAtReset := by
  unfold Obligations.InvariantAtReset
  exact ⟨rfl, rfl, nofun, by decide, by decide⟩

end Sys2Proof.Machine
end

section
/-! Loads and stores (`43_load_store.md`, `20_memory.md`). -/

namespace Sys2Proof.Machine

/-- Settles O21: the sum and the shift that the modes take, as numbers modulo 2^32. -/
theorem effectiveAddresses : Obligations.EffectiveAddresses := by
  unfold Obligations.EffectiveAddresses
  intro ra rb disp sc s
  refine ⟨add_sext_eq_ofInt_toNat .., BitVec.eq_of_toNat_eq ?_⟩
  rw [eaIndexed, BitVec.toNat_add, BitVec.toNat_shiftLeft, Nat.shiftLeft_eq, BitVec.toNat_ofNat,
    Nat.add_mod_mod]

/-! ## Admission -/

/-- An aligned access ends inside the space, the widths being powers of two (R66). -/
theorem aligned_le {n a : Nat} (hn : n ∣ 4294967296) (ha : a < 4294967296) (h : a % n = 0) :
    a + n ≤ 4294967296 := by
  obtain ⟨k, hk⟩ := hn
  obtain ⟨m, rfl⟩ := Nat.dvd_of_mod_eq_zero h
  rw [hk] at ha ⊢
  exact Nat.mul_succ n m ▸ Nat.mul_le_mul_left n (Nat.lt_of_mul_lt_mul_left ha)

theorem accessRefusal_of_admitted {s : State} {ea : Word} {n : Nat} (hn : n ∣ 4294967296)
    (h : admitted s ea n) : accessRefusal s ea n = none := by
  obtain ⟨haligned, hin⟩ := h
  exact accessRefusal_none_iff.mpr ⟨haligned, aligned_le hn ea.isLt haligned, hin⟩

theorem accessRefusal_of_misaligned {s : State} {ea : Word} {n : Nat} (h : ea.toNat % n ≠ 0) :
    accessRefusal s ea n = some .misaligned := by
  rw [accessRefusal, if_pos h]

theorem accessRefusal_of_outside {s : State} {ea : Word} {n k : Nat} (hn : n ∣ 4294967296)
    (haligned : ea.toNat % n = 0) (hk : k < n) (hout : inMem s.params (ea.toNat + k) = false) :
    accessRefusal s ea n = some .outsideMem := by
  have hend := aligned_le hn ea.isLt haligned
  have hall : ¬allFrom (inMem s.params) ea.toNat n = true := fun hall => by
    rw [allFrom_iff.mp hall k hk] at hout
    cases hout
  rw [accessRefusal, if_neg (not_not.mpr haligned), if_neg (by omega), if_neg hall]

/-- With its alignment an access is never refused for passing the end of the space. -/
theorem accessRefusal_ne_pastEnd {s : State} {ea : Word} {n : Nat} (hn : n ∣ 4294967296) :
    accessRefusal s ea n ≠ some .pastEndOfSpace := by
  by_cases haligned : ea.toNat % n = 0
  · have hend := aligned_le hn ea.isLt haligned
    rw [accessRefusal, if_neg (not_not.mpr haligned), if_neg (by omega)]
    split <;> simp
  · rw [accessRefusal_of_misaligned haligned]
    simp

/-! ## What loads and stores answer -/

theorem load_of_refusal {n : Nat} {f : Word → Word} {rt : RegNum} {ea : Word} {s : State}
    {r : Refusal} (h : accessRefusal s ea n = some r) : load n f rt ea s = .refused r := by
  rw [load, memRead, h]

theorem store_of_refusal {n : Nat} {rs : RegNum} {ea : Word} {s : State} {r : Refusal}
    (h : accessRefusal s ea n = some r) : store n rs ea s = .refused r := by
  rw [store, memWrite, h]

theorem load_of_admits {n : Nat} {f : Word → Word} {rt : RegNum} {ea : Word} {s : State}
    (h : accessRefusal s ea n = none) : load n f rt ea s =
      .next (advance 3 (writeReg rt (f (joinBytes (bytesFrom s.mem ea.toNat n))) s)) := by
  rw [load, memRead_of_admitted h]

theorem store_of_admits {n : Nat} {rs : RegNum} {ea : Word} {s : State}
    (h : accessRefusal s ea n = none) : store n rs ea s =
      .next (advance 3 (storeBytes (bytesOf (readReg s rs) n) ea.toNat s)) := by
  rw [store, memWrite_of_admitted h]

/-- A load or store is `load` or `store` of the width and at the address that `dataAccess` names. -/
theorem exec_of_dataAccess {i : Instr} {s : State} {n : Nat} {ea : Word}
    (h : dataAccess s i = some (n, ea)) : n ∣ 4294967296 ∧
      ((∃ f rt, exec i s = load n f rt ea s) ∨ ∃ rs, exec i s = store n rs ea s) := by
  cases i with
  | ldb | ldbu | ldw | ldwu | ldt | ldbx | ldbux | ldwx | ldwux | ldtx =>
    cases h
    exact ⟨by decide, .inl ⟨_, _, rfl⟩⟩
  | stb | stw | stt | stbx | stwx | sttx =>
    cases h
    exact ⟨by decide, .inr ⟨_, rfl⟩⟩
  | _ => cases h

/-- What the memory rules refuse, the load or store refuses. -/
theorem exec_of_refusal {i : Instr} {s : State} {n : Nat} {ea : Word} {r : Refusal}
    (h : dataAccess s i = some (n, ea)) (hr : accessRefusal s ea n = some r) :
    exec i s = .refused r := by
  obtain ⟨-, ⟨f, rt, hload⟩ | ⟨rs, hstore⟩⟩ := exec_of_dataAccess h
  · rw [hload, load_of_refusal hr]
  · rw [hstore, store_of_refusal hr]

/-- What the memory rules allow, the load or store answers with a next state. -/
theorem exec_of_admits {i : Instr} {s : State} {n : Nat} {ea : Word}
    (h : dataAccess s i = some (n, ea)) (hr : accessRefusal s ea n = none) :
    ∃ t, exec i s = .next t := by
  obtain ⟨-, ⟨f, rt, hload⟩ | ⟨rs, hstore⟩⟩ := exec_of_dataAccess h
  · exact ⟨_, hload.trans (load_of_admits hr)⟩
  · exact ⟨_, hstore.trans (store_of_admits hr)⟩

/-- Settles O26: the tests of alignment and existence, in this order. -/
theorem unadmittedAccessRefused : Obligations.UnadmittedAccessRefused := by
  unfold Obligations.UnadmittedAccessRefused
  intro i s n ea h
  obtain ⟨hn, -⟩ := exec_of_dataAccess h
  exact ⟨fun hmis => exec_of_refusal h (accessRefusal_of_misaligned hmis),
    fun haligned k hk hout => exec_of_refusal h (accessRefusal_of_outside hn haligned hk hout)⟩

/-- Settles O27: an admitted access completes, and no other is refused for that. -/
theorem dataAccessNeverPastEnd : Obligations.DataAccessNeverPastEnd := by
  unfold Obligations.DataAccessNeverPastEnd
  intro i s hsome hpast
  obtain ⟨⟨n, ea⟩, h⟩ := Option.ne_none_iff_exists'.mp hsome
  obtain ⟨hn, -⟩ := exec_of_dataAccess h
  cases hr : accessRefusal s ea n with
  | none =>
    obtain ⟨t, ht⟩ := exec_of_admits h hr
    rw [ht] at hpast
    cases hpast
  | some r =>
    rw [exec_of_refusal h hr] at hpast
    cases hpast
    exact accessRefusal_ne_pastEnd hn hr

/-! ## Loads -/

theorem field_zext {n : Nat} (hn : n ≤ 32) (v : BitVec n) : field (zext v) 0 n = v := by
  apply BitVec.eq_of_toNat_eq
  rw [field_toNat, zext_toNat hn, pow_zero, Nat.div_one, Nat.mod_eq_of_lt v.isLt]

theorem zext_eq_ofNat {n : Nat} (hn : n ≤ 32) (v : BitVec n) :
    zext v = BitVec.ofNat 32 v.toNat := by
  rw [← zext_toNat hn, BitVec.ofNat_toNat, BitVec.setWidth_eq]

theorem joinBytes_one (b0 : Byte) : joinBytes [b0] = zext b0 := by simp [joinBytes]

theorem joinBytes_two (b0 b1 : Byte) : joinBytes [b0, b1] = zext (b1 ++ b0) := by
  apply BitVec.eq_of_getLsbD_eq
  intro j hj
  simp only [joinBytes, BitVec.getLsbD_or, BitVec.getLsbD_shiftLeft, BitVec.getLsbD_append,
    zext_getLsbD (n := 8) (by omega), zext_getLsbD (n := 16) (by omega)]
  interval_cases j <;> simp

theorem joinBytes_four (b0 b1 b2 b3 : Byte) :
    joinBytes [b0, b1, b2, b3] = b3 ++ b2 ++ b1 ++ b0 := by
  apply BitVec.eq_of_getLsbD_eq
  intro j hj
  simp only [joinBytes, BitVec.getLsbD_or, BitVec.getLsbD_shiftLeft, BitVec.getLsbD_append,
    zext_getLsbD (n := 8) (by omega)]
  interval_cases j <;> simp

/-- An admitted load; `v` is the extended value as the statement writes it. -/
theorem writesResult_of_load {i : Instr} {s : State} {n : Nat} {f : Word → Word} {rt : RegNum}
    {ea v : Word} (h : exec i s = load n f rt ea s) (hn : n ∣ 4294967296) (hadm : admitted s ea n)
    (hv : f (joinBytes (bytesFrom s.mem ea.toNat n)) = v) : writesResult i s rt v 3 :=
  writesResult_of_next (h.trans (load_of_admits (accessRefusal_of_admitted hn hadm))) hv

section

variable (m : Memory) (a : Nat)

theorem sextByte_bytesFrom :
    sextByte (joinBytes (bytesFrom m a 1)) = BitVec.ofInt 32 (m.byteAt a).toInt := by
  rw [sextByte, bytesFrom, bytesFrom, joinBytes_one, field_zext (by omega), sext_eq_ofInt]

theorem zextByte_bytesFrom :
    zextByte (joinBytes (bytesFrom m a 1)) = BitVec.ofNat 32 (m.byteAt a).toNat := by
  rw [zextByte, bytesFrom, bytesFrom, joinBytes_one, field_zext (by omega),
    zext_eq_ofNat (by omega)]

theorem sextHalf_bytesFrom : sextHalf (joinBytes (bytesFrom m a 2)) =
    BitVec.ofInt 32 (m.byteAt (a + 1) ++ m.byteAt a).toInt := by
  rw [sextHalf, bytesFrom, bytesFrom, bytesFrom, joinBytes_two, field_zext (by omega),
    sext_eq_ofInt]

theorem zextHalf_bytesFrom : zextHalf (joinBytes (bytesFrom m a 2)) =
    BitVec.ofNat 32 (m.byteAt (a + 1) ++ m.byteAt a).toNat := by
  rw [zextHalf, bytesFrom, bytesFrom, bytesFrom, joinBytes_two, field_zext (by omega),
    zext_eq_ofNat (by omega)]

theorem word_bytesFrom : joinBytes (bytesFrom m a 4) =
    m.byteAt (a + 3) ++ m.byteAt (a + 2) ++ m.byteAt (a + 1) ++ m.byteAt a :=
  joinBytes_four ..

end

/-- Settles O22: each is `load` at `eaDisp`, with its width and extension. -/
theorem displacementLoads : Obligations.DisplacementLoads := by
  unfold Obligations.DisplacementLoads
  rintro rt ra disp s _ rfl
  refine ⟨fun hadm => ⟨?ldb, ?ldbu⟩, fun hadm => ⟨?ldw, ?ldwu⟩, fun hadm => ?ldt⟩
  case ldb => exact writesResult_of_load rfl (by decide) hadm (sextByte_bytesFrom ..)
  case ldbu => exact writesResult_of_load rfl (by decide) hadm (zextByte_bytesFrom ..)
  case ldw => exact writesResult_of_load rfl (by decide) hadm (sextHalf_bytesFrom ..)
  case ldwu => exact writesResult_of_load rfl (by decide) hadm (zextHalf_bytesFrom ..)
  case ldt => exact writesResult_of_load rfl (by decide) hadm (word_bytesFrom ..)

/-- Settles O23: each is `load` at `eaIndexed`, with its width and extension. -/
theorem indexedLoads : Obligations.IndexedLoads := by
  unfold Obligations.IndexedLoads
  rintro rt ra rb sc s _ rfl
  refine ⟨fun hadm => ⟨?ldbx, ?ldbux⟩, fun hadm => ⟨?ldwx, ?ldwux⟩, fun hadm => ?ldtx⟩
  case ldbx => exact writesResult_of_load rfl (by decide) hadm (sextByte_bytesFrom ..)
  case ldbux => exact writesResult_of_load rfl (by decide) hadm (zextByte_bytesFrom ..)
  case ldwx => exact writesResult_of_load rfl (by decide) hadm (sextHalf_bytesFrom ..)
  case ldwux => exact writesResult_of_load rfl (by decide) hadm (zextHalf_bytesFrom ..)
  case ldtx => exact writesResult_of_load rfl (by decide) hadm (word_bytesFrom ..)

/-! ## Stores -/

/-- Byte `k` of a word as a number and as a field. -/
theorem ofNat_byte_eq_field (v : Word) (k : Nat) :
    BitVec.ofNat 8 (v.toNat / 2 ^ (8 * k)) = field v (8 * k) 8 :=
  BitVec.eq_of_toNat_eq (by rw [field_toNat, BitVec.toNat_ofNat])

theorem bytesOf_getElem_eq_ofNat (v : Word) (n k : Nat) (h : k < (bytesOf v n).length) :
    (bytesOf v n)[k] = BitVec.ofNat 8 (v.toNat / 2 ^ (8 * k)) := by
  rw [bytesOf_getElem]
  apply BitVec.eq_of_toNat_eq
  rw [field_toNat, BitVec.toNat_ushiftRight, Nat.shiftRight_eq_div_pow, pow_zero, Nat.div_one,
    BitVec.toNat_ofNat]

/-- An admitted store from a state in canonical form (R56). -/
theorem storesAt_of_store {i : Instr} {s : State} {n : Nat} {rs : RegNum} {ea : Word}
    (h : exec i s = store n rs ea s) (hinv : s.Inv) (hn : n ∣ 4294967296) (hadm : admitted s ea n) :
    storesAt i s ea n (readReg s rs) := by
  have hnone := accessRefusal_of_admitted hn hadm
  obtain ⟨hmem, -⟩ := hinv
  obtain ⟨-, hend, -⟩ := accessRefusal_none_iff.mp hnone
  have hlen : (bytesOf (readReg s rs) n).length = n := bytesOf_length ..
  have hbyte := byteAt_storeBytes (bs := bytesOf (readReg s rs) n) (by rwa [hlen]) hmem
  refine ⟨_, h.trans (store_of_admits hnone), fun k hk => ?_, fun a ha => ?_, fun a => ?_, ?_, ?_,
    by simp [sameLinks], by simp [sameTraps], by simp [sameInputs]⟩
  · rw [advance_mem, hbyte, dif_pos (by omega), ← bytesOf_getElem_eq_ofNat _ n k (by omega)]
    simp only [Nat.add_sub_cancel_left]
  · rw [advance_mem, hbyte, dif_neg (by omega)]
  · rw [advance_dirty, mem_storeBytes_dirty, hlen]
  · rw [advance_pc, storeBytes_pc]
  · exact fun r => readReg_storeBytes ..

/-- Settles O24: each is `store` at `eaDisp`, with its width. -/
theorem displacementStores : Obligations.DisplacementStores := by
  unfold Obligations.DisplacementStores
  intro rs ra disp s hinv
  exact ⟨storesAt_of_store rfl hinv (by decide), storesAt_of_store rfl hinv (by decide),
    storesAt_of_store rfl hinv (by decide)⟩

/-- Settles O25: each is `store` at `eaIndexed`, with its width. -/
theorem indexedStores : Obligations.IndexedStores := by
  unfold Obligations.IndexedStores
  intro rs ra rb sc s hinv
  exact ⟨storesAt_of_store rfl hinv (by decide), storesAt_of_store rfl hinv (by decide),
    storesAt_of_store rfl hinv (by decide)⟩

/-! ## A load after a store -/

theorem regHolds_of_sameRegs {s t u : State} {rt : RegNum} {v : Word} (hregs : sameRegs s t)
    (hparams : t.params = s.params) (h : regHolds t u rt v) : regHolds s u rt v := by
  intro r
  rw [h r, hparams, hregs r]

/-- What a store leaves for a load at the same address: the same registers and parameters, an admitted
access, and the stored bytes as fields of the stored register, the lowest one named apart. -/
theorem storesAt.then_load {i : Instr} {s : State} {ra : RegNum} {disp : BitVec 8} {n : Nat}
    {v : Word} (h : storesAt i s (eaDisp s ra disp) n v) (hadm : admitted s (eaDisp s ra disp) n)
    (hpos : 0 < n) :
    ∃ t, exec i s = .next t ∧ sameRegs s t ∧ t.params = s.params ∧
      eaDisp s ra disp = eaDisp t ra disp ∧ admitted t (eaDisp s ra disp) n ∧
      t.mem.byteAt (eaDisp s ra disp).toNat = field v 0 8 ∧
      ∀ k, k < n → t.mem.byteAt ((eaDisp s ra disp).toNat + k) = field v (8 * k) 8 := by
  obtain ⟨t, hexec, hbytes, -, -, -, hregs, -, -, hparams, -⟩ := h
  have hfields : ∀ k, k < n → t.mem.byteAt ((eaDisp s ra disp).toNat + k) = field v (8 * k) 8 :=
    fun k hk => by rw [hbytes k hk, ofNat_byte_eq_field]
  refine ⟨t, hexec, hregs, hparams, ?_, ?_, hfields 0 hpos, hfields⟩
  · rw [eaDisp, eaDisp, hregs]
  · rwa [admitted, hparams]

/-- Settles O28: the loaded bytes are adjacent fields of the stored register, which join to its low
part. -/
theorem storeThenLoad : Obligations.StoreThenLoad := by
  unfold Obligations.StoreThenLoad
  intro rs ra rt disp s hinv
  obtain ⟨hstb, hstw, hstt⟩ := displacementStores rs ra disp s hinv
  refine ⟨fun hadm => ?_, fun hadm => ?_, fun hadm => ?_⟩
  · obtain ⟨t, hstore, hregs, hparams, hea, hadm', hlow, hbytes⟩ :=
      (hstt hadm).then_load hadm (by omega)
    obtain ⟨-, -, hldt⟩ := displacementLoads rt ra disp t _ hea
    obtain ⟨u, hload, hholds, -⟩ := hldt hadm'
    refine ⟨t, u, hstore, hload, regHolds_of_sameRegs hregs hparams ?_⟩
    have hword : field (readReg s rs) 24 8 ++ field (readReg s rs) 16 8 ++
        field (readReg s rs) 8 8 ++ field (readReg s rs) 0 8 = readReg s rs := bytes32_join _
    rwa [hbytes 3 (by omega), hbytes 2 (by omega), hbytes 1 (by omega), hlow, hword]
      at hholds
  · obtain ⟨t, hstore, hregs, hparams, hea, hadm', hlow, hbytes⟩ :=
      (hstw hadm).then_load hadm (by omega)
    obtain ⟨-, hldw, -⟩ := displacementLoads rt ra disp t _ hea
    obtain ⟨-, u, hload, hholds, -⟩ := hldw hadm'
    refine ⟨t, u, hstore, hload, regHolds_of_sameRegs hregs hparams ?_⟩
    have hhalf : field (readReg s rs) 8 8 ++ field (readReg s rs) 0 8 = field (readReg s rs) 0 16 :=
      field_append _ 0 8 8
    rwa [hbytes 1 (by omega), hlow, hhalf, field_toNat, pow_zero, Nat.div_one] at hholds
  · obtain ⟨t, hstore, hregs, hparams, hea, hadm', hlow, -⟩ :=
      (hstb hadm).then_load hadm (by omega)
    obtain ⟨hldb, -, -⟩ := displacementLoads rt ra disp t _ hea
    obtain ⟨-, u, hload, hholds, -⟩ := hldb hadm'
    refine ⟨t, u, hstore, hload, regHolds_of_sameRegs hregs hparams ?_⟩
    rwa [hlow, field_toNat, pow_zero, Nat.div_one] at hholds

end Sys2Proof.Machine
end

section
/-! Traps and the step (`60_exceptions.md`, `44_system.md`, R101, R336, R374). -/

namespace Sys2Proof.Machine

/-! ## Entering a trap -/

theorem trapEnter_of_room {k : TrapKind} {l : Level} {s : State}
    (room : s.es.length < s.params.esDepth) : trapEnter k l s =
      .next { s with es := ⟨s.pc, s.il⟩ :: s.es, il := l, pc := handler s.params k } := if_pos room

theorem trapEnter_of_full {k : TrapKind} {l : Level} {s : State}
    (full : s.es.length = s.params.esDepth) : trapEnter k l s = .refused .exceptionStackFull :=
  if_neg (by omega)

theorem exec_irq_of_above {lvl : Level} {num : BitVec 9} {s : State} (h : s.il.toNat < lvl.toNat) :
    exec (.irq lvl num) s = trapEnter (.irq num lvl) lvl s := if_pos h

theorem exec_irq_of_masked {lvl : Level} {num : BitVec 9} {s : State} (h : lvl.toNat ≤ s.il.toNat) :
    exec (.irq lvl num) s = .refused .irqNotAboveLevel := if_neg (by omega)

/-- A next state that differs in pc, IL and ES only. -/
theorem trapsTo_of_next {i : Instr} {s : State} {pc target : Word} {il : Level} {es : List EsEntry}
    (h : exec i s = .next { s with es := es, il := il, pc := pc }) (hpc : pc = target) :
    trapsTo i s target il es := by
  subst hpc
  exact ⟨_, h, rfl, rfl, rfl, fun _ => rfl, ⟨rfl, rfl, rfl⟩, ⟨fun _ => rfl, rfl⟩, ⟨rfl, rfl⟩⟩

/-- Settles O29: each is `trapEnter` with room on ES. -/
theorem breakAndSystemCall : Obligations.BreakAndSystemCall := by
  unfold Obligations.BreakAndSystemCall
  exact fun num s room =>
    ⟨trapsTo_of_next (trapEnter_of_room room) rfl, trapsTo_of_next (trapEnter_of_room room) rfl⟩

/-- Settles O30: an IRQ above IL is `trapEnter` at its level. -/
theorem interruptInstruction : Obligations.InterruptInstruction := by
  unfold Obligations.InterruptInstruction
  exact fun lvl num s habove room =>
    trapsTo_of_next ((exec_irq_of_above habove).trans (trapEnter_of_room room)) rfl

/-! ## Returning from a trap -/

theorem trapReturn_of_entry {d : Nat} {off : BitVec 8} {s : State} {e : EsEntry}
    {rest : List EsEntry} (hoff : off.toNat < 0x80) (hes : s.es.drop (d - 1) = e :: rest) :
    trapReturn d off s = .next { s with es := rest, il := e.il, pc := e.pc + zext off } := by
  rw [trapReturn, if_neg (by omega), hes]
  rfl

theorem trapReturn_of_underflow {d : Nat} {off : BitVec 8} {s : State} (hoff : off.toNat < 0x80)
    (hes : s.es.length ≤ d - 1) : trapReturn d off s = .refused .exceptionStackUnderflow := by
  rw [trapReturn, if_neg (by omega), List.drop_eq_nil_of_le hes]
  rfl

/-- Settles O32: RTS and RTI are `trapReturn` of one entry, RTS2UP of two. -/
theorem trapReturns : Obligations.TrapReturns := by
  unfold Obligations.TrapReturns
  intro offs s e f rest hoffs
  have hpc : e.pc + zext offs = BitVec.ofNat 32 (e.pc.toNat + offs.toNat) :=
    add_zext_eq_ofNat (by omega) ..
  refine ⟨fun hes => ⟨?rts, ?rti⟩, fun hes => ?rts2up⟩
  case rts => exact trapsTo_of_next (trapReturn_of_entry (d := 1) hoffs hes) hpc
  case rti => exact trapsTo_of_next (trapReturn_of_entry (d := 1) hoffs hes) hpc
  case rts2up => exact trapsTo_of_next (trapReturn_of_entry (d := 2) hoffs (by rw [hes]; rfl)) hpc

/-- Settles O33: nothing is left of ES once the entries to discard are gone. -/
theorem returnUnderflowRefused : Obligations.ReturnUnderflowRefused := by
  unfold Obligations.ReturnUnderflowRefused
  intro offs s hoffs
  refine ⟨fun hes => ⟨?rts, ?rti⟩, fun hes => ?rts2up⟩
  case rts => exact trapReturn_of_underflow (d := 1) hoffs (by omega)
  case rti => exact trapReturn_of_underflow (d := 1) hoffs (by omega)
  case rts2up => exact trapReturn_of_underflow (d := 2) hoffs (by omega)

/-- Settles O34: each trap pushes the entry that the return goes through, by `InterruptInstruction`,
`BreakAndSystemCall` and `TrapReturns`. -/
theorem nestedTrapsUnwind : Obligations.NestedTrapsUnwind := by
  unfold Obligations.NestedTrapsUnwind
  intro lvl num call s
  refine ⟨fun habove room => ?_, fun room => ?_⟩
  · obtain ⟨t, hirq, -, -, htes, -, -, -, htparams, -⟩ :=
      interruptInstruction lvl num s habove (by omega)
    have troom : t.es.length < t.params.esDepth := by
      rw [htes, htparams]
      exact Nat.lt_of_succ_le room
    obtain ⟨-, u, hsys, -, -, hues, -⟩ := breakAndSystemCall call t troom
    rw [htes] at hues
    obtain ⟨-, hrts2up⟩ := trapReturns 4 u ⟨s.pc, s.il⟩ ⟨t.pc, t.il⟩ s.es (by decide)
    obtain ⟨v, hexec, hpc, hil, hes, -⟩ := hrts2up hues
    have hadd : s.pc + 4 = BitVec.ofNat 32 (s.pc.toNat + (4#8).toNat) :=
      add_zext_eq_ofNat (by omega) s.pc 4#8
    exact ⟨t, u, v, hirq, hsys, hexec, hpc.trans hadd.symm, hil, hes⟩
  · obtain ⟨⟨t, hbrk, -, -, htes, -⟩, -⟩ := breakAndSystemCall 0 s room
    obtain ⟨hret, -⟩ := trapReturns 0 t ⟨s.pc, s.il⟩ ⟨s.pc, s.il⟩ s.es (by decide)
    obtain ⟨-, u, hexec, hpc, hil, hes, -⟩ := hret htes
    have hadd : BitVec.ofNat 32 (s.pc.toNat + (0#8).toNat) = s.pc := BitVec.eq_of_toNat_eq (by simp)
    exact ⟨t, u, hbrk, hexec, hpc.trans hadd, hil, hes⟩

/-- Settles O35: every path of the nine is the refusal. -/
theorem namedOnlyRefused : Obligations.NamedOnlyRefused := by
  unfold Obligations.NamedOnlyRefused
  intro r20 r26 r18 ra rb rc cond disp s
  exact ⟨rfl, rfl, rfl, rfl, rfl, rfl, rfl, rfl, rfl⟩

/-! ## One step -/

/-- Settles O38: the test on END_PC comes before all else. -/
theorem endPcIsFinal : Obligations.EndPcIsFinal := by
  unfold Obligations.EndPcIsFinal
  exact fun s h => if_pos h

theorem externalTrap_of_offer {s : State} {q : ExtReq} {offers : List (Option ExtReq)}
    (hq : s.extIrq = some q :: offers) (habove : s.il.toNat < q.lvl.toNat) : externalTrap s =
      some (trapEnter (.ext q.num q.lvl) q.lvl { s with extIrq := offers }) := by
  rw [externalTrap, hq]
  exact if_pos habove

theorem externalTrap_of_noInterrupt {s : State} (h : noInterrupt s) : externalTrap s = none := by
  cases hext : externalTrap s with
  | none => rfl
  | some a =>
    obtain ⟨q, offers, hq, habove, -⟩ := externalTrap_some hext
    have hmasked := h q offers hq
    omega

theorem step_of_externalTrap {s : State} {a : Answer} (hpc : s.pc ≠ s.params.endPc)
    (h : externalTrap s = some a) : step s = a := by
  rw [step, if_neg hpc, h]

theorem step_of_fetch_ok {s : State} {i : Instr} (hpc : s.pc ≠ s.params.endPc) (hno : noInterrupt s)
    (h : fetchInstr s = .ok i) : step s = exec i (dropOffer s) := by
  rw [step, if_neg hpc, externalTrap_of_noInterrupt hno, h]

theorem step_of_fetch_error {s : State} {r : Refusal} (hpc : s.pc ≠ s.params.endPc)
    (hno : noInterrupt s) (h : fetchInstr s = .error r) : step s = .refused r := by
  rw [step, if_neg hpc, externalTrap_of_noInterrupt hno, h]

/-- Settles O31: the level test of IRQ, and `trapEnter` without room on ES. -/
theorem untakenTrapsRefused : Obligations.UntakenTrapsRefused := by
  unfold Obligations.UntakenTrapsRefused
  intro lvl num s
  refine ⟨exec_irq_of_masked, exec_irq_of_masked (Nat.zero_le _),
    fun full => ⟨trapEnter_of_full full, trapEnter_of_full full, fun habove => ?_, ?_⟩⟩
  · exact (exec_irq_of_above habove).trans (trapEnter_of_full full)
  · intro q offers hq habove hpc
    rw [step_of_externalTrap hpc (externalTrap_of_offer hq habove)]
    exact trapEnter_of_full full

/-- Settles O36: the step is `trapEnter` of the external kind, whatever the fetch would answer. -/
theorem externalInterruptTaken : Obligations.ExternalInterruptTaken := by
  unfold Obligations.ExternalInterruptTaken
  intro q offers s hq habove room hpc
  have hstep := (step_of_externalTrap hpc (externalTrap_of_offer hq habove)).trans
    (trapEnter_of_room (s := { s with extIrq := offers }) room)
  exact ⟨_, hstep, rfl, rfl, rfl, fun _ => rfl, ⟨rfl, rfl, rfl⟩, ⟨fun _ => rfl, rfl⟩, rfl, rfl⟩

/-- States that fetch alike and are alike once the offer is used up take the same step. -/
theorem step_congr {s t : State} (hpcs : s.pc ≠ s.params.endPc) (hpct : t.pc ≠ t.params.endPc)
    (hs : noInterrupt s) (ht : noInterrupt t) (hfetch : fetchInstr t = fetchInstr s)
    (hdrop : dropOffer t = dropOffer s) : step s = step t := by
  cases hf : fetchInstr s with
  | error r => rw [step_of_fetch_error hpcs hs hf, step_of_fetch_error hpct ht (hfetch.trans hf)]
  | ok i => rw [step_of_fetch_ok hpcs hs hf, step_of_fetch_ok hpct ht (hfetch.trans hf), hdrop]

/-- Settles O37: no interrupt is taken with or without the offer, the fetch does not see the offers, and
both steps use one up. -/
theorem maskedOfferIgnored : Obligations.MaskedOfferIgnored := by
  unfold Obligations.MaskedOfferIgnored
  intro q offers s hq hmasked
  by_cases hpc : s.pc = s.params.endPc
  · exact (endPcIsFinal s hpc).trans (endPcIsFinal { s with extIrq := none :: offers } hpc).symm
  · have hno : noInterrupt s := fun p rest hp => by
      rw [hq] at hp
      cases hp
      exact hmasked
    exact step_congr hpc hpc hno nofun rfl (by simp [dropOffer, hq])

/-! ## The fetch -/

section

variable {s : State} {n : Nat}

theorem fetchRefusal_of_pastEnd (h : 4294967296 < s.pc.toNat + n) :
    fetchRefusal s n = some .pastEndOfSpace := if_pos h

theorem fetchRefusal_of_outside {k : Nat} (hend : s.pc.toNat + n ≤ 4294967296) (hk : k < n)
    (hout : inMem s.params (s.pc.toNat + k) = false) : fetchRefusal s n = some .outsideMem := by
  have hall : allFrom (inMem s.params) s.pc.toNat n = false := by
    rw [← Bool.not_eq_true, allFrom_iff]
    exact fun hall => by rw [hall k hk] at hout; cases hout
  rw [fetchRefusal, if_neg (by omega), hall]
  rfl

theorem fetchRefusal_of_exists (hend : s.pc.toNat + n ≤ 4294967296)
    (hin : ∀ k, k < n → inMem s.params (s.pc.toNat + k) = true) : fetchRefusal s n =
      if allFrom (fun a => !s.dirty.contains a) s.pc.toNat n then none
      else some .fetchOfStoredByte := by
  rw [fetchRefusal, if_neg (by omega), allFrom_iff.mpr hin]
  rfl

theorem allFrom_clean_iff : allFrom (fun a => !s.dirty.contains a) s.pc.toNat n = true ↔
    ∀ k, k < n → s.pc.toNat + k ∉ s.dirty := by
  rw [allFrom_iff]
  simp

theorem fetchRefusal_of_dirty {k : Nat} (hend : s.pc.toNat + n ≤ 4294967296)
    (hin : ∀ k, k < n → inMem s.params (s.pc.toNat + k) = true) (hk : k < n)
    (hdirty : s.pc.toNat + k ∈ s.dirty) : fetchRefusal s n = some .fetchOfStoredByte := by
  rw [fetchRefusal_of_exists hend hin]
  exact if_neg fun hclean => allFrom_clean_iff.mp hclean k hk hdirty

theorem fetchRefusal_of_clean (hend : s.pc.toNat + n ≤ 4294967296)
    (hin : ∀ k, k < n → inMem s.params (s.pc.toNat + k) = true)
    (hclean : ∀ k, k < n → s.pc.toNat + k ∉ s.dirty) : fetchRefusal s n = none := by
  rw [fetchRefusal_of_exists hend hin]
  exact if_pos (allFrom_clean_iff.mpr hclean)

theorem fetchInstr_of_first {r : Refusal} (h : fetchRefusal s 1 = some r) :
    fetchInstr s = .error r := by
  rw [fetchInstr, h]

theorem fetchInstr_of_length {r : Refusal} (hn : n = ilen (opcodeOf (s.mem.byteAt s.pc.toNat)))
    (hfirst : fetchRefusal s 1 = none) (h : fetchRefusal s n = some r) :
    fetchInstr s = .error r := by
  subst hn
  simp only [fetchInstr, hfirst, h]

theorem fetchInstr_of_decode_error {e : DecodeError}
    (hn : n = ilen (opcodeOf (s.mem.byteAt s.pc.toNat))) (hfirst : fetchRefusal s 1 = none)
    (hall : fetchRefusal s n = none) (h : decode (bytesFrom s.mem s.pc.toNat n) = .error e) :
    fetchInstr s = .error (.reservedEncoding e) := by
  subst hn
  simp only [fetchInstr, hfirst, hall, h]

theorem fetchInstr_of_decode_ok {i : Instr} {rest : List Byte}
    (hn : n = ilen (opcodeOf (s.mem.byteAt s.pc.toNat))) (hfirst : fetchRefusal s 1 = none)
    (hall : fetchRefusal s n = none) (h : decode (bytesFrom s.mem s.pc.toNat n) = .ok (i, rest)) :
    fetchInstr s = .ok i := by
  subst hn
  simp only [fetchInstr, hfirst, hall, h]

end

/-- The first byte exists on its own: an address is inside the space. -/
theorem fetchRefusal_one_of_clean {s : State} (hin : inMem s.params s.pc.toNat = true)
    (hclean : s.pc.toNat ∉ s.dirty) : fetchRefusal s 1 = none := by
  refine fetchRefusal_of_clean s.pc.isLt (fun k hk => ?_) (fun k hk => ?_)
  · rwa [Nat.lt_one_iff.mp hk]
  · rwa [Nat.lt_one_iff.mp hk]

/-- Settles O40, in the order of the fetch: the first byte alone, the end of the space, every byte's
existence, then dirty, then the decoder. -/
theorem fetchRefusals : Obligations.FetchRefusals := by
  unfold Obligations.FetchRefusals
  intro s n hpc hno hn
  refine ⟨fun hout => ?_, fun hin hdirty => ?_, fun hin hclean => ⟨fun hpast => ?_, fun hend =>
    ⟨fun ⟨k, hk, hout⟩ => ?_, fun hall => ⟨fun ⟨k, hk, hdirty⟩ => ?_, fun hclean' e he => ?_⟩⟩⟩⟩ <;>
    apply step_of_fetch_error hpc hno
  · exact fetchInstr_of_first (fetchRefusal_of_outside (k := 0) s.pc.isLt Nat.one_pos hout)
  · refine fetchInstr_of_first
      (fetchRefusal_of_dirty (k := 0) s.pc.isLt (fun k hk => ?_) Nat.one_pos hdirty)
    rwa [Nat.lt_one_iff.mp hk]
  · exact fetchInstr_of_length hn (fetchRefusal_one_of_clean hin hclean)
      (fetchRefusal_of_pastEnd hpast)
  · exact fetchInstr_of_length hn (fetchRefusal_one_of_clean hin hclean)
      (fetchRefusal_of_outside hend hk hout)
  · exact fetchInstr_of_length hn (fetchRefusal_one_of_clean hin hclean)
      (fetchRefusal_of_dirty hend hall hk hdirty)
  · exact fetchInstr_of_decode_error hn (fetchRefusal_one_of_clean hin hclean)
      (fetchRefusal_of_clean hend hall hclean') he

/-- What decodes with no byte left over is as long as its first byte says. -/
theorem length_of_decode {b0 : Byte} {bs : List Byte} {i : Instr}
    (h : decode (b0 :: bs) = .ok (i, [])) : (b0 :: bs).length = ilen (opcodeOf b0) := by
  rcases decode_ok h with ⟨w, hw, hbs⟩ | ⟨w, hw, hbs⟩
  · obtain ⟨-, hlen, -⟩ := encode_of_word32 hw
    rw [List.append_nil] at hbs
    cases hbs
    rw [opcodeOf_low32, hlen]
    rfl
  · obtain ⟨-, hlen, -⟩ := encode_of_word24 hw
    rw [List.append_nil] at hbs
    cases hbs
    rw [opcodeOf_low24, hlen]
    rfl

/-- Settles O39: the bytes that decode are as many as the fetch takes. -/
theorem stepRunsDecodedInstruction : Obligations.StepRunsDecodedInstruction := by
  unfold Obligations.StepRunsDecodedInstruction
  intro i n s _ hpc hno hend hbytes hdec
  cases n with
  | zero => cases hdec
  | succ n =>
    have hn : n + 1 = ilen (opcodeOf (s.mem.byteAt s.pc.toNat)) := by
      rw [← length_of_decode hdec]
      exact (bytesFrom_length s.mem s.pc.toNat (n + 1)).symm
    obtain ⟨hin, hclean⟩ := hbytes 0 (Nat.succ_pos n)
    have hall : fetchRefusal s (n + 1) = none :=
      fetchRefusal_of_clean hend (fun k hk => (hbytes k hk).1) (fun k hk => (hbytes k hk).2)
    exact step_of_fetch_ok hpc hno
      (fetchInstr_of_decode_ok hn (fetchRefusal_one_of_clean hin hclean) hall hdec)

end Sys2Proof.Machine
end
